-- ==== Sys2Proof/Word.lean ====
section
/-! DEFINITION. The value types of the block: every register and arithmetic value is unsigned (00_scope.md R10). -/

namespace Sys2Proof

/-- A timestamp, a time in milliseconds or an NEC code: 32 bits (00_scope.md R7 `TIME_W`, `CODE_W`). -/
abbrev W32 := BitVec 32

/-- A number of encoder ticks: the width of `enc.cnt` (10_state.md R26). -/
abbrev W16 := BitVec 16

end Sys2Proof
end

