-- ==== Sys2Proof/Config.lean ====
section
/-! DEFINITION. The configuration of the block: the parameters of 00_scope.md R7, fixed before the rules hold
(70_reset_and_hazards.md R252 step 1). A state carries its configuration as data, so a statement about every state
holds for every configuration; nothing ever writes it. -/

namespace Sys2Proof

/-- The decoder's six tolerance windows (30_encoding.md R86). -/
inductive Window where
  | ps | pp | rp | sil | b0 | b1
  deriving DecidableEq, Repr

/-- A window in microseconds, as 00_scope.md R7 gives it. -/
structure MicroWindow where
  loUs : Nat
  hiUs : Nat
  deriving DecidableEq, Repr

/-- The parameters of 00_scope.md R7. `DEBOUNCE_MS`, `button_id` and the engine's sizes are parameters of one
instance of their unit and stand with that unit's registers in `Machine.State`. -/
structure Config where
  /-- `EDGE_CAP` -/
  edgeCap : Nat
  /-- `TICK_DEC_NS` -/
  tickDecNs : Nat
  psUs : MicroWindow
  ppUs : MicroWindow
  rpUs : MicroWindow
  silUs : MicroWindow
  b0Us : MicroWindow
  b1Us : MicroWindow
  /-- `TICK_ENC_NS`: no rule computes with it (00_scope.md R17). -/
  tickEncNs : Nat
  proOnT : W16
  proOffT : W16
  b0OnT : W16
  b0OffT : W16
  b1OnT : W16
  b1OffT : W16
  epiOnT : W16
  epiOffT : W16
  /-- `CARRIER_HZ`: the carrier is made outside the block (43_nec_encoder.md R208). -/
  carrierHz : Nat
  /-- `CARRIER_DUTY_PCT` -/
  carrierDutyPct : Nat
  deriving DecidableEq, Repr

/-- The defaults of 00_scope.md R7. `EDGE_CAP` and `EPI_OFF_T` are OPEN there: the values here are those
95_test_vectors.md uses (DESIGN CHOICE, log entry 1). -/
def Config.default : Config where
  edgeCap := 256
  tickDecNs := 1000
  psUs := ⟨8800, 9200⟩
  ppUs := ⟨4300, 4700⟩
  rpUs := ⟨1700, 2700⟩
  silUs := ⟨400, 700⟩
  b0Us := ⟨400, 700⟩
  b1Us := ⟨1500, 1800⟩
  tickEncNs := 56250
  proOnT := 160#16
  proOffT := 80#16
  b0OnT := 10#16
  b0OffT := 10#16
  b1OnT := 10#16
  b1OffT := 30#16
  epiOnT := 10#16
  epiOffT := 20#16
  carrierHz := 38000
  carrierDutyPct := 35

/-- What the spec asks of a configuration: `EDGE_CAP` at least 2 (00_scope.md R7), a positive tick, and every burst
count in 1 to 65535 (30_encoding.md R89). -/
def Config.wf (c : Config) : Bool :=
  2 ≤ c.edgeCap && 1 ≤ c.tickDecNs
    && c.proOnT != 0#16 && c.proOffT != 0#16 && c.b0OnT != 0#16 && c.b0OffT != 0#16
    && c.b1OnT != 0#16 && c.b1OffT != 0#16 && c.epiOnT != 0#16 && c.epiOffT != 0#16

end Sys2Proof
end

