-- ==== Sys2Proof/Syntax.lean ====
section
/-! DEFINITION. The rows of spec/opcode_table.json: the selector rows of the four units (30_encoding.md R92 to R95) and the
host operations (R96, R97), one constructor of `Instr` each. -/

namespace Sys2Proof

/-- The five code spaces of the opcode table, the "format" of its rows. As numbers they overlap; the format says
which table a word belongs to (log entry 7). -/
inductive CodeSpace where
  | decSelector | dbnSelector | encSelector | engSelector | hostOp
  deriving DecidableEq, Repr

/-- The rows of the `DEC` selector table (30_encoding.md R92). -/
inductive DecRow where
  | halt | idlePrologue | idleNoise | initCommand | initRepetition | initNoise
  | ssComplete | ssSilence | ssNoise | spBit0 | spBit1 | spNoise
  deriving DecidableEq, Repr

/-- The rows of the `DBN` selector table (30_encoding.md R93). -/
inductive DbnRow where
  | noPoll | press | releasedHold | pwElapsed | pwHold | release | pressedHold | rwElapsed | rwHold
  deriving DecidableEq, Repr

/-- The rows of the `ENC` selector table (30_encoding.md R94). -/
inductive EncRow where
  | noPoll | send | nothing | wait | count | proOnEnd | proOffEnd | bitOnEnd | bitOffNext | bitOffLast
  | epiOnEnd | epiOffEnd
  deriving DecidableEq, Repr

/-- The rows of the stand-alone `ENG` selector table (30_encoding.md R95). -/
inductive EngRow where
  | noPoll | fire | noMatch
  deriving DecidableEq, Repr

/-- The sizes of one engine instance (30_encoding.md R83). -/
structure EngSizes where
  stateW : Nat
  nEntries : Nat
  nGuards : Nat
  nActions : Nat
  deriving DecidableEq, Repr

/-- One transition-table entry (10_state.md R21, 30_encoding.md R83). Guard id 0 is `TRUE` and action id 0 is `NONE`
(R84). -/
structure Entry where
  fromState : Nat
  guard : Nat
  toState : Nat
  action : Nat
  deriving DecidableEq, Repr

/-- The unit an `FSM_STEP` polls, with that unit's sampled inputs (30_encoding.md R96). For `ENG` the list holds
`g[1]`, `g[2]` and so on: `g[0]` is `TRUE` (R84). -/
inductive PollInputs where
  | eng (g : List Bool)
  | dbn (nowMs : W32) (level : Bool)
  | enc
  deriving DecidableEq, Repr

/-- One constructor per row of spec/opcode_table.json, in its order. -/
inductive Instr where
  -- DEC selector rows, 42_nec_decoder.md
  | decHalt
  | decIdlePrologue
  | decIdleNoise
  | decInitCommand
  | decInitRepetition
  | decInitNoise
  | decSsComplete
  | decSsSilence
  | decSsNoise
  | decSpBit0
  | decSpBit1
  | decSpNoise
  -- DBN selector rows, 41_button_debouncer.md
  | dbNoPoll
  | dbPress
  | dbReleasedHold
  | dbPwElapsed
  | dbPwHold
  | dbRelease
  | dbPressedHold
  | dbRwElapsed
  | dbRwHold
  -- ENC selector rows, 43_nec_encoder.md
  | encNoPoll
  | encSend
  | encNothing
  | encWait
  | encCount
  | encProOnEnd
  | encProOffEnd
  | encBitOnEnd
  | encBitOffNext
  | encBitOffLast
  | encEpiOnEnd
  | encEpiOffEnd
  -- ENG selector rows, 40_fsm_engine.md
  | engNoPoll
  | engFire
  | engNoMatch
  -- host operations, 30_encoding.md R96
  | fsmConstruct (sizes : EngSizes) (table : List Nat) (initState : Nat)
  | fsmStep (inputs : PollInputs)
  | dbGetDuration
  | dbResetDuration
  | dbIsActive
  | decParse (n : Nat)
  | decReadResult
  | encSetCode (v : W32)
  | encIsBusy
  | encTick
  | clock
  | reset
  -- reserved host-operation codes, 30_encoding.md R97
  | reserved0
  | reservedC
  | reservedD
  | reservedE
  deriving DecidableEq, Repr

/-- The instruction a `DEC` row is. -/
def DecRow.instr : DecRow → Instr
  | .halt => .decHalt
  | .idlePrologue => .decIdlePrologue
  | .idleNoise => .decIdleNoise
  | .initCommand => .decInitCommand
  | .initRepetition => .decInitRepetition
  | .initNoise => .decInitNoise
  | .ssComplete => .decSsComplete
  | .ssSilence => .decSsSilence
  | .ssNoise => .decSsNoise
  | .spBit0 => .decSpBit0
  | .spBit1 => .decSpBit1
  | .spNoise => .decSpNoise

/-- The instruction a `DBN` row is. -/
def DbnRow.instr : DbnRow → Instr
  | .noPoll => .dbNoPoll
  | .press => .dbPress
  | .releasedHold => .dbReleasedHold
  | .pwElapsed => .dbPwElapsed
  | .pwHold => .dbPwHold
  | .release => .dbRelease
  | .pressedHold => .dbPressedHold
  | .rwElapsed => .dbRwElapsed
  | .rwHold => .dbRwHold

/-- The instruction an `ENC` row is. -/
def EncRow.instr : EncRow → Instr
  | .noPoll => .encNoPoll
  | .send => .encSend
  | .nothing => .encNothing
  | .wait => .encWait
  | .count => .encCount
  | .proOnEnd => .encProOnEnd
  | .proOffEnd => .encProOffEnd
  | .bitOnEnd => .encBitOnEnd
  | .bitOffNext => .encBitOffNext
  | .bitOffLast => .encBitOffLast
  | .epiOnEnd => .encEpiOnEnd
  | .epiOffEnd => .encEpiOffEnd

/-- The instruction an `ENG` row is. -/
def EngRow.instr : EngRow → Instr
  | .noPoll => .engNoPoll
  | .fire => .engFire
  | .noMatch => .engNoMatch

/-- A word of the opcode table with the operands it carries: its code space, its bits and the operand values in order
(30_encoding.md R96: "Operands are the values the operation carries"). -/
structure Code where
  fmt : CodeSpace
  bits : Nat
  args : List Nat
  deriving DecidableEq, Repr

end Sys2Proof
end

