-- ==== Sys2Proof/WellFormed.lean ====
section
/-! DEFINITION. Which terms of `Instr` are instructions: the operand ranges the spec gives. Only `FSM_CONSTRUCT` has operands
whose ranges depend on one another; every other operand's range is its Lean type. -/

namespace Sys2Proof

/-- `ceil(log2 n)`, 0 for `n` at most 1 (30_encoding.md R83, 00_scope.md R7). -/
def clog2 (n : Nat) : Nat := if n ≤ 1 then 0 else Nat.log2 (n - 1) + 1

/-- `GW = max(1, ceil(log2 N_GUARDS))` (30_encoding.md R83). -/
def EngSizes.gw (z : EngSizes) : Nat := max 1 (clog2 z.nGuards)

/-- `AW = max(1, ceil(log2 N_ACTIONS))` (30_encoding.md R83). -/
def EngSizes.aw (z : EngSizes) : Nat := max 1 (clog2 z.nActions)

/-- The width of one table entry word, `2·STATE_W + GW + AW` (30_encoding.md R83). -/
def EngSizes.entryW (z : EngSizes) : Nat := 2 * z.stateW + z.gw + z.aw

/-- `IDX_W = ceil(log2(EDGE_CAP + 1))` (00_scope.md R7). -/
def Config.idxW (c : Config) : Nat := clog2 (c.edgeCap + 1)

/-- The sizes 30_encoding.md R83 allows. -/
def EngSizes.wf (z : EngSizes) : Bool := 1 ≤ z.stateW && 1 ≤ z.nGuards && 1 ≤ z.nActions

/-- The operand ranges. A table of the wrong length or with a guard or action id out of range is well formed: it is refused
when it is run (40_fsm_engine.md R110). -/
def Instr.wf : Instr → Bool
  | .fsmConstruct z ws s0 => z.wf && ws.all (fun w => decide (w < 2 ^ z.entryW)) && decide (s0 < 2 ^ z.stateW)
  | .decHalt | .decIdlePrologue | .decIdleNoise | .decInitCommand | .decInitRepetition | .decInitNoise
  | .decSsComplete | .decSsSilence | .decSsNoise | .decSpBit0 | .decSpBit1 | .decSpNoise
  | .dbNoPoll | .dbPress | .dbReleasedHold | .dbPwElapsed | .dbPwHold | .dbRelease | .dbPressedHold
  | .dbRwElapsed | .dbRwHold
  | .encNoPoll | .encSend | .encNothing | .encWait | .encCount | .encProOnEnd | .encProOffEnd | .encBitOnEnd
  | .encBitOffNext | .encBitOffLast | .encEpiOnEnd | .encEpiOffEnd
  | .engNoPoll | .engFire | .engNoMatch
  | .fsmStep _ | .dbGetDuration | .dbResetDuration | .dbIsActive | .decParse _ | .decReadResult
  | .encSetCode _ | .encIsBusy | .encTick | .clock | .reset
  | .reserved0 | .reservedC | .reservedD | .reservedE => true

end Sys2Proof
end

