-- ==== Sys2Proof/Decode.lean ====
section
/-! DEFINITION. Decoding: the selector tables of the four units (30_encoding.md R92 to R95), the host-operation codes (R96,
R97) and the table-entry words of an engine (R83); total, and rejecting by name. The encoder after it is written from
the same tables. -/

namespace Sys2Proof

/-- Why a word is no instruction. -/
inductive DecodeError where
  /-- the word has more bits than its code space -/
  | wordTooWide
  /-- no row of the unit's selector table matches (30_encoding.md R94: such a selector cannot occur) -/
  | noRow
  /-- the number of operands is not the operation's -/
  | badOperandCount
  /-- an operand has more bits than the port it goes to -/
  | operandTooWide
  /-- `FSM_STEP` on something that is not `ENG`, `DBN` or `ENC` -/
  | badUnit
  /-- an instruction `Instr.wf` rejects -/
  | illFormed
  deriving DecidableEq, Repr

/-- One row of a selector table: it matches when `selector & mask = pattern` (30_encoding.md R92). -/
structure SelRow (α : Type) where
  pattern : Nat
  mask : Nat
  row : α
  deriving DecidableEq, Repr

/-- Does the row match the selector `w`? -/
def SelRow.hits {α : Type} (r : SelRow α) (w : Nat) : Bool := (w &&& r.mask) == r.pattern

/-- The row of a selector table that matches the selector `w`. -/
def selectRow {α : Type} (rows : List (SelRow α)) (w : Nat) : Option α :=
  (rows.find? (fun r => r.hits w)).map (fun r => r.row)

/-- 30_encoding.md R92. -/
def decRows : List (SelRow DecRow) :=
  [⟨0x000, 0x200, .halt⟩,
   ⟨0x220, 0x3A0, .idlePrologue⟩,
   ⟨0x200, 0x3A0, .idleNoise⟩,
   ⟨0x290, 0x390, .initCommand⟩,
   ⟨0x288, 0x398, .initRepetition⟩,
   ⟨0x280, 0x398, .initNoise⟩,
   ⟨0x340, 0x3C0, .ssComplete⟩,
   ⟨0x304, 0x3C4, .ssSilence⟩,
   ⟨0x300, 0x3C4, .ssNoise⟩,
   ⟨0x382, 0x382, .spBit0⟩,
   ⟨0x381, 0x383, .spBit1⟩,
   ⟨0x380, 0x383, .spNoise⟩]

/-- 30_encoding.md R93. -/
def dbnRows : List (SelRow DbnRow) :=
  [⟨0x00, 0x10, .noPoll⟩,
   ⟨0x12, 0x1E, .press⟩,
   ⟨0x10, 0x1E, .releasedHold⟩,
   ⟨0x15, 0x1D, .pwElapsed⟩,
   ⟨0x14, 0x1D, .pwHold⟩,
   ⟨0x18, 0x1E, .release⟩,
   ⟨0x1A, 0x1E, .pressedHold⟩,
   ⟨0x1D, 0x1D, .rwElapsed⟩,
   ⟨0x1C, 0x1D, .rwHold⟩]

/-- 30_encoding.md R94. -/
def encRows : List (SelRow EncRow) :=
  [⟨0x000, 0x180, .noPoll⟩,
   ⟨0x084, 0x184, .send⟩,
   ⟨0x080, 0x184, .nothing⟩,
   ⟨0x100, 0x140, .wait⟩,
   ⟨0x140, 0x142, .count⟩,
   ⟨0x14A, 0x17A, .proOnEnd⟩,
   ⟨0x152, 0x17A, .proOffEnd⟩,
   ⟨0x15A, 0x17A, .bitOnEnd⟩,
   ⟨0x162, 0x17B, .bitOffNext⟩,
   ⟨0x163, 0x17B, .bitOffLast⟩,
   ⟨0x16A, 0x17A, .epiOnEnd⟩,
   ⟨0x172, 0x17A, .epiOffEnd⟩]

/-- 30_encoding.md R95. -/
def engRows : List (SelRow EngRow) :=
  [⟨0x0, 0x2, .noPoll⟩,
   ⟨0x3, 0x3, .fire⟩,
   ⟨0x2, 0x3, .noMatch⟩]

/-- The `DEC` row a selector selects. -/
def decodeDec (w : Nat) : Option DecRow := selectRow decRows w

/-- The `DBN` row a selector selects. -/
def decodeDbn (w : Nat) : Option DbnRow := selectRow dbnRows w

/-- The `ENC` row a selector selects. -/
def decodeEnc (w : Nat) : Option EncRow := selectRow encRows w

/-- The `ENG` row a selector selects. -/
def decodeEng (w : Nat) : Option EngRow := selectRow engRows w

/-- How many bits a word of the code space has: the widths of 30_encoding.md R91 and R93 to R96. -/
def CodeSpace.width : CodeSpace → Nat
  | .decSelector => 10
  | .dbnSelector => 5
  | .encSelector => 9
  | .engSelector => 2
  | .hostOp => 4

/-- A selector word is its row; it has no operand (30_encoding.md R88). -/
def decodeSelector {α : Type} (f : α → Instr) (row : Option α) (args : List Nat) : Except DecodeError Instr :=
  match row, args with
  | some r, [] => .ok (f r)
  | none, [] => .error .noRow
  | _, _ :: _ => .error .badOperandCount

/-- An operand of one bit. -/
def decodeBit : Nat → Except DecodeError Bool
  | 0 => .ok false
  | 1 => .ok true
  | _ => .error .operandTooWide

/-- A list of operands of one bit each. -/
def decodeBits : List Nat → Except DecodeError (List Bool)
  | [] => .ok []
  | a :: as =>
    match decodeBit a, decodeBits as with
    | .ok b, .ok bs => .ok (b :: bs)
    | .error e, _ => .error e
    | _, .error e => .error e

/-- An operand of 32 bits. -/
def decodeW32 (a : Nat) : Except DecodeError W32 :=
  if a < 2 ^ 32 then .ok (BitVec.ofNat 32 a) else .error .operandTooWide

/-- An operation without operands. -/
def decodeNullary (i : Instr) : List Nat → Except DecodeError Instr
  | [] => .ok i
  | _ :: _ => .error .badOperandCount

/-- `FSM_CONSTRUCT` (30_encoding.md R96 code 0x1). The operands are `STATE_W - 1`, `N_ENTRIES`, `N_GUARDS - 1`,
`N_ACTIONS - 1`, `init_state` and then the table's entry words, entry 0 first: DESIGN CHOICE (log entry 8). -/
def decodeConstruct : List Nat → Except DecodeError Instr
  | w :: n :: g :: a :: s0 :: ws =>
    let i := Instr.fsmConstruct ⟨w + 1, n, g + 1, a + 1⟩ ws s0
    if i.wf then .ok i else .error .illFormed
  | _ => .error .badOperandCount

/-- `FSM_STEP` (30_encoding.md R96 code 0x2). The first operand names the unit in the order the rule lists them (0 `ENG`,
1 `DBN`, 2 `ENC`), and that unit's inputs follow: DESIGN CHOICE (log entry 8). -/
def decodeStep : List Nat → Except DecodeError Instr
  | 0 :: gs => (decodeBits gs).map (fun g => .fsmStep (.eng g))
  | [1, now, lvl] =>
    match decodeW32 now, decodeBit lvl with
    | .ok t, .ok b => .ok (.fsmStep (.dbn t b))
    | .error e, _ => .error e
    | _, .error e => .error e
  | [2] => .ok (.fsmStep .enc)
  | 1 :: _ => .error .badOperandCount
  | 2 :: _ => .error .badOperandCount
  | [] => .error .badOperandCount
  | _ :: _ => .error .badUnit

/-- The sixteen host-operation codes (30_encoding.md R96, R97). A reserved code is reserved whatever operands come with it. -/
def decodeHost (code : Nat) (args : List Nat) : Except DecodeError Instr :=
  match code with
  | 0x0 => .ok .reserved0
  | 0x1 => decodeConstruct args
  | 0x2 => decodeStep args
  | 0x3 => decodeNullary .dbGetDuration args
  | 0x4 => decodeNullary .dbResetDuration args
  | 0x5 => decodeNullary .dbIsActive args
  | 0x6 =>
    match args with
    | [n] => .ok (.decParse n)
    | _ => .error .badOperandCount
  | 0x7 => decodeNullary .decReadResult args
  | 0x8 =>
    match args with
    | [v] => (decodeW32 v).map .encSetCode
    | _ => .error .badOperandCount
  | 0x9 => decodeNullary .encIsBusy args
  | 0xA => decodeNullary .encTick args
  | 0xB => decodeNullary .clock args
  | 0xC => .ok .reservedC
  | 0xD => .ok .reservedD
  | 0xE => .ok .reservedE
  | 0xF => decodeNullary .reset args
  | _ => .error .wordTooWide

/-- The instruction a word of the opcode table stands for. -/
def decode (c : Code) : Except DecodeError Instr :=
  if c.bits < 2 ^ c.fmt.width then
    match c.fmt with
    | .decSelector => decodeSelector DecRow.instr (decodeDec c.bits) c.args
    | .dbnSelector => decodeSelector DbnRow.instr (decodeDbn c.bits) c.args
    | .encSelector => decodeSelector EncRow.instr (decodeEnc c.bits) c.args
    | .engSelector => decodeSelector EngRow.instr (decodeEng c.bits) c.args
    | .hostOp => decodeHost c.bits c.args
  else .error .wordTooWide

/-! The encoder. A selector row's word is its match value: the bits the mask leaves open are 0. -/

/-- A bit as an operand value. -/
def encodeBit (b : Bool) : Nat := if b then 1 else 0

/-- The operands of `FSM_STEP`. -/
def encodeStep : PollInputs → List Nat
  | .eng g => 0 :: g.map encodeBit
  | .dbn now lvl => [1, now.toNat, encodeBit lvl]
  | .enc => [2]

/-- The word of an instruction. -/
def encode : Instr → Code
  | .decHalt => ⟨.decSelector, 0x000, []⟩
  | .decIdlePrologue => ⟨.decSelector, 0x220, []⟩
  | .decIdleNoise => ⟨.decSelector, 0x200, []⟩
  | .decInitCommand => ⟨.decSelector, 0x290, []⟩
  | .decInitRepetition => ⟨.decSelector, 0x288, []⟩
  | .decInitNoise => ⟨.decSelector, 0x280, []⟩
  | .decSsComplete => ⟨.decSelector, 0x340, []⟩
  | .decSsSilence => ⟨.decSelector, 0x304, []⟩
  | .decSsNoise => ⟨.decSelector, 0x300, []⟩
  | .decSpBit0 => ⟨.decSelector, 0x382, []⟩
  | .decSpBit1 => ⟨.decSelector, 0x381, []⟩
  | .decSpNoise => ⟨.decSelector, 0x380, []⟩
  | .dbNoPoll => ⟨.dbnSelector, 0x00, []⟩
  | .dbPress => ⟨.dbnSelector, 0x12, []⟩
  | .dbReleasedHold => ⟨.dbnSelector, 0x10, []⟩
  | .dbPwElapsed => ⟨.dbnSelector, 0x15, []⟩
  | .dbPwHold => ⟨.dbnSelector, 0x14, []⟩
  | .dbRelease => ⟨.dbnSelector, 0x18, []⟩
  | .dbPressedHold => ⟨.dbnSelector, 0x1A, []⟩
  | .dbRwElapsed => ⟨.dbnSelector, 0x1D, []⟩
  | .dbRwHold => ⟨.dbnSelector, 0x1C, []⟩
  | .encNoPoll => ⟨.encSelector, 0x000, []⟩
  | .encSend => ⟨.encSelector, 0x084, []⟩
  | .encNothing => ⟨.encSelector, 0x080, []⟩
  | .encWait => ⟨.encSelector, 0x100, []⟩
  | .encCount => ⟨.encSelector, 0x140, []⟩
  | .encProOnEnd => ⟨.encSelector, 0x14A, []⟩
  | .encProOffEnd => ⟨.encSelector, 0x152, []⟩
  | .encBitOnEnd => ⟨.encSelector, 0x15A, []⟩
  | .encBitOffNext => ⟨.encSelector, 0x162, []⟩
  | .encBitOffLast => ⟨.encSelector, 0x163, []⟩
  | .encEpiOnEnd => ⟨.encSelector, 0x16A, []⟩
  | .encEpiOffEnd => ⟨.encSelector, 0x172, []⟩
  | .engNoPoll => ⟨.engSelector, 0x0, []⟩
  | .engFire => ⟨.engSelector, 0x3, []⟩
  | .engNoMatch => ⟨.engSelector, 0x2, []⟩
  | .fsmConstruct z ws s0 => ⟨.hostOp, 0x1, (z.stateW - 1) :: z.nEntries :: (z.nGuards - 1) :: (z.nActions - 1) :: s0 :: ws⟩
  | .fsmStep p => ⟨.hostOp, 0x2, encodeStep p⟩
  | .dbGetDuration => ⟨.hostOp, 0x3, []⟩
  | .dbResetDuration => ⟨.hostOp, 0x4, []⟩
  | .dbIsActive => ⟨.hostOp, 0x5, []⟩
  | .decParse n => ⟨.hostOp, 0x6, [n]⟩
  | .decReadResult => ⟨.hostOp, 0x7, []⟩
  | .encSetCode v => ⟨.hostOp, 0x8, [v.toNat]⟩
  | .encIsBusy => ⟨.hostOp, 0x9, []⟩
  | .encTick => ⟨.hostOp, 0xA, []⟩
  | .clock => ⟨.hostOp, 0xB, []⟩
  | .reset => ⟨.hostOp, 0xF, []⟩
  | .reserved0 => ⟨.hostOp, 0x0, []⟩
  | .reservedC => ⟨.hostOp, 0xC, []⟩
  | .reservedD => ⟨.hostOp, 0xD, []⟩
  | .reservedE => ⟨.hostOp, 0xE, []⟩

/-! Table-entry words (30_encoding.md R83): `from_state`, `guard`, `to_state`, `action`, most significant field first. -/

/-- Bits `[lo+n-1 : lo]` of `w` (00_scope.md R9). -/
def bitField (w lo n : Nat) : Nat := (w >>> lo) % 2 ^ n

/-- The entry a table word stands for. -/
def entryOfWord (z : EngSizes) (w : Nat) : Entry where
  fromState := bitField w (z.stateW + z.gw + z.aw) z.stateW
  guard := bitField w (z.stateW + z.aw) z.gw
  toState := bitField w z.aw z.stateW
  action := bitField w 0 z.aw

/-- The word of a table entry. -/
def wordOfEntry (z : EngSizes) (e : Entry) : Nat :=
  ((e.fromState * 2 ^ z.gw + e.guard) * 2 ^ z.stateW + e.toState) * 2 ^ z.aw + e.action

/-! The opcode table's numbering of a row's bits. The table gives a row the bits of its code space alone (10, 9, 5, 4 or 2
of them) and does not name the code space in the word, so the code space is told from `nbits` where `nbits` is one of the
five widths, and otherwise from the value (log entry 7). -/

/-- The code space of a word of `nbits` bits. In whole bytes (16 or 8 bits) a word at or above 0x200 is a `DEC` selector
and any other 16-bit word an `ENC` selector; an 8-bit word at or above 0x10 is a `DBN` selector and any other a host
operation. -/
def spaceOfWord (nbits w : Nat) : CodeSpace :=
  if nbits = 10 then .decSelector
  else if nbits = 9 then .encSelector
  else if nbits = 5 then .dbnSelector
  else if nbits = 4 then .hostOp
  else if nbits = 2 then .engSelector
  else if 8 < nbits then (if 0x200 ≤ w then .decSelector else .encSelector)
  else if 0x10 ≤ w then .dbnSelector
  else .hostOp

/-- The operand values an operation has when every operand bit is 0: as many zeros as it takes operands. -/
def zeroArgs (fmt : CodeSpace) (w : Nat) : List Nat :=
  match fmt, w with
  | .hostOp, 0x1 => [0, 0, 0, 0, 0]
  | .hostOp, 0x2 => [0]
  | .hostOp, 0x6 => [0]
  | .hostOp, 0x8 => [0]
  | _, _ => []

/-- The word `w` of `nbits` bits, with operands of zeros. -/
def tableCode (nbits w : Nat) : Code :=
  ⟨spaceOfWord nbits w, w, zeroArgs (spaceOfWord nbits w) w⟩

/-- What the decoder reads from a word numbered as spec/opcode_table.json numbers it. -/
def decodeTableWord (nbits w : Nat) : Option Instr :=
  match decode (tableCode nbits w) with
  | .ok i => some i
  | .error _ => none

end Sys2Proof
end

