-- ==== Sys2Proof/Machine/State.lean ====
section
/-! DEFINITION. What the machine holds: the registers of the four units (10_state.md R21 to R26), the edge buffer (20_memory.md R60), the
values on its ports (10_state.md R29 to R33), and the events still to come. A block has one unit of each kind; the state
holds one block in its own fields and any number of further blocks on the same clock (60_exceptions.md R236, log entry 23). -/

namespace Sys2Proof.Machine

/-- The four units (00_scope.md R1). -/
inductive UnitTag where
  | eng | dbn | dec | enc
  deriving DecidableEq, Repr

/-- How the machine stops with a fault. -/
inductive Fault where
  /-- A unit stands in a register combination no rule reaches (30_encoding.md R98, reason code 16). Raised by that unit's rows. A clock
  edge records it in the unit's `faulted` and goes on with the other units (log entry 21). Safe: the spec itself makes it a
  fault. -/
  | unreachable (u : UnitTag)
  /-- An edge-buffer index at or above `EDGE_CAP`, which does not exist (20_memory.md R67, R69). Raised by a `DEC` row that would form
  one and by a capture agent's write to one. Safe: the machine stops (log entry 13). -/
  | noSuchEntry (i : Nat)
  deriving DecidableEq, Repr

/-- Why an operation is refused: the reasons of 60_exceptions.md R224. All are safe: the run stops. -/
inductive Refusal where
  /-- An instruction without a meaning in this model. Raised by no arm of `exec`. -/
  | notModelled (mnemonic : String)
  /-- `FSM_CONSTRUCT` with a malformed table (40_fsm_engine.md R110). -/
  | badTable
  /-- `DEC_PARSE` while `DEC` is busy (42_nec_decoder.md R170). -/
  | parseWhileBusy
  /-- `DEC_PARSE` with a count above `EDGE_CAP` (42_nec_decoder.md R170). -/
  | countTooLarge
  /-- `DEC_READ_RESULT` while `DEC` is busy (42_nec_decoder.md R175). -/
  | readWhileBusy
  /-- `ENC_SET_CODE` while `ENC` is busy (43_nec_encoder.md R191). -/
  | setCodeWhileBusy
  /-- A write to the borrowed view while `DEC` is busy (20_memory.md R63). Raised by the capture agent's write and append. -/
  | borrowedViewWritten
  /-- A clear of the edge buffer while capture is enabled or `DEC` is busy (20_memory.md R71). -/
  | bufferClearedUnquiesced
  /-- A reserved host-operation code (30_encoding.md R97). Raised by the four reserved instructions. -/
  | reservedHostOp
  /-- A host command that is no instruction. Raised by `step` alone (log entry 8). -/
  | undecodable (e : DecodeError)
  /-- An event for a block or an edge buffer that does not exist. Raised by `step` alone (log entry 23). -/
  | noSuchInstance
  deriving DecidableEq, Repr

/-- `DBN` states (30_encoding.md R81). -/
inductive DbnState where
  | released | pressedWait | pressed | releasedWait
  deriving DecidableEq, Repr

/-- `DEC` states (30_encoding.md R82). -/
inductive DecState where
  | idle | init | ss | sp
  deriving DecidableEq, Repr

/-- `ENC`'s one engine state (30_encoding.md R85). -/
inductive EncState where
  | ready
  deriving DecidableEq, Repr

/-- `ENC` sequencer phases, the reserved code 0b111 among them (30_encoding.md R85). -/
inductive EncPhase where
  | idle | proOn | proOff | bitOn | bitOff | epiOn | epiOff | reserved
  deriving DecidableEq, Repr

/-- The registers and constants of a `DBN` unit (10_state.md R23). -/
structure Dbn where
  state : DbnState
  /-- constant `DEBOUNCE_MS` of the unit -/
  debounceTime : W32
  nextTimeout : W32
  tickPressed : W32
  duration : W32
  /-- which digital input `level` is; a constant of the unit -/
  buttonId : Nat
  deriving DecidableEq, Repr

/-- The registers of a `DEC` unit (10_state.md R24). `p` and `rem` are `IDX_W` bits wide; the width is a parameter of the configuration, so
each is held as a number, and what is written to it is taken modulo `2^IDX_W` (log entry 15). -/
structure Dec where
  state : DecState
  p : Nat
  rem : Nat
  bits : BitVec 6
  code : W32
  rep : Bool
  done : Bool
  /-- the model's record of 30_encoding.md R98: the unit has been found in an unreachable combination and takes no further
  step (log entry 21) -/
  faulted : Bool
  deriving DecidableEq, Repr

/-- The registers of an `ENC` unit (10_state.md R26). -/
structure Enc where
  state : EncState
  pending : W32
  phase : EncPhase
  shreg : W32
  k : BitVec 5
  cnt : W16
  irOn : Bool
  /-- the model's record of 30_encoding.md R98, as `Dec.faulted` -/
  faulted : Bool
  deriving DecidableEq, Repr

/-- A stand-alone `ENG` unit (10_state.md R21, R41): its sizes, its state tag, the initial state and the table it was constructed
with. -/
structure Eng where
  sizes : EngSizes
  state : Nat
  init : Nat
  table : List Entry
  deriving DecidableEq, Repr

/-- One listed entry of the edge buffer: its index and its 32-bit timestamp. The buffer "is indexed by entry, not by byte"
(00_scope.md R12), so the cell is an entry (log entry 9). -/
abbrev EdgeCell := Nat × W32

/-- The edge buffer (20_memory.md R60) with what the environment keeps about it: how many entries were appended since the last clear
(R66) and whether the event source is enabled (R71, R72). -/
structure EdgeBuffer where
  cells : List EdgeCell
  count : Nat
  capEnabled : Bool
  deriving DecidableEq, Repr

/-- A buffer that nothing has been written to, with capture disabled. -/
def EdgeBuffer.empty : EdgeBuffer where
  cells := []
  count := 0
  capEnabled := false

/-- The input ports of the block at one clock edge (10_state.md R29 to R33). -/
structure Inputs where
  rst : Bool
  engPoll : Bool
  /-- `g[1]`, `g[2]`, … -/
  g : List Bool
  dbnPoll : Bool
  nowMs : W32
  level : Bool
  resetDuration : Bool
  encPoll : Bool
  tick : Bool
  setCode : Bool
  codeIn : W32
  start : Bool
  countIn : Nat
  deriving DecidableEq, Repr

/-- No strobe asserted. -/
def Inputs.idle : Inputs where
  rst := false
  engPoll := false
  g := []
  dbnPoll := false
  nowMs := 0#32
  level := false
  resetDuration := false
  encPoll := false
  tick := false
  setCode := false
  codeIn := 0#32
  start := false
  countIn := 0

/-- What the latest reading host operation returned (the model's own, log entry 18). -/
inductive Reply where
  | none
  /-- `DB_GET_DURATION` -/
  | word (v : W32)
  /-- `DB_IS_ACTIVE`, `ENC_IS_BUSY` -/
  | flag (b : Bool)
  /-- `DEC_READ_RESULT`: `code_out`, `rep_out`, `done_out` -/
  | result (codeOut : W32) (repOut doneOut : Bool)
  deriving DecidableEq, Repr

/-- One block of instances: a unit of each kind with its own registers and tables, its own ports, and the number of the edge buffer its
decoder is given (60_exceptions.md R236). -/
structure Block where
  dec : Dec
  dbn : Dbn
  enc : Enc
  eng : Eng
  buf : Nat
  inp : Inputs
  act : Nat
  deriving DecidableEq, Repr

/-- One thing that happens: a host operation on one block, a clock edge with any combination of strobes (60_exceptions.md R226), an action of
the capture agent on one edge buffer (20_memory.md R64, R66, R71), or the instantiation of a further block (60_exceptions.md R236,
70_reset_and_hazards.md R252 step 2). Block 0 is the one in the state's own fields. -/
inductive Event where
  /-- a host-operation code with its operands (30_encoding.md R96), on the units of block `k` -/
  | host (k : Nat) (code : Nat) (args : List Nat)
  /-- one rising edge of `clk`: block `k` has the port values `xs[k]`, and none asserted where the list ends -/
  | cycle (xs : List Inputs)
  /-- the capture agent appends a timestamp to buffer `j` -/
  | append (j : Nat) (t : W32)
  /-- the capture agent writes entry `i` of buffer `j` (`MemWrite(i, 4, v)`, 00_scope.md R12) -/
  | write (j : Nat) (i : Nat) (v : W32)
  /-- `clear_edge_buffer` of buffer `j` -/
  | clear (j : Nat)
  /-- `enable_capture` of buffer `j` -/
  | enableCapture (j : Nat) (b : Bool)
  /-- a further block, with the constants of its debouncer and the edge buffer its decoder is given; a buffer number that is
  not in use makes a new buffer -/
  | instantiate (debounceMs : W32) (buttonId : Nat) (j : Nat)
  deriving DecidableEq, Repr

/-- The machine. The units of block 0 stand in its own fields, those of the other blocks in `peers`. -/
structure State where
  cfg : Config
  dec : Dec
  dbn : Dbn
  enc : Enc
  eng : Eng
  /-- the number of the edge buffer the decoder is given -/
  buf : Nat
  /-- the input ports at the latest clock edge (log entry 19) -/
  inp : Inputs
  /-- the `act` strobes of the stand-alone engine at the latest clock edge: the id of the action that fired, 0 for none
  (10_state.md R30, log entry 17) -/
  act : Nat
  /-- the edge buffers (20_memory.md R60), one per receiver line -/
  bufs : List EdgeBuffer
  /-- the further blocks on the same clock, block 1 first -/
  peers : List Block
  /-- the model's own: what the latest read returned (log entry 18) -/
  reply : Reply
  /-- the model's own: the host program and the environment's actions still to come, next first (30_encoding.md R101, log
  entry 2) -/
  inbox : List Event
  deriving DecidableEq, Repr

/-- 10_state.md R39. -/
def Dec.reset : Dec where
  state := .idle
  p := 0
  rem := 0
  bits := 0#6
  code := 0#32
  rep := false
  done := false
  faulted := false

/-- 10_state.md R40. -/
def Enc.reset : Enc where
  state := .ready
  pending := 0#32
  phase := .idle
  shreg := 0#32
  k := 0#5
  cnt := 0#16
  irOn := false
  faulted := false

/-- A `DBN` unit right after reset (10_state.md R38), with its constants. -/
def Dbn.fresh (debounceMs : W32) (buttonId : Nat) : Dbn where
  state := .released
  debounceTime := debounceMs
  nextTimeout := 0#32
  tickPressed := 0#32
  duration := 0#32
  buttonId := buttonId

/-- A stand-alone engine the host has not constructed yet (log entry 5). -/
def Eng.unconstructed : Eng where
  sizes := ⟨1, 0, 1, 1⟩
  state := 0
  init := 0
  table := []

/-- One block right after reset (10_state.md R38 to R41), with the configuration of `Config.default`, a debouncer constructed with
`DEBOUNCE_MS` = 150 for input 0 (log entry 1), an engine not yet constructed by the host (log entry 5), one edge buffer,
cleared with capture disabled (70_reset_and_hazards.md R252 step 4), no further block, and nothing in the inbox. -/
def State.reset : State where
  cfg := Config.default
  dec := Dec.reset
  dbn := Dbn.fresh 150#32 0
  enc := Enc.reset
  eng := Eng.unconstructed
  buf := 0
  inp := Inputs.idle
  act := 0
  bufs := [EdgeBuffer.empty]
  peers := []
  reply := .none
  inbox := []

end Sys2Proof.Machine
end

