-- ==== Sys2Proof/Machine/Flags.lean ====
section
/-! DEFINITION. The status flags (10_state.md R28) and the outputs that are functions of the registers (R30 to R33, 70_reset_and_hazards.md
R267). -/

namespace Sys2Proof.Machine

/-- A decoder is busy iff `dec.rem ≥ 2` (10_state.md R25). -/
def Dec.busy (d : Dec) : Bool := decide (2 ≤ d.rem)

/-- `DEC` is busy. -/
def decBusy (s : State) : Bool := s.dec.busy

/-- `ENC` is busy iff `enc.phase ≠ IDLE` (10_state.md R27). -/
def encBusy (s : State) : Bool := s.enc.phase != .idle

/-- `is_active = (dbn.state ≠ RELEASED)` (10_state.md R31). -/
def isActive (s : State) : Bool := s.dbn.state != .released

/-- `duration_out` (10_state.md R31). -/
def durationOut (s : State) : W32 := s.dbn.duration

/-- `code_out = (dec.done = 1 ? dec.code : 0)` (42_nec_decoder.md R175). -/
def codeOut (s : State) : W32 := if s.dec.done then s.dec.code else 0#32

/-- `rep_out` (42_nec_decoder.md R175). -/
def repOut (s : State) : Bool := s.dec.rep

/-- `done_out` (42_nec_decoder.md R175). -/
def doneOut (s : State) : Bool := s.dec.done

/-- `carrier_en = enc.ir_on` (10_state.md R33, 43_nec_encoder.md R208). -/
def carrierEn (s : State) : Bool := s.enc.irOn

/-- `state_out = eng.state` (10_state.md R30). -/
def stateOut (s : State) : Nat := s.eng.state

/-- The condition the receiver session reads as a receive error (60_exceptions.md R222). The block stores no such flag. -/
def rxError (s : State) : Bool := codeOut s == 0#32 && !repOut s

/-- The reason codes of 60_exceptions.md R224. A host command that is no instruction has none there. -/
def Refusal.reasonCode : Refusal → Option Nat
  | .badTable => some 1
  | .parseWhileBusy => some 2
  | .countTooLarge => some 3
  | .readWhileBusy => some 4
  | .setCodeWhileBusy => some 5
  | .borrowedViewWritten => some 6
  | .bufferClearedUnquiesced => some 7
  | .reservedHostOp => some 8
  | _ => none

/-- The reason code of 60_exceptions.md R224. -/
def Fault.reasonCode : Fault → Option Nat
  | .unreachable _ => some 16
  | .noSuchEntry _ => none

end Sys2Proof.Machine
end

