-- ==== Sys2Proof/Machine/Ops.lean ====
section
/-! DEFINITION. The operations the meanings share: the blocks, the edge buffers, the decoder's index arithmetic, the unit checks of
30_encoding.md R98, a row's step, the dispatch of an engine table (40_fsm_engine.md R111), and reset. The block raises no exception and takes none (60_exceptions.md R220,
R227, R228), so no operation here takes one. -/

namespace Sys2Proof.Machine

/-- One outcome after another: the first fault or refusal ends it. -/
def andThen {σ τ φ ρ : Type} (o : Host.Outcome σ φ ρ) (f : σ → Host.Outcome τ φ ρ) : Host.Outcome τ φ ρ :=
  match o with
  | .next s => f s
  | .fault r => .fault r
  | .refused r => .refused r

/-! ## Blocks (60_exceptions.md R236) -/

/-- Block 0. -/
def State.block (s : State) : Block where
  dec := s.dec
  dbn := s.dbn
  enc := s.enc
  eng := s.eng
  buf := s.buf
  inp := s.inp
  act := s.act

/-- The state with `b` as its block 0. -/
def State.withBlock (s : State) (b : Block) : State :=
  { s with dec := b.dec, dbn := b.dbn, enc := b.enc, eng := b.eng, buf := b.buf, inp := b.inp, act := b.act }

/-- Every block, block 0 first. -/
def State.blocks (s : State) : List Block := s.block :: s.peers

/-! ## The edge buffers -/

/-- Buffer `j`. -/
def bufferAt (s : State) (j : Nat) : EdgeBuffer := s.bufs.getD j EdgeBuffer.empty

/-- The state with `b` as its buffer `j`. -/
def setBuffer (s : State) (j : Nat) (b : EdgeBuffer) : State := { s with bufs := s.bufs.set j b }

/-- The buffer block 0's decoder is given. -/
def State.edge (s : State) : EdgeBuffer := bufferAt s s.buf

/-- What an entry that nothing has written reads as: DESIGN CHOICE (log entry 10). -/
def unlistedEntry : W32 := 0#32

/-- `MemRead(i, 4)` (00_scope.md R12). -/
def readEntry : List EdgeCell → Nat → W32
  | [], _ => unlistedEntry
  | (a, v) :: m, i => if a = i then v else readEntry m i

/-- `MemWrite(i, 4, v)` (00_scope.md R12). The list stays in its canonical form: indices rising, no entry equal to what an unlisted one
reads as. -/
def writeEntry : List EdgeCell → Nat → W32 → List EdgeCell
  | [], i, v => if v = unlistedEntry then [] else [(i, v)]
  | (a, w) :: m, i, v =>
    if i < a then (if v = unlistedEntry then (a, w) :: m else (i, v) :: (a, w) :: m)
    else if i = a then (if v = unlistedEntry then m else (a, v) :: m)
    else (a, w) :: writeEntry m i v

/-- The canonical form of an edge buffer's cells. -/
def wfCells : List EdgeCell → Bool
  | [] => true
  | [(_, v)] => v != unlistedEntry
  | (a, v) :: (b, w) :: m => v != unlistedEntry && decide (a < b) && wfCells ((b, w) :: m)

/-- `E[i]` (00_scope.md R12). -/
def edgeAt (s : State) (i : Nat) : W32 := readEntry s.edge.cells i

/-- The borrowed view is `E[0]` to `E[viewEnd - 1]` while `DEC` is busy: `dec.p + dec.rem` is the count latched at
`DEC_PARSE` (42_nec_decoder.md R166, log entry 14). -/
def viewEnd (s : State) : Nat := s.dec.p + s.dec.rem

/-- Is entry `i` of buffer `j` part of a borrowed view (20_memory.md R63): of some decoder that is given the buffer and busy? -/
def inBorrowedView (s : State) (j i : Nat) : Bool :=
  s.blocks.any fun b => b.buf == j && b.dec.busy && decide (i < b.dec.p + b.dec.rem)

/-- Is some decoder busy that is given buffer `j`? -/
def bufferInUse (s : State) (j : Nat) : Bool := s.blocks.any fun b => b.buf == j && b.dec.busy

/-! ## Index arithmetic: `dec.p` and `dec.rem` are `IDX_W` bits wide (10_state.md R24, 00_scope.md R10) -/

/-- An `IDX_W`-bit register holding `n`. -/
def toIdx (c : Config) (n : Nat) : Nat := n % 2 ^ c.idxW

/-- `a + b` modulo `2^IDX_W`. -/
def idxAdd (c : Config) (a b : Nat) : Nat := toIdx c (a + b)

/-- `a - b` modulo `2^IDX_W`. -/
def idxSub (c : Config) (a b : Nat) : Nat := toIdx c (a + (2 ^ c.idxW - toIdx c b))

/-! ## Unreachable combinations (30_encoding.md R98) -/

/-- The `DEC` combinations of 30_encoding.md R98. -/
def decUnreachable (d : Dec) : Bool :=
  decide (32 < d.bits.toNat)
    || (d.state == .sp && d.bits == 0#6)
    || ((d.state == .idle || d.state == .init) && !d.done && d.code != 0#32)

/-- The `ENC` combinations of 30_encoding.md R98. -/
def encUnreachable (e : Enc) : Bool :=
  e.phase == .reserved || (e.phase != .idle && e.cnt == 0#16)

/-- A decoder that takes no step: it is in such a combination, or has been found in one (30_encoding.md R98). -/
def decStuck (d : Dec) : Bool := d.faulted || decUnreachable d

/-- An encoder that takes no step. -/
def encStuck (e : Enc) : Bool := e.faulted || encUnreachable e

/-- A busy decoder whose next entry does not exist (log entry 13). -/
def decOut (s : State) : Bool := !decStuck s.dec && decBusy s && decide (s.cfg.edgeCap ≤ s.dec.p + 1)

/-- What stops a `DEC` row. -/
def decCheck (s : State) : Option Fault :=
  if decStuck s.dec then some (.unreachable .dec)
  else if decOut s then some (.noSuchEntry (s.dec.p + 1))
  else none

/-- What stops an `ENC` row. -/
def encCheck (s : State) : Option Fault :=
  if encStuck s.enc then some (.unreachable .enc) else none

/-! ## A row's step

A row's pseudocode is `if <condition> then { <writes> }` (42_nec_decoder.md R154 and its like): where the condition does not hold the row
writes nothing (log entry 6). -/

/-- A `DEC` row: where the unit is busy and the row's condition holds, its writes. -/
def decRowStep (cond : Bool) (writes : Dec → Dec) (s : State) : Host.Outcome State Fault Refusal :=
  match decCheck s with
  | some f => .fault f
  | none => .next (if decBusy s && cond then { s with dec := writes s.dec } else s)

/-- A `DBN` row: where the unit is polled and the row's condition holds, its writes. -/
def dbnRowStep (cond : Bool) (writes : Dbn → Dbn) (s : State) : Host.Outcome State Fault Refusal :=
  .next (if s.inp.dbnPoll && cond then { s with dbn := writes s.dbn } else s)

/-- An `ENC` row: where the row's condition holds, its writes. -/
def encRowStep (cond : Bool) (writes : Enc → Enc) (s : State) : Host.Outcome State Fault Refusal :=
  match encCheck s with
  | some f => .fault f
  | none => .next (if cond then { s with enc := writes s.enc } else s)

/-! ## Engine dispatch (40_fsm_engine.md R111, R112) -/

/-- Does the entry fire: `T[i].from_state = s and g[T[i].guard] = 1`? -/
def entryFires (st : Nat) (g : Nat → Bool) (e : Entry) : Bool := e.fromState == st && g e.guard

/-- The first entry of the table that fires. -/
def engineSelect (table : List Entry) (st : Nat) (g : Nat → Bool) : Option Entry := table.find? (entryFires st g)

/-! ## Reset (70_reset_and_hazards.md R250) -/

/-- 10_state.md R38. -/
def Dbn.afterReset (d : Dbn) : Dbn :=
  { d with state := .released, nextTimeout := 0#32, tickPressed := 0#32, duration := 0#32 }

/-- 10_state.md R41. -/
def Eng.afterReset (e : Eng) : Eng := { e with state := e.init }

/-- Every register of every unit of block 0 takes its reset value; tables, debounce time and configuration do not change. The records of
`Dec.faulted` and `Enc.faulted` go with the registers they are about (log entry 21). -/
def resetUnits (s : State) : State :=
  { s with dec := Dec.reset, dbn := s.dbn.afterReset, enc := Enc.reset, eng := s.eng.afterReset, act := 0 }

end Sys2Proof.Machine
end

