-- ==== Sys2Proof/Machine/Capture.lean ====
section
/-! DEFINITION. The capture agent's actions on an edge buffer (20_memory.md R63, R64, R66, R71, 60_exceptions.md R223). They are the
environment's and no host operations. -/

namespace Sys2Proof.Machine

/-- `MemWrite(i, 4, v)` by the capture agent to buffer `j`: refused inside a borrowed view (20_memory.md R63), a fault where no such entry
exists (20_memory.md R67, log entry 13). A write that is no append is taken wherever it is not refused, whether or not capture is
enabled, and leaves the count: DESIGN CHOICE (log entry 32). -/
def agentWrite (j i : Nat) (v : W32) (s : State) : Host.Outcome State Fault Refusal :=
  if s.cfg.edgeCap ≤ i then .fault (.noSuchEntry i)
  else if inBorrowedView s j i then .refused .borrowedViewWritten
  else .next (setBuffer s j { bufferAt s j with cells := writeEntry (bufferAt s j).cells i v })

/-- The count visible to readers grows by one (20_memory.md R66). -/
def bumpCount (j : Nat) (s : State) : State := setBuffer s j { bufferAt s j with count := (bufferAt s j).count + 1 }

/-- Append a timestamp: the entry is written before the count shows it (20_memory.md R66). A disabled event source appends nothing
(20_memory.md R72) and a full buffer accepts no further edge (60_exceptions.md R223): log entry 12. -/
def agentAppend (j : Nat) (t : W32) (s : State) : Host.Outcome State Fault Refusal :=
  if !(bufferAt s j).capEnabled || decide (s.cfg.edgeCap ≤ (bufferAt s j).count) then .next s
  else andThen (agentWrite j (bufferAt s j).count t s) fun s' => .next (bumpCount j s')

/-- `clear_edge_buffer`: only while capture is disabled and no decoder that is given the buffer is busy (20_memory.md R71). The cleared
buffer holds no entry (log entry 11). -/
def agentClear (j : Nat) (s : State) : Host.Outcome State Fault Refusal :=
  if (bufferAt s j).capEnabled || bufferInUse s j then .refused .bufferClearedUnquiesced
  else .next (setBuffer s j { bufferAt s j with cells := [], count := 0 })

/-- `enable_capture` (20_memory.md R72). -/
def agentEnable (j : Nat) (b : Bool) (s : State) : Host.Outcome State Fault Refusal :=
  .next (setBuffer s j { bufferAt s j with capEnabled := b })

/-- An action of the capture agent on buffer `j`, where that buffer exists. -/
def onBuffer (j : Nat) (f : State → Host.Outcome State Fault Refusal) (s : State) : Host.Outcome State Fault Refusal :=
  if j < s.bufs.length then f s else .refused .noSuchInstance

end Sys2Proof.Machine
end

