-- ==== Sys2Proof/Machine/Operands.lean ====
section
/-! DEFINITION. What a step reads: the delta and the windows (30_encoding.md R86, R88), the bit an encoder sends, the guards, and the
selectors of the four units (R91, R93, R94, R95). -/

namespace Sys2Proof.Machine

/-! ## Windows and delta -/

/-- A window's bounds in microseconds (00_scope.md R7). -/
def microWindow (c : Config) : Window → MicroWindow
  | .ps => c.psUs
  | .pp => c.ppUs
  | .rp => c.rpUs
  | .sil => c.silUs
  | .b0 => c.b0Us
  | .b1 => c.b1Us

/-- `W_X_LO = ceil(X_LO_US · 1000 / TICK_DEC_NS)` (30_encoding.md R86). -/
def windowLo (c : Config) (x : Window) : Nat := ((microWindow c x).loUs * 1000 + (c.tickDecNs - 1)) / c.tickDecNs

/-- `W_X_HI = floor(X_HI_US · 1000 / TICK_DEC_NS)` (30_encoding.md R86). -/
def windowHi (c : Config) (x : Window) : Nat := (microWindow c x).hiUs * 1000 / c.tickDecNs

/-- `inW(d, X)` (00_scope.md R13). -/
def inWindow (c : Config) (x : Window) (d : W32) : Bool :=
  decide (windowLo c x ≤ d.toNat) && decide (d.toNat ≤ windowHi c x)

/-- The delta `d = E[dec.p + 1] -32 E[dec.p]` (42_nec_decoder.md R151). -/
def delta (s : State) : W32 := edgeAt s (s.dec.p + 1) - edgeAt s s.dec.p

/-- `inW(d, X)` of the delta at the cursor: the guard `in_X` (42_nec_decoder.md R152). -/
def inW (s : State) (x : Window) : Bool := inWindow s.cfg x (delta s)

/-! ## The bit sent (43_nec_encoder.md) -/

/-- `bit(k) = enc.shreg[31 - k]`. -/
def codeBit (shreg : W32) (k : Nat) : Bool := shreg.getLsbD (31 - k)

/-- `ONT(b)`. -/
def onT (c : Config) (b : Bool) : W16 := if b then c.b1OnT else c.b0OnT

/-- `OFFT(b)`. -/
def offT (c : Config) (b : Bool) : W16 := if b then c.b1OffT else c.b0OffT

/-! ## Codes of states and phases -/

/-- 30_encoding.md R82. -/
def DecState.code : DecState → Nat
  | .idle => 0
  | .init => 1
  | .ss => 2
  | .sp => 3

/-- 30_encoding.md R82, read the other way. -/
def DecState.ofCode : Nat → DecState
  | 0 => .idle
  | 1 => .init
  | 2 => .ss
  | _ => .sp

/-- 30_encoding.md R81. -/
def DbnState.code : DbnState → Nat
  | .released => 0
  | .pressedWait => 1
  | .pressed => 2
  | .releasedWait => 3

/-- 30_encoding.md R81, read the other way. -/
def DbnState.ofCode : Nat → DbnState
  | 0 => .released
  | 1 => .pressedWait
  | 2 => .pressed
  | _ => .releasedWait

/-- 30_encoding.md R85. -/
def EncState.code : EncState → Nat
  | .ready => 0

/-- 30_encoding.md R85. -/
def EncPhase.code : EncPhase → Nat
  | .idle => 0
  | .proOn => 1
  | .proOff => 2
  | .bitOn => 3
  | .bitOff => 4
  | .epiOn => 5
  | .epiOff => 6
  | .reserved => 7

/-- 30_encoding.md R85, read the other way. -/
def EncPhase.ofCode : Nat → EncPhase
  | 0 => .idle
  | 1 => .proOn
  | 2 => .proOff
  | 3 => .bitOn
  | 4 => .bitOff
  | 5 => .epiOn
  | 6 => .epiOff
  | _ => .reserved

/-! ## Guards and selectors -/

/-- The value of guard `i` of a stand-alone engine: `g[0]` is `TRUE` (30_encoding.md R84). A port the operation gave no value to reads
as 0 (log entry 20). -/
def guardValue (g : List Bool) : Nat → Bool
  | 0 => true
  | i + 1 => g.getD i false

/-- `debounce_elapsed = (now_ms ≥ dbn.next_timeout)` (41_button_debouncer.md R131). -/
def debounceElapsed (s : State) : Bool := decide (s.dbn.nextTimeout ≤ s.inp.nowMs)

/-- The entry the stand-alone engine would fire (40_fsm_engine.md R111). -/
def engFired (s : State) : Option Entry := engineSelect s.eng.table s.eng.state (guardValue s.inp.g)

/-- The number with bit `i` equal to `b` and every other bit 0. -/
def bitAt (b : Bool) (i : Nat) : Nat := if b then 2 ^ i else 0

/-- The `DEC` selector from its fields (30_encoding.md R91). -/
def packDec (run : Bool) (st : DecState) (bz hPS hPP hRP hSIL hB0 hB1 : Bool) : Nat :=
  bitAt run 9 + st.code * 2 ^ 7 + bitAt bz 6 + bitAt hPS 5 + bitAt hPP 4 + bitAt hRP 3 + bitAt hSIL 2 + bitAt hB0 1
    + bitAt hB1 0

/-- 30_encoding.md R91: `hX` is 0 when `run` is 0. -/
def decSelector (s : State) : Nat :=
  packDec (decBusy s) s.dec.state (s.dec.bits == 0#6) (decBusy s && inW s .ps) (decBusy s && inW s .pp)
    (decBusy s && inW s .rp) (decBusy s && inW s .sil) (decBusy s && inW s .b0) (decBusy s && inW s .b1)

/-- The `DBN` selector from its fields (30_encoding.md R93). -/
def packDbn (poll : Bool) (st : DbnState) (lvl el : Bool) : Nat :=
  bitAt poll 4 + st.code * 2 ^ 2 + bitAt lvl 1 + bitAt el 0

/-- 30_encoding.md R93. -/
def dbnSelector (s : State) : Nat := packDbn s.inp.dbnPoll s.dbn.state s.inp.level (debounceElapsed s)

/-- The `ENC` selector from its fields (30_encoding.md R94). -/
def packEnc (busy poll tick : Bool) (ph : EncPhase) (pz ce lb : Bool) : Nat :=
  bitAt busy 8 + bitAt poll 7 + bitAt tick 6 + ph.code * 2 ^ 3 + bitAt pz 2 + bitAt ce 1 + bitAt lb 0

/-- 30_encoding.md R94. -/
def encSelector (s : State) : Nat :=
  packEnc (encBusy s) s.inp.encPoll s.inp.tick s.enc.phase (s.enc.pending != 0#32) (s.enc.cnt == 1#16) (s.enc.k == 31#5)

/-- The `ENG` selector from its fields (30_encoding.md R95). -/
def packEng (poll m : Bool) : Nat := bitAt poll 1 + bitAt m 0

/-- 30_encoding.md R95. -/
def engSelector (s : State) : Nat := packEng s.inp.engPoll (engFired s).isSome

end Sys2Proof.Machine
end

