-- ==== Sys2Proof/Machine/Dbn.lean ====
section
/-! DEFINITION. The button debouncer (41_button_debouncer.md): the meaning of each selector row, the unit's step at a clock edge, and the
transition table of R130 run by the engine of 40_fsm_engine.md. -/

namespace Sys2Proof.Machine

/-! ## The rows (41_button_debouncer.md R133 to R140, R146) -/

/-- `DB_NO_POLL` (R146): no step is taken. -/
def execDbNoPoll (s : State) : Host.Outcome State Fault Refusal := .next s

/-- `DB_PRESS` (R133). -/
def execDbPress (s : State) : Host.Outcome State Fault Refusal :=
  dbnRowStep (s.dbn.state == .released && s.inp.level)
    (fun d => { d with tickPressed := s.inp.nowMs, nextTimeout := s.inp.nowMs + d.debounceTime, state := .pressedWait }) s

/-- `DB_RELEASED_HOLD` (R137): no entry matches. -/
def execDbReleasedHold (s : State) : Host.Outcome State Fault Refusal := .next s

/-- `DB_PW_ELAPSED` (R134). -/
def execDbPwElapsed (s : State) : Host.Outcome State Fault Refusal :=
  dbnRowStep (s.dbn.state == .pressedWait && debounceElapsed s) (fun d => { d with state := .pressed }) s

/-- `DB_PW_HOLD` (R138): no entry matches. -/
def execDbPwHold (s : State) : Host.Outcome State Fault Refusal := .next s

/-- `DB_RELEASE` (R135). -/
def execDbRelease (s : State) : Host.Outcome State Fault Refusal :=
  dbnRowStep (s.dbn.state == .pressed && !s.inp.level)
    (fun d =>
      { d with
        duration := s.inp.nowMs - d.tickPressed
        nextTimeout := s.inp.nowMs + d.debounceTime
        state := .releasedWait }) s

/-- `DB_PRESSED_HOLD` (R139): no entry matches. -/
def execDbPressedHold (s : State) : Host.Outcome State Fault Refusal := .next s

/-- `DB_RW_ELAPSED` (R136). -/
def execDbRwElapsed (s : State) : Host.Outcome State Fault Refusal :=
  dbnRowStep (s.dbn.state == .releasedWait && debounceElapsed s) (fun d => { d with state := .released }) s

/-- `DB_RW_HOLD` (R140): no entry matches. -/
def execDbRwHold (s : State) : Host.Outcome State Fault Refusal := .next s

/-! ## The unit at a clock edge -/

/-- The meaning of a `DBN` row. -/
def runDbnRow : DbnRow → State → Host.Outcome State Fault Refusal
  | .noPoll => execDbNoPoll
  | .press => execDbPress
  | .releasedHold => execDbReleasedHold
  | .pwElapsed => execDbPwElapsed
  | .pwHold => execDbPwHold
  | .release => execDbRelease
  | .pressedHold => execDbPressedHold
  | .rwElapsed => execDbRwElapsed
  | .rwHold => execDbRwHold

/-- At a rising edge `DBN` takes the one row its selector selects (30_encoding.md R93). -/
def dbnEdge (s : State) : Host.Outcome State Fault Refusal :=
  match decodeDbn (dbnSelector s) with
  | some r => runDbnRow r s
  | none => .fault (.unreachable .dbn)

/-- `dbn.duration <- 0` (41_button_debouncer.md R142). -/
def Dbn.clearDuration (d : Dbn) : Dbn := { d with duration := 0#32 }

/-- The `reset_duration` strobe. It takes effect before the step of the same edge, so the step's write wins (41_button_debouncer.md
R144). -/
def dbnConsume (s : State) : State := if s.inp.resetDuration then { s with dbn := s.dbn.clearDuration } else s

/-! ## The transition table (41_button_debouncer.md R130), as the engine runs it -/

/-- The sizes of `DBN`'s engine (30_encoding.md R83). -/
def dbnSizes : EngSizes := ⟨2, 4, 4, 3⟩

/-- 41_button_debouncer.md R130. -/
def dbnTable : List Entry := [⟨0, 1, 1, 1⟩, ⟨1, 3, 2, 0⟩, ⟨2, 2, 3, 2⟩, ⟨3, 3, 0, 0⟩]

/-- The guards of 41_button_debouncer.md R130 and R131, by id. -/
def dbnGuard (s : State) : Nat → Bool
  | 0 => true
  | 1 => s.inp.level
  | 2 => !s.inp.level
  | 3 => debounceElapsed s
  | _ => false

/-- The actions of 41_button_debouncer.md R130, by id: `STORE_PRESS` (R133) and `SET_DURATION` (R135). -/
def dbnAction (now : W32) : Nat → Dbn → Dbn
  | 1 => fun d => { d with tickPressed := now, nextTimeout := now + d.debounceTime }
  | 2 => fun d => { d with duration := now - d.tickPressed, nextTimeout := now + d.debounceTime }
  | _ => id

/-- One engine step of `DBN` as 40_fsm_engine.md R111 runs the table. -/
def dbnEngineStep (s : State) : Dbn :=
  match engineSelect dbnTable s.dbn.state.code (dbnGuard s) with
  | some e => { dbnAction s.inp.nowMs e.action s.dbn with state := DbnState.ofCode e.toState }
  | none => s.dbn

/-- The registers of `DBN` after one rising edge with no `reset_duration`: an engine step where polled (40_fsm_engine.md R117,
R118). -/
def dbnAdvance (s : State) : Dbn := if s.inp.dbnPoll then dbnEngineStep s else s.dbn

end Sys2Proof.Machine
end

