-- ==== Sys2Proof/Machine/Dec.lean ====
section
/-! DEFINITION. The NEC decoder (42_nec_decoder.md): the meaning of each selector row, the unit's step at a clock edge, and the transition
table of R150 run by the engine of 40_fsm_engine.md. -/

namespace Sys2Proof.Machine

/-! ## The rows (42_nec_decoder.md R154 to R165) -/

/-- `DEC_HALT` (R165): not busy, no step. -/
def execDecHalt (s : State) : Host.Outcome State Fault Refusal :=
  match decCheck s with
  | some f => .fault f
  | none => .next s

/-- `DEC_IDLE_PROLOGUE` (R154). -/
def execDecIdlePrologue (s : State) : Host.Outcome State Fault Refusal :=
  decRowStep (s.dec.state == .idle && inW s .ps)
    (fun d => { d with p := idxAdd s.cfg d.p 1, rem := idxSub s.cfg d.rem 1, state := .init }) s

/-- `DEC_IDLE_NOISE` (R155): skip two edges, stay in IDLE. -/
def execDecIdleNoise (s : State) : Host.Outcome State Fault Refusal :=
  decRowStep (s.dec.state == .idle && !inW s .ps)
    (fun d => { d with p := idxAdd s.cfg d.p 2, rem := idxSub s.cfg d.rem 2 }) s

/-- `DEC_INIT_COMMAND` (R156). -/
def execDecInitCommand (s : State) : Host.Outcome State Fault Refusal :=
  decRowStep (s.dec.state == .init && inW s .pp)
    (fun d => { d with bits := 32#6, p := idxAdd s.cfg d.p 1, rem := idxSub s.cfg d.rem 1, state := .ss }) s

/-- `DEC_INIT_REPETITION` (R157). -/
def execDecInitRepetition (s : State) : Host.Outcome State Fault Refusal :=
  decRowStep (s.dec.state == .init && !inW s .pp && inW s .rp)
    (fun d => { d with rep := true, bits := 0#6, p := idxAdd s.cfg d.p 1, rem := idxSub s.cfg d.rem 1, state := .ss }) s

/-- `DEC_INIT_NOISE` (R158). -/
def execDecInitNoise (s : State) : Host.Outcome State Fault Refusal :=
  decRowStep (s.dec.state == .init && !inW s .pp && !inW s .rp)
    (fun d => { d with code := 0#32, bits := 0#6, rep := false, p := idxAdd s.cfg d.p 1, rem := idxSub s.cfg d.rem 1, state := .idle }) s

/-- `DEC_SS_COMPLETE` (R159). -/
def execDecSsComplete (s : State) : Host.Outcome State Fault Refusal :=
  decRowStep (s.dec.state == .ss && s.dec.bits == 0#6)
    (fun d => { d with done := true, rem := 0, state := .idle }) s

/-- `DEC_SS_SILENCE` (R160). -/
def execDecSsSilence (s : State) : Host.Outcome State Fault Refusal :=
  decRowStep (s.dec.state == .ss && s.dec.bits != 0#6 && inW s .sil)
    (fun d => { d with p := idxAdd s.cfg d.p 1, rem := idxSub s.cfg d.rem 1, state := .sp }) s

/-- `DEC_SS_NOISE` (R161): abort without consuming an edge. -/
def execDecSsNoise (s : State) : Host.Outcome State Fault Refusal :=
  decRowStep (s.dec.state == .ss && s.dec.bits != 0#6 && !inW s .sil)
    (fun d => { d with code := 0#32, bits := 0#6, rep := false, state := .idle }) s

/-- `DEC_SP_BIT0` (R162): append a 0. -/
def execDecSpBit0 (s : State) : Host.Outcome State Fault Refusal :=
  decRowStep (s.dec.state == .sp && inW s .b0)
    (fun d => { d with code := d.code <<< 1, bits := d.bits - 1#6, p := idxAdd s.cfg d.p 1, rem := idxSub s.cfg d.rem 1, state := .ss }) s

/-- `DEC_SP_BIT1` (R163): append a 1. -/
def execDecSpBit1 (s : State) : Host.Outcome State Fault Refusal :=
  decRowStep (s.dec.state == .sp && !inW s .b0 && inW s .b1)
    (fun d => { d with code := (d.code <<< 1) ||| 1#32, bits := d.bits - 1#6, p := idxAdd s.cfg d.p 1, rem := idxSub s.cfg d.rem 1, state := .ss }) s

/-- `DEC_SP_NOISE` (R164). -/
def execDecSpNoise (s : State) : Host.Outcome State Fault Refusal :=
  decRowStep (s.dec.state == .sp && !inW s .b0 && !inW s .b1)
    (fun d => { d with code := 0#32, bits := 0#6, rep := false, p := idxAdd s.cfg d.p 1, rem := idxSub s.cfg d.rem 1, state := .idle }) s

/-! ## The unit at a clock edge -/

/-- The meaning of a `DEC` row. -/
def runDecRow : DecRow → State → Host.Outcome State Fault Refusal
  | .halt => execDecHalt
  | .idlePrologue => execDecIdlePrologue
  | .idleNoise => execDecIdleNoise
  | .initCommand => execDecInitCommand
  | .initRepetition => execDecInitRepetition
  | .initNoise => execDecInitNoise
  | .ssComplete => execDecSsComplete
  | .ssSilence => execDecSsSilence
  | .ssNoise => execDecSsNoise
  | .spBit0 => execDecSpBit0
  | .spBit1 => execDecSpBit1
  | .spNoise => execDecSpNoise

/-- The record that the unit was found in an unreachable combination (30_encoding.md R98). -/
def Dec.recordFault (d : Dec) : Dec := { d with faulted := true }

/-- At a rising edge `DEC` takes the one row its selector selects (42_nec_decoder.md R153, 30_encoding.md R91, R92). A unit found in an
unreachable combination takes none, and that is recorded (30_encoding.md R98, log entry 21). -/
def decEdge (s : State) : Host.Outcome State Fault Refusal :=
  if decStuck s.dec then .next { s with dec := s.dec.recordFault }
  else
    match decodeDec (decSelector s) with
    | some r => runDecRow r s
    | none => .fault (.unreachable .dec)

/-- The registers `DEC_PARSE` loads (42_nec_decoder.md R170). -/
def Dec.load (d : Dec) (c : Config) (n : Nat) : Dec := { Dec.reset with rem := toIdx c n, faulted := d.faulted }

/-- The `start` strobe, where it is accepted. -/
def decStart (s : State) : State :=
  if s.inp.start then { s with dec := s.dec.load s.cfg s.inp.countIn } else s

/-! ## The transition table (42_nec_decoder.md R150), as the engine runs it -/

/-- The sizes of `DEC`'s engine (30_encoding.md R83). -/
def decSizes : EngSizes := ⟨2, 11, 8, 10⟩

/-- 42_nec_decoder.md R150. -/
def decTable : List Entry :=
  [⟨0, 1, 1, 1⟩, ⟨0, 0, 0, 2⟩, ⟨1, 2, 2, 3⟩, ⟨1, 3, 2, 4⟩, ⟨1, 0, 0, 5⟩, ⟨2, 4, 0, 6⟩, ⟨2, 5, 3, 1⟩, ⟨2, 0, 0, 7⟩,
   ⟨3, 6, 2, 8⟩, ⟨3, 7, 2, 9⟩, ⟨3, 0, 0, 5⟩]

/-- The guards of 42_nec_decoder.md R150 and R152, by id. -/
def decGuard (s : State) : Nat → Bool
  | 0 => true
  | 1 => inW s .ps
  | 2 => inW s .pp
  | 3 => inW s .rp
  | 4 => s.dec.bits == 0#6
  | 5 => inW s .sil
  | 6 => inW s .b0
  | 7 => inW s .b1
  | _ => false

/-- The actions of 42_nec_decoder.md R150, by id: what each writes apart from `dec.state`, which an action never writes
(40_fsm_engine.md R113). -/
def decAction (c : Config) : Nat → Dec → Dec
  | 1 => fun d => { d with p := idxAdd c d.p 1, rem := idxSub c d.rem 1 }
  | 2 => fun d => { d with p := idxAdd c d.p 2, rem := idxSub c d.rem 2 }
  | 3 => fun d => { d with bits := 32#6, p := idxAdd c d.p 1, rem := idxSub c d.rem 1 }
  | 4 => fun d => { d with rep := true, bits := 0#6, p := idxAdd c d.p 1, rem := idxSub c d.rem 1 }
  | 5 => fun d => { d with code := 0#32, bits := 0#6, rep := false, p := idxAdd c d.p 1, rem := idxSub c d.rem 1 }
  | 6 => fun d => { d with done := true, rem := 0 }
  | 7 => fun d => { d with code := 0#32, bits := 0#6, rep := false }
  | 8 => fun d => { d with code := d.code <<< 1, bits := d.bits - 1#6, p := idxAdd c d.p 1, rem := idxSub c d.rem 1 }
  | 9 => fun d => { d with code := (d.code <<< 1) ||| 1#32, bits := d.bits - 1#6, p := idxAdd c d.p 1, rem := idxSub c d.rem 1 }
  | _ => id

/-- One engine step of `DEC` as 40_fsm_engine.md R111 runs the table: the first entry of the current state whose guard
holds, its action and its new state. -/
def decEngineStep (s : State) : Dec :=
  match engineSelect decTable s.dec.state.code (decGuard s) with
  | some e => { decAction s.cfg e.action s.dec with state := DecState.ofCode e.toState }
  | none => s.dec

/-- The registers of `DEC` after one rising edge with no `start`: an engine step while busy, no change otherwise (42_nec_decoder.md
R153, R165), and the record of 30_encoding.md R98 for a unit that takes no step. -/
def decAdvance (s : State) : Dec :=
  if decStuck s.dec then s.dec.recordFault else if decBusy s then decEngineStep s else s.dec

end Sys2Proof.Machine
end

