-- ==== Sys2Proof/Machine/Enc.lean ====
section
/-! DEFINITION. The NEC encoder (43_nec_encoder.md): the meaning of each selector row, the unit's step at a clock edge, the transition
table of R190 run by the engine of 40_fsm_engine.md, and the length of a frame (R207). -/

namespace Sys2Proof.Machine

/-! ## Engine step outcomes (43_nec_encoder.md R193 to R195) -/

/-- `ENC_NO_POLL` (R195): not busy and not polled. -/
def execEncNoPoll (s : State) : Host.Outcome State Fault Refusal := encRowStep false id s

/-- The `TRANSMIT` action (R193). -/
def Enc.transmit (c : Config) (e : Enc) : Enc :=
  { e with shreg := e.pending, k := 0#5, phase := .proOn, cnt := c.proOnT, irOn := true }

/-- `ENC_SEND` (R193). -/
def execEncSend (s : State) : Host.Outcome State Fault Refusal :=
  encRowStep (!encBusy s && s.inp.encPoll && s.enc.pending != 0#32) (Enc.transmit s.cfg) s

/-- `ENC_NOTHING` (R194): no register changes. -/
def execEncNothing (s : State) : Host.Outcome State Fault Refusal := encRowStep false id s

/-! ## The burst sequencer (43_nec_encoder.md R196 to R204) -/

/-- `ENC_WAIT` (R196): busy, no tick. -/
def execEncWait (s : State) : Host.Outcome State Fault Refusal := encRowStep false id s

/-- `ENC_COUNT` (R197). -/
def execEncCount (s : State) : Host.Outcome State Fault Refusal :=
  encRowStep (encBusy s && s.inp.tick && s.enc.cnt != 1#16) (fun e => { e with cnt := e.cnt - 1#16 }) s

/-- The condition of the rows at the end of a phase: that phase, a tick, and one tick left. -/
def lastTick (s : State) (ph : EncPhase) : Bool := s.enc.phase == ph && s.inp.tick && s.enc.cnt == 1#16

/-- `ENC_PRO_ON_END` (R198). -/
def execEncProOnEnd (s : State) : Host.Outcome State Fault Refusal :=
  encRowStep (lastTick s .proOn) (fun e => { e with phase := .proOff, cnt := s.cfg.proOffT, irOn := false }) s

/-- `ENC_PRO_OFF_END` (R199). -/
def execEncProOffEnd (s : State) : Host.Outcome State Fault Refusal :=
  encRowStep (lastTick s .proOff)
    (fun e => { e with phase := .bitOn, cnt := onT s.cfg (codeBit e.shreg e.k.toNat), irOn := true }) s

/-- `ENC_BIT_ON_END` (R200). -/
def execEncBitOnEnd (s : State) : Host.Outcome State Fault Refusal :=
  encRowStep (lastTick s .bitOn)
    (fun e => { e with phase := .bitOff, cnt := offT s.cfg (codeBit e.shreg e.k.toNat), irOn := false }) s

/-- `ENC_BIT_OFF_NEXT` (R201): `bit(enc.k + 1)` uses the `enc.k` from before the step. -/
def execEncBitOffNext (s : State) : Host.Outcome State Fault Refusal :=
  encRowStep (lastTick s .bitOff && s.enc.k != 31#5)
    (fun e =>
      { e with k := e.k + 1#5, phase := .bitOn, cnt := onT s.cfg (codeBit e.shreg (e.k.toNat + 1)), irOn := true }) s

/-- `ENC_BIT_OFF_LAST` (R202). -/
def execEncBitOffLast (s : State) : Host.Outcome State Fault Refusal :=
  encRowStep (lastTick s .bitOff && s.enc.k == 31#5)
    (fun e => { e with phase := .epiOn, cnt := s.cfg.epiOnT, irOn := true }) s

/-- `ENC_EPI_ON_END` (R203). -/
def execEncEpiOnEnd (s : State) : Host.Outcome State Fault Refusal :=
  encRowStep (lastTick s .epiOn) (fun e => { e with phase := .epiOff, cnt := s.cfg.epiOffT, irOn := false }) s

/-- `ENC_EPI_OFF_END` (R204): the frame is sent, the pending code is cleared. -/
def execEncEpiOffEnd (s : State) : Host.Outcome State Fault Refusal :=
  encRowStep (lastTick s .epiOff) (fun e => { e with phase := .idle, cnt := 0#16, pending := 0#32 }) s

/-! ## The unit at a clock edge -/

/-- The meaning of an `ENC` row. -/
def runEncRow : EncRow → State → Host.Outcome State Fault Refusal
  | .noPoll => execEncNoPoll
  | .send => execEncSend
  | .nothing => execEncNothing
  | .wait => execEncWait
  | .count => execEncCount
  | .proOnEnd => execEncProOnEnd
  | .proOffEnd => execEncProOffEnd
  | .bitOnEnd => execEncBitOnEnd
  | .bitOffNext => execEncBitOffNext
  | .bitOffLast => execEncBitOffLast
  | .epiOnEnd => execEncEpiOnEnd
  | .epiOffEnd => execEncEpiOffEnd

/-- The record that the unit was found in an unreachable combination (30_encoding.md R98). -/
def Enc.recordFault (e : Enc) : Enc := { e with faulted := true }

/-- At a rising edge `ENC` takes the one row its selector selects (30_encoding.md R94). A unit found in an unreachable combination takes
none, and that is recorded (30_encoding.md R98, log entry 21); a selector without a row has phase 0b111, which is one. -/
def encEdge (s : State) : Host.Outcome State Fault Refusal :=
  if encStuck s.enc then .next { s with enc := s.enc.recordFault }
  else
    match decodeEnc (encSelector s) with
    | some r => runEncRow r s
    | none => .fault (.unreachable .enc)

/-- The `set_code` strobe, where it is accepted. The step of the same edge has read the pending code from before it (43_nec_encoder.md
R191, log entry 16). -/
def encLoad (s : State) : State :=
  if s.inp.setCode then { s with enc := { s.enc with pending := s.inp.codeIn } } else s

/-! ## The transition table (43_nec_encoder.md R190), as the engine runs it, and the sequencer -/

/-- The sizes of `ENC`'s engine (30_encoding.md R83). -/
def encSizes : EngSizes := ⟨1, 1, 2, 2⟩

/-- 43_nec_encoder.md R190. -/
def encTable : List Entry := [⟨0, 1, 0, 1⟩]

/-- The guards of 43_nec_encoder.md R190, by id. -/
def encGuard (s : State) : Nat → Bool
  | 0 => true
  | 1 => s.enc.pending != 0#32
  | _ => false

/-- The actions of 43_nec_encoder.md R190, by id. -/
def encAction (c : Config) : Nat → Enc → Enc
  | 1 => Enc.transmit c
  | _ => id

/-- One engine step of `ENC` as 40_fsm_engine.md R111 runs the table; `enc.state` stays `READY`. -/
def encEngineStep (s : State) : Enc :=
  match engineSelect encTable s.enc.state.code (encGuard s) with
  | some e => encAction s.cfg e.action s.enc
  | none => s.enc

/-- What the sequencer does at a burst tick (43_nec_encoder.md R197 to R204): count down, and at the last tick of a phase go to the next
phase with its count and level. -/
def encTickStep (c : Config) (e : Enc) : Enc :=
  if e.cnt != 1#16 then { e with cnt := e.cnt - 1#16 }
  else
    match e.phase with
    | .proOn => { e with phase := .proOff, cnt := c.proOffT, irOn := false }
    | .proOff => { e with phase := .bitOn, cnt := onT c (codeBit e.shreg e.k.toNat), irOn := true }
    | .bitOn => { e with phase := .bitOff, cnt := offT c (codeBit e.shreg e.k.toNat), irOn := false }
    | .bitOff =>
      if e.k == 31#5 then { e with phase := .epiOn, cnt := c.epiOnT, irOn := true }
      else { e with k := e.k + 1#5, phase := .bitOn, cnt := onT c (codeBit e.shreg (e.k.toNat + 1)), irOn := true }
    | .epiOn => { e with phase := .epiOff, cnt := c.epiOffT, irOn := false }
    | .epiOff => { e with phase := .idle, cnt := 0#16, pending := 0#32 }
    | .idle => e
    | .reserved => e

/-- The registers of `ENC` after one rising edge with no `set_code` (43_nec_encoder.md R192): while busy the sequencer steps on a tick and
`poll` is ignored; while not busy the engine steps on a poll and `tick` is ignored; and the record of 30_encoding.md R98 for a
unit that takes no step. -/
def encAdvance (s : State) : Enc :=
  if encStuck s.enc then s.enc.recordFault
  else if encBusy s then (if s.inp.tick then encTickStep s.cfg s.enc else s.enc)
  else if s.inp.encPoll then encEngineStep s
  else s.enc

/-! ## The frame (43_nec_encoder.md R207) -/

/-- How many ticks bits `k`, `k + 1`, … of a code take, `n` of them. -/
def bitTicks (c : Config) (code : W32) : Nat → Nat → Nat
  | 0, _ => 0
  | n + 1, k => (onT c (codeBit code k)).toNat + (offT c (codeBit code k)).toNat + bitTicks c code n (k + 1)

/-- `T(c)` of 43_nec_encoder.md R207. -/
def frameTicks (c : Config) (code : W32) : Nat :=
  c.proOnT.toNat + c.proOffT.toNat + bitTicks c code 32 0 + c.epiOnT.toNat + c.epiOffT.toNat

end Sys2Proof.Machine
end

