-- ==== Sys2Proof/Machine/Eng.lean ====
section
/-! DEFINITION. The stand-alone FSM dispatch engine (40_fsm_engine.md): the meaning of each selector row, the unit's step at a clock
edge, and construction. -/

namespace Sys2Proof.Machine

/-! ## The rows (40_fsm_engine.md R111, R114, R117) -/

/-- `ENG_NO_POLL` (R117): no register changes, and no action strobe is asserted. -/
def execEngNoPoll (s : State) : Host.Outcome State Fault Refusal :=
  .next (if s.inp.engPoll then s else { s with act := 0 })

/-- `ENG_FIRE` (R111): the first entry of the current state whose guard holds fires, with its action strobe. -/
def execEngFire (s : State) : Host.Outcome State Fault Refusal :=
  match s.inp.engPoll, engFired s with
  | true, some e => .next { s with eng := { s.eng with state := e.toState }, act := e.action }
  | _, _ => .next s

/-- `ENG_NO_MATCH` (R114): no register changes, and no action strobe is asserted. -/
def execEngNoMatch (s : State) : Host.Outcome State Fault Refusal :=
  .next (if s.inp.engPoll && (engFired s).isNone then { s with act := 0 } else s)

/-! ## The unit at a clock edge -/

/-- The meaning of an `ENG` row. -/
def runEngRow : EngRow → State → Host.Outcome State Fault Refusal
  | .noPoll => execEngNoPoll
  | .fire => execEngFire
  | .noMatch => execEngNoMatch

/-- At a rising edge `ENG` takes the one row its selector selects (30_encoding.md R95). -/
def engEdge (s : State) : Host.Outcome State Fault Refusal :=
  match decodeEng (engSelector s) with
  | some r => runEngRow r s
  | none => .fault (.unreachable .eng)

/-- The action strobe and the registers of the engine after one rising edge, as 40_fsm_engine.md R111, R114 and R117 give
them. -/
def engAdvance (s : State) : Eng × Nat :=
  if s.inp.engPoll then
    match engFired s with
    | some e => ({ s.eng with state := e.toState }, e.action)
    | none => (s.eng, 0)
  else (s.eng, 0)

/-! ## Construction (40_fsm_engine.md R110) -/

/-- Are the ids of an entry in range? -/
def entryInRange (z : EngSizes) (e : Entry) : Bool := decide (e.guard < z.nGuards) && decide (e.action < z.nActions)

/-- Is `ws` a table of the right length whose words are entry words with ids in range (log entry 24)? -/
def tableOk (z : EngSizes) (ws : List Nat) : Bool :=
  ws.length == z.nEntries && ws.all (fun w => decide (w < 2 ^ z.entryW) && entryInRange z (entryOfWord z w))

/-- `FSM_CONSTRUCT` (R110). It creates a unit and is no clock edge (log entry 4). On a block whose engine is constructed already the new
instance takes the place of the old one, whose life ends there: DESIGN CHOICE (log entry 30). -/
def execFsmConstruct (z : EngSizes) (ws : List Nat) (s0 : Nat) (s : State) : Host.Outcome State Fault Refusal :=
  if tableOk z ws then
    .next { s with eng := { sizes := z, state := s0, init := s0, table := ws.map (entryOfWord z) }, act := 0 }
  else .refused .badTable

end Sys2Proof.Machine
end

