-- ==== Sys2Proof/Machine/Clock.lean ====
section
/-! DEFINITION. One rising edge of `clk` (10_state.md R29, 60_exceptions.md R226), for one block and for all of them. The units read no
register of one another, so running their rows one after another is running them at once (60_exceptions.md R236). -/

namespace Sys2Proof.Machine

/-- The refusal an edge meets: for `start` in the order 42_nec_decoder.md R170 tests them, then `set_code` (43_nec_encoder.md R191, log
entry 28). -/
def edgeRefusal (x : Inputs) (s : State) : Option Refusal :=
  if x.start && decBusy s then some .parseWhileBusy
  else if x.start && decide (s.cfg.edgeCap < x.countIn) then some .countTooLarge
  else if x.setCode && encBusy s then some .setCodeWhileBusy
  else none

/-- The rows of the four units of block 0 at one edge, with the strobes that load a register: `start` after the step of `DEC` (it is accepted only
when no step can occur), `reset_duration` before the step of `DBN`, `set_code` after the step of `ENC` (60_exceptions.md
R226). -/
def unitSteps (s : State) : Host.Outcome State Fault Refusal :=
  andThen (decEdge s) fun s1 =>
  andThen (dbnEdge (dbnConsume (decStart s1))) fun s2 =>
  andThen (encEdge s2) fun s3 =>
  engEdge (encLoad s3)

/-- One rising edge for block 0 with the port values `x`: reset over everything, then refusals, then the units. -/
def blockEdge (x : Inputs) (s : State) : Host.Outcome State Fault Refusal :=
  if x.rst then .next (resetUnits { s with inp := x })
  else
    match edgeRefusal x s with
    | some r => .refused r
    | none => unitSteps { s with inp := x }

/-- The same edge for the blocks `bs`, block `i` with the port values `xs[i]`, and none asserted where the list ends. Instances share no
register, table or input (60_exceptions.md R236): a block reads `s` for the configuration and the edge buffers alone. -/
def peersEdge (s : State) : List Inputs → List Block → Host.Outcome (List Block) Fault Refusal
  | _, [] => .next []
  | xs, b :: bs =>
    andThen (blockEdge (xs.headD Inputs.idle) (s.withBlock b)) fun t =>
    andThen (peersEdge s xs.tail bs) fun bs' => .next (t.block :: bs')

/-- One rising edge for every block: `x` for block 0, `xs` for the others. A refusal or a fault of one block ends the edge for all of them,
that of the block with the lowest number first: DESIGN CHOICE (log entry 31). -/
def clockEdge (x : Inputs) (xs : List Inputs) (s : State) : Host.Outcome State Fault Refusal :=
  andThen (blockEdge x s) fun t =>
  andThen (peersEdge s xs s.peers) fun bs => .next { t with peers := bs }

/-- The edge of a host operation: the strobes of `x` at block 0 alone, and `rst`, which reaches every unit (30_encoding.md R96 "all"), at
every block. -/
def hostEdge (x : Inputs) (s : State) : Host.Outcome State Fault Refusal :=
  clockEdge x (s.peers.map fun _ => { Inputs.idle with rst := x.rst }) s

end Sys2Proof.Machine
end

