-- ==== Sys2Proof/Machine/HostOps.lean ====
section
/-! DEFINITION. The host operations (30_encoding.md R96, R97), on the units of block 0. Those that pulse a strobe are one rising
edge with that strobe, of every block; those that read an output are no edge (log entry 3). -/

namespace Sys2Proof.Machine

/-- The port values of an `FSM_STEP` on a unit: `poll` with the unit's sampled inputs. -/
def pollPorts : PollInputs → Inputs
  | .eng g => { Inputs.idle with engPoll := true, g := g }
  | .dbn now lvl => { Inputs.idle with dbnPoll := true, nowMs := now, level := lvl }
  | .enc => { Inputs.idle with encPoll := true }

/-- `FSM_STEP` (40_fsm_engine.md R111): assert `poll` for one cycle. -/
def execFsmStep (t : PollInputs) (s : State) : Host.Outcome State Fault Refusal := hostEdge (pollPorts t) s

/-- `DB_GET_DURATION` (41_button_debouncer.md R141). -/
def execDbGetDuration (s : State) : Host.Outcome State Fault Refusal := .next { s with reply := .word (durationOut s) }

/-- `DB_RESET_DURATION` (41_button_debouncer.md R142): pulse `reset_duration`. -/
def execDbResetDuration (s : State) : Host.Outcome State Fault Refusal :=
  hostEdge { Inputs.idle with resetDuration := true } s

/-- `DB_IS_ACTIVE` (41_button_debouncer.md R143). -/
def execDbIsActive (s : State) : Host.Outcome State Fault Refusal := .next { s with reply := .flag (isActive s) }

/-- `DEC_PARSE` (42_nec_decoder.md R170): pulse `start` with `count_in = n`. -/
def execDecParse (n : Nat) (s : State) : Host.Outcome State Fault Refusal :=
  hostEdge { Inputs.idle with start := true, countIn := n } s

/-- `DEC_READ_RESULT` (42_nec_decoder.md R175). -/
def execDecReadResult (s : State) : Host.Outcome State Fault Refusal :=
  if decBusy s then .refused .readWhileBusy
  else .next { s with reply := .result (codeOut s) (repOut s) (doneOut s) }

/-- `ENC_SET_CODE` (43_nec_encoder.md R191): pulse `set_code` with `code_in = v`. -/
def execEncSetCode (v : W32) (s : State) : Host.Outcome State Fault Refusal :=
  hostEdge { Inputs.idle with setCode := true, codeIn := v } s

/-- `ENC_IS_BUSY` (43_nec_encoder.md R205). -/
def execEncIsBusy (s : State) : Host.Outcome State Fault Refusal := .next { s with reply := .flag (encBusy s) }

/-- `ENC_TICK` (43_nec_encoder.md R197): one burst-tick strobe. -/
def execEncTick (s : State) : Host.Outcome State Fault Refusal := hostEdge { Inputs.idle with tick := true } s

/-- `CLOCK` (42_nec_decoder.md R153): one rising edge with no strobe asserted. -/
def execClock (s : State) : Host.Outcome State Fault Refusal := hostEdge Inputs.idle s

/-- `RESET` (70_reset_and_hazards.md R250): assert `rst` for one cycle. -/
def execReset (s : State) : Host.Outcome State Fault Refusal := hostEdge { Inputs.idle with rst := true } s

/-- Host-operation code 0x0 is reserved, whatever the operands (30_encoding.md R97). -/
def execReserved0 (_s : State) : Host.Outcome State Fault Refusal := .refused .reservedHostOp

/-- Host-operation code 0xC is reserved, whatever the operands (30_encoding.md R97). -/
def execReservedC (_s : State) : Host.Outcome State Fault Refusal := .refused .reservedHostOp

/-- Host-operation code 0xD is reserved, whatever the operands (30_encoding.md R97). -/
def execReservedD (_s : State) : Host.Outcome State Fault Refusal := .refused .reservedHostOp

/-- Host-operation code 0xE is reserved, whatever the operands (30_encoding.md R97). -/
def execReservedE (_s : State) : Host.Outcome State Fault Refusal := .refused .reservedHostOp

end Sys2Proof.Machine
end

