-- ==== Sys2Proof/Machine/Dispatch.lean ====
section
/-! DEFINITION. One meaning per constructor of `Instr`. -/

namespace Sys2Proof.Machine

def exec (i : Instr) (s : State) : Host.Outcome State Fault Refusal :=
  match i with
  -- DEC selector rows, 42_nec_decoder.md
  | .decHalt => Sys2Proof.Machine.execDecHalt s
  | .decIdlePrologue => Sys2Proof.Machine.execDecIdlePrologue s
  | .decIdleNoise => Sys2Proof.Machine.execDecIdleNoise s
  | .decInitCommand => Sys2Proof.Machine.execDecInitCommand s
  | .decInitRepetition => Sys2Proof.Machine.execDecInitRepetition s
  | .decInitNoise => Sys2Proof.Machine.execDecInitNoise s
  | .decSsComplete => Sys2Proof.Machine.execDecSsComplete s
  | .decSsSilence => Sys2Proof.Machine.execDecSsSilence s
  | .decSsNoise => Sys2Proof.Machine.execDecSsNoise s
  | .decSpBit0 => Sys2Proof.Machine.execDecSpBit0 s
  | .decSpBit1 => Sys2Proof.Machine.execDecSpBit1 s
  | .decSpNoise => Sys2Proof.Machine.execDecSpNoise s
  -- DBN selector rows, 41_button_debouncer.md
  | .dbNoPoll => Sys2Proof.Machine.execDbNoPoll s
  | .dbPress => Sys2Proof.Machine.execDbPress s
  | .dbReleasedHold => Sys2Proof.Machine.execDbReleasedHold s
  | .dbPwElapsed => Sys2Proof.Machine.execDbPwElapsed s
  | .dbPwHold => Sys2Proof.Machine.execDbPwHold s
  | .dbRelease => Sys2Proof.Machine.execDbRelease s
  | .dbPressedHold => Sys2Proof.Machine.execDbPressedHold s
  | .dbRwElapsed => Sys2Proof.Machine.execDbRwElapsed s
  | .dbRwHold => Sys2Proof.Machine.execDbRwHold s
  -- ENC selector rows, 43_nec_encoder.md
  | .encNoPoll => Sys2Proof.Machine.execEncNoPoll s
  | .encSend => Sys2Proof.Machine.execEncSend s
  | .encNothing => Sys2Proof.Machine.execEncNothing s
  | .encWait => Sys2Proof.Machine.execEncWait s
  | .encCount => Sys2Proof.Machine.execEncCount s
  | .encProOnEnd => Sys2Proof.Machine.execEncProOnEnd s
  | .encProOffEnd => Sys2Proof.Machine.execEncProOffEnd s
  | .encBitOnEnd => Sys2Proof.Machine.execEncBitOnEnd s
  | .encBitOffNext => Sys2Proof.Machine.execEncBitOffNext s
  | .encBitOffLast => Sys2Proof.Machine.execEncBitOffLast s
  | .encEpiOnEnd => Sys2Proof.Machine.execEncEpiOnEnd s
  | .encEpiOffEnd => Sys2Proof.Machine.execEncEpiOffEnd s
  -- ENG selector rows, 40_fsm_engine.md
  | .engNoPoll => Sys2Proof.Machine.execEngNoPoll s
  | .engFire => Sys2Proof.Machine.execEngFire s
  | .engNoMatch => Sys2Proof.Machine.execEngNoMatch s
  -- host operations, 30_encoding.md R96
  | .fsmConstruct sizes table initState => Sys2Proof.Machine.execFsmConstruct sizes table initState s
  | .fsmStep inputs => Sys2Proof.Machine.execFsmStep inputs s
  | .dbGetDuration => Sys2Proof.Machine.execDbGetDuration s
  | .dbResetDuration => Sys2Proof.Machine.execDbResetDuration s
  | .dbIsActive => Sys2Proof.Machine.execDbIsActive s
  | .decParse n => Sys2Proof.Machine.execDecParse n s
  | .decReadResult => Sys2Proof.Machine.execDecReadResult s
  | .encSetCode v => Sys2Proof.Machine.execEncSetCode v s
  | .encIsBusy => Sys2Proof.Machine.execEncIsBusy s
  | .encTick => Sys2Proof.Machine.execEncTick s
  | .clock => Sys2Proof.Machine.execClock s
  | .reset => Sys2Proof.Machine.execReset s
  -- reserved host-operation codes, 30_encoding.md R97
  | .reserved0 => Sys2Proof.Machine.execReserved0 s
  | .reservedC => Sys2Proof.Machine.execReservedC s
  | .reservedD => Sys2Proof.Machine.execReservedD s
  | .reservedE => Sys2Proof.Machine.execReservedE s

end Sys2Proof.Machine
end

