-- ==== Sys2Proof/Machine/Event.lean ====
section
/-! DEFINITION. What each event does: a host operation is decoded and run on the block it names, a clock edge is taken with its port
values, an action of the capture agent is applied, a further block is instantiated. -/

namespace Sys2Proof.Machine

/-- A host operation: decode its code and operands, run what they stand for. -/
def runHost (code : Nat) (args : List Nat) (s : State) : Host.Outcome State Fault Refusal :=
  match decode ⟨.hostOp, code, args⟩ with
  | .ok i => exec i s
  | .error e => .refused (.undecodable e)

/-- The state with block `k` and block 0 exchanged: `none` where there is no block `k`. Twice the same exchange gives the state back. -/
def exchange (k : Nat) (s : State) : Option State :=
  match k with
  | 0 => some s
  | k + 1 =>
    match s.peers[k]? with
    | some b => some { s.withBlock b with peers := s.peers.set k s.block }
    | none => none

/-- What `f` does to block 0, done to block `k`. -/
def onBlock (k : Nat) (f : State → Host.Outcome State Fault Refusal) (s : State) : Host.Outcome State Fault Refusal :=
  match exchange k s with
  | none => .refused .noSuchInstance
  | some u =>
    andThen (f u) fun v =>
      match exchange k v with
      | some t => .next t
      | none => .refused .noSuchInstance

/-- A further block: its units in their reset states, its debouncer with its constants, its engine not yet constructed, its decoder given
buffer `j`, a new one where `j` is not in use (60_exceptions.md R236, 70_reset_and_hazards.md R252 step 2, R253, log entry
23). -/
def instantiate (debounceMs : W32) (buttonId : Nat) (j : Nat) (s : State) : State :=
  { s with
    bufs := if j < s.bufs.length then s.bufs else s.bufs ++ [EdgeBuffer.empty]
    peers := s.peers ++
      [{ dec := Dec.reset
         dbn := Dbn.fresh debounceMs buttonId
         enc := Enc.reset
         eng := Eng.unconstructed
         buf := if j < s.bufs.length then j else s.bufs.length
         inp := Inputs.idle
         act := 0 }] }

/-- One event. -/
def runEvent (ev : Event) (s : State) : Host.Outcome State Fault Refusal :=
  match ev with
  | .host k code args => onBlock k (runHost code args) s
  | .cycle xs => clockEdge (xs.headD Inputs.idle) xs.tail s
  | .append j t => onBuffer j (agentAppend j t) s
  | .write j i v => onBuffer j (agentWrite j i v) s
  | .clear j => onBuffer j (agentClear j) s
  | .enableCapture j b => onBuffer j (agentEnable j b) s
  | .instantiate debounceMs buttonId j => .next (instantiate debounceMs buttonId j s)

end Sys2Proof.Machine
end

