-- ==== Sys2Proof/Machine/Place.lean ====
section
/-! DEFINITION. Placing a word of the opcode table so that the very next step runs it (log entry 7). A host operation is put at the head of
the inbox. A selector word is not given to the block from outside: it is what a unit computes from its registers and inputs, so those are
set to what the word says and a clock edge is put at the head of the inbox. -/

namespace Sys2Proof.Machine

/-- The middle of a window, in decoder ticks. -/
def windowMid (c : Config) (x : Window) : W32 := BitVec.ofNat 32 ((windowLo c x + windowHi c x) / 2)

/-- A delta whose window hits are those a `DEC` selector word says. -/
def placedDelta (c : Config) (w : Nat) : W32 :=
  if w.testBit 5 then windowMid c .ps
  else if w.testBit 4 then windowMid c .pp
  else if w.testBit 3 then windowMid c .rp
  else if w.testBit 1 then windowMid c .b0
  else if w.testBit 2 then windowMid c .sil
  else if w.testBit 0 then windowMid c .b1
  else 0#32

/-- Set `DEC` so that its selector (30_encoding.md R91) is `w`, and the next event to a clock edge. -/
def placeDec (w : Nat) (s : State) : State :=
  { s with
    dec :=
      { s.dec with
        state := DecState.ofCode (bitField w 7 2)
        p := 0
        rem := if w.testBit 9 then 2 else 0
        bits := if w.testBit 6 then 0#6 else 1#6
        code := 0#32
        done := false
        faulted := false }
    bufs :=
      s.bufs.set s.buf { s.edge with cells := writeEntry (writeEntry s.edge.cells 0 0#32) 1 (placedDelta s.cfg w) }
    inbox := .cycle [] :: s.inbox }

/-- Set `DBN` so that its selector (30_encoding.md R93) is `w` at the next event, a clock edge. -/
def placeDbn (w : Nat) (s : State) : State :=
  { s with
    dbn :=
      { s.dbn with
        state := DbnState.ofCode (bitField w 2 2)
        nextTimeout := if w.testBit 0 then 0#32 else 1#32 }
    inbox := .cycle [{ Inputs.idle with dbnPoll := w.testBit 4, level := w.testBit 1 }] :: s.inbox }

/-- Set `ENC` so that its selector (30_encoding.md R94) is `w` at the next event, a clock edge. A busy word whose phase bits are 0 (its row
tests no phase) is placed in `PRO_ON`. -/
def placeEnc (w : Nat) (s : State) : State :=
  { s with
    enc :=
      { s.enc with
        phase :=
          if w.testBit 8 then (if bitField w 3 3 = 0 then .proOn else EncPhase.ofCode (bitField w 3 3)) else .idle
        pending := if w.testBit 2 then 1#32 else 0#32
        cnt := if w.testBit 1 then 1#16 else 2#16
        k := if w.testBit 0 then 31#5 else 0#5
        faulted := false }
    inbox := .cycle [{ Inputs.idle with encPoll := w.testBit 7, tick := w.testBit 6 }] :: s.inbox }

/-- Set `ENG` so that its selector (30_encoding.md R95) is `w` at the next event, a clock edge: an engine whose table has an entry that
fires, or none. -/
def placeEng (w : Nat) (s : State) : State :=
  { s with
    eng :=
      { sizes := ⟨1, if w.testBit 0 then 1 else 0, 1, 1⟩
        state := 0
        init := 0
        table := if w.testBit 0 then [⟨0, 0, 0, 0⟩] else [] }
    inbox := .cycle [{ Inputs.idle with engPoll := w.testBit 1 }] :: s.inbox }

/-- Place a word so that the next step runs it. -/
def placeWord (nbits w : Nat) (s : State) : State :=
  match spaceOfWord nbits w with
  | .decSelector => placeDec w s
  | .dbnSelector => placeDbn w s
  | .encSelector => placeEnc w s
  | .engSelector => placeEng w s
  | .hostOp => { s with inbox := .host 0 w (zeroArgs .hostOp w) :: s.inbox }

end Sys2Proof.Machine
end

