-- ==== Sys2Proof/Machine/Step.lean ====
section
/-! DEFINITION. One step of the machine. -/

namespace Sys2Proof.Machine

/-- The next event of the inbox; with nothing in it, the clock runs on: one rising edge with no strobe asserted (log entry
2). -/
def step (s : State) : Host.Outcome State Fault Refusal :=
  match s.inbox with
  | [] => exec .clock s
  | ev :: rest => runEvent ev { s with inbox := rest }

/-- `s` with a word of the opcode table placed so that the next step runs it. -/
def State.withFetchWord (s : State) (nbits w : Nat) : State := placeWord nbits w s

end Sys2Proof.Machine
end

