-- ==== Sys2Proof/Machine/Pseudo.lean ====
section
/-! DEFINITION. The pseudo-operations of 30_encoding.md R101 and R103, by their expansions. -/

namespace Sys2Proof.Machine

/-- `k` times the same instruction. -/
def execTimes (i : Instr) : Nat → State → Host.Outcome State Fault Refusal
  | 0, s => .next s
  | k + 1, s => andThen (exec i s) (execTimes i k)

/-- `CLOCK*`: repeat `CLOCK` until `DEC` is not busy, at most `k` times (R101). -/
def clockStar : Nat → State → Host.Outcome State Fault Refusal
  | 0, s => .next s
  | k + 1, s => if decBusy s then andThen (exec .clock s) (clockStar k) else .next s

/-- `ENC_TICK*`: repeat `ENC_TICK` until `ENC` is not busy, at most `k` times (R101). -/
def tickStar : Nat → State → Host.Outcome State Fault Refusal
  | 0, s => .next s
  | k + 1, s => if encBusy s then andThen (exec .encTick s) (tickStar k) else .next s

/-- `DECODE n` (R103). A parse of `n` edges ends within `2n` steps (42_nec_decoder.md R171). -/
def pseudoDecode (n : Nat) (s : State) : Host.Outcome State Fault Refusal :=
  andThen (exec (.decParse n) s) fun s1 =>
  andThen (clockStar (2 * n) s1) fun s2 =>
  exec .decReadResult s2

/-- `SEND v` (R103). A frame takes `T(v)` ticks (43_nec_encoder.md R207). -/
def pseudoSend (v : W32) (s : State) : Host.Outcome State Fault Refusal :=
  andThen (exec (.encSetCode v) s) fun s1 =>
  andThen (exec (.fsmStep .enc) s1) fun s2 =>
  tickStar (frameTicks s.cfg v) s2

end Sys2Proof.Machine
end

