-- ==== Sys2Proof/Safety.lean ====
section
/-! DEFINITION. What holds of every state a run reaches: the invariants of 42_nec_decoder.md R166 to R169, 43_nec_encoder.md R206 and
the forms of the tables and the edge buffer. -/

namespace Sys2Proof.Machine

/-- The decoder's invariants, for an edge buffer of `cap` entries. -/
structure DecInv (cap : Nat) (d : Dec) : Prop where
  /-- no unreachable combination has been found (30_encoding.md R98) -/
  running : d.faulted = false
  /-- R166, with the count bounded by `EDGE_CAP` (R170) -/
  view : d.p + d.rem ≤ cap
  /-- the width of the registers, `IDX_W` (10_state.md R24) -/
  fits : d.p < 2 ^ clog2 (cap + 1) ∧ d.rem < 2 ^ clog2 (cap + 1)
  /-- R169 -/
  bitsLe : d.bits.toNat ≤ 32
  /-- R167 -/
  evenAtFalling : d.state = .idle ∨ d.state = .ss → d.p % 2 = 0
  /-- R167 -/
  oddAtRising : d.state = .init ∨ d.state = .sp → d.p % 2 = 1
  /-- R168 -/
  clean : d.done = false → d.state = .idle ∨ d.state = .init → d.code = 0#32 ∧ d.bits = 0#6 ∧ d.rep = false
  /-- R169 -/
  pulse : d.state = .sp → d.bits ≠ 0#6 ∧ d.rep = false
  /-- R169 -/
  repetition : d.state = .ss → d.rep = true → d.bits = 0#6
  /-- R169 -/
  codeFits : d.state = .ss ∨ d.state = .sp → d.code.toNat < 2 ^ (32 - d.bits.toNat)
  /-- R159: completion ends the parse in IDLE -/
  completed : d.done = true → d.rem = 0 ∧ d.state = .idle

/-- The count loaded on entry to a phase (43_nec_encoder.md R193, R198 to R203). -/
def loadedCount (c : Config) (e : Enc) : W16 :=
  match e.phase with
  | .proOn => c.proOnT
  | .proOff => c.proOffT
  | .bitOn => onT c (codeBit e.shreg e.k.toNat)
  | .bitOff => offT c (codeBit e.shreg e.k.toNat)
  | .epiOn => c.epiOnT
  | .epiOff => c.epiOffT
  | .idle => 0#16
  | .reserved => 0#16

/-- Is the carrier on in this phase (30_encoding.md R85)? -/
def phaseOn : EncPhase → Bool
  | .proOn => true
  | .bitOn => true
  | .epiOn => true
  | .idle => false
  | .proOff => false
  | .bitOff => false
  | .epiOff => false
  | .reserved => false

/-- The encoder's invariants (43_nec_encoder.md R206). -/
structure EncInv (c : Config) (e : Enc) : Prop where
  /-- no unreachable combination has been found (30_encoding.md R98) -/
  running : e.faulted = false
  phaseLegal : e.phase ≠ .reserved
  counting : e.phase ≠ .idle → 1 ≤ e.cnt.toNat ∧ e.cnt.toNat ≤ (loadedCount c e).toNat
  sending : e.phase ≠ .idle → e.shreg ≠ 0#32
  resting : e.phase = .idle → e.cnt = 0#16 ∧ e.irOn = false
  envelope : e.irOn = phaseOn e.phase

/-- The clause of 43_nec_encoder.md R206 that a clock edge with `poll` and `set_code` at once does not keep (log entry 16). -/
def sendsPending (e : Enc) : Prop := e.phase ≠ .idle → e.shreg = e.pending

/-- An engine holds a table its sizes allow, in a state its width allows (30_encoding.md R83, 40_fsm_engine.md R110). -/
structure EngInv (e : Eng) : Prop where
  sizesLegal : e.sizes.wf = true
  tableLength : e.table.length = e.sizes.nEntries
  idsInRange : ∀ x ∈ e.table, x.guard < e.sizes.nGuards ∧ x.action < e.sizes.nActions
  tagsInRange : ∀ x ∈ e.table, x.fromState < 2 ^ e.sizes.stateW ∧ x.toState < 2 ^ e.sizes.stateW
  stateInRange : e.state < 2 ^ e.sizes.stateW
  initInRange : e.init < 2 ^ e.sizes.stateW

/-- The edge buffer is in its canonical form and inside its index range (20_memory.md R60, R69). -/
structure EdgeInv (cap : Nat) (b : EdgeBuffer) : Prop where
  canonical : wfCells b.cells = true
  inRange : ∀ x ∈ b.cells, x.1 < cap
  countLe : b.count ≤ cap

/-- The invariants of one block. The debouncer has none of its own. -/
structure BlockInv (c : Config) (b : Block) : Prop where
  decoder : DecInv c.edgeCap b.dec
  encoder : EncInv c b.enc
  engine : EngInv b.eng

/-- The invariant of the machine. -/
structure State.Inv (s : State) : Prop where
  config : s.cfg.wf = true
  block : BlockInv s.cfg s.block
  others : ∀ b ∈ s.peers, BlockInv s.cfg b
  /-- the edge buffer each decoder is given exists -/
  given : ∀ b ∈ s.blocks, b.buf < s.bufs.length
  buffers : ∀ e ∈ s.bufs, EdgeInv s.cfg.edgeCap e

/-! ## When a clock edge completes, and what it leaves -/

/-- Both checked units of block 0 take their rows, and no decoder of another block stops the edge. Every state with the invariant has
it. -/
abbrev unitsOk (s : State) : Prop :=
  decCheck s = none ∧ encCheck s = none ∧ ∀ b ∈ s.peers, decOut (s.withBlock b) = false

/-- An edge with the port values `x` completes for block 0: it is a reset, or no strobe is refused and the decoder's next entry, if it
reads one, exists. -/
abbrev edgeRuns (x : Inputs) (s : State) : Prop := x.rst = true ∨ edgeRefusal x s = none ∧ decOut s = false

/-- An edge with the port values `xs` completes for every other block. -/
abbrev peersRun (xs : List Inputs) (s : State) : Prop :=
  ∀ (k : Nat) (b : Block), s.peers[k]? = some b → edgeRuns (xs[k]?.getD Inputs.idle) (s.withBlock b)

/-- What an edge with the port values `x` that completes leaves of block 0: each unit's registers as its ordered transition table gives
them (40_fsm_engine.md R111), with the strobes that load a register. -/
def blockNext (x : Inputs) (s : State) : State :=
  if x.rst then resetUnits { s with inp := x }
  else
    { s with
      inp := x
      dec := if x.start then (decAdvance s).load s.cfg x.countIn else decAdvance s
      dbn := dbnAdvance (dbnConsume { s with inp := x })
      enc :=
        if x.setCode then { encAdvance { s with inp := x } with pending := x.codeIn }
        else encAdvance { s with inp := x }
      eng := (engAdvance { s with inp := x }).1
      act := (engAdvance { s with inp := x }).2 }

/-- What such an edge leaves of the other blocks. -/
def peersNext (xs : List Inputs) (s : State) : List Block :=
  s.peers.mapIdx fun k b => (blockNext (xs[k]?.getD Inputs.idle) (s.withBlock b)).block

/-- What an edge with no strobe asserted leaves of the other blocks: a busy decoder steps, and nothing else does. -/
def peersTick (s : State) : List Block :=
  s.peers.map fun b =>
    { b with
      inp := Inputs.idle
      dec := decAdvance (s.withBlock b)
      enc := if encStuck b.enc then b.enc.recordFault else b.enc
      act := 0 }

/-- Is the instruction a clock edge (log entry 3)? -/
def pulses : Instr → Bool
  | .fsmStep _ | .dbResetDuration | .decParse _ | .encSetCode _ | .encTick | .clock | .reset => true
  | _ => false

/-- The registers of block `b'` are what reset leaves of those of block `b` (70_reset_and_hazards.md R250, 10_state.md R38 to R41). The
records of 30_encoding.md R98 are no registers of the spec, and are left open here. -/
structure BlockAfterReset (b b' : Block) : Prop where
  dec : b'.dec =
    { state := .idle, p := 0, rem := 0, bits := 0#6, code := 0#32, rep := false, done := false,
      faulted := b'.dec.faulted }
  dbn : b'.dbn = { b.dbn with state := .released, nextTimeout := 0#32, tickPressed := 0#32, duration := 0#32 }
  enc : b'.enc =
    { state := .ready, pending := 0#32, phase := .idle, shreg := 0#32, k := 0#5, cnt := 0#16, irOn := false,
      faulted := b'.enc.faulted }
  eng : b'.eng = { b.eng with state := b.eng.init }

/-! ## Terms the claims use -/

/-- Polls of the debouncer one after another, with the time and the level each sees. -/
def execPolls : List (W32 × Bool) → State → Host.Outcome State Fault Refusal
  | [], s => .next s
  | (now, lvl) :: ps, s => andThen (exec (.fsmStep (.dbn now lvl)) s) (execPolls ps)

/-- The unit a poll is for. -/
def polledUnit : PollInputs → UnitTag
  | .eng _ => .eng
  | .dbn _ _ => .dbn
  | .enc => .enc

/-- A parse of `n` edges started in `s` ends after exactly `k` decoder steps, in `u` (42_nec_decoder.md R171, R178). -/
def parseEndsAfter (s : State) (n k : Nat) (u : State) : Prop :=
  ∃ t, exec (.decParse n) s = .next t ∧ execTimes .clock k t = .next u ∧ decBusy u = false ∧
    ∀ j, j < k → ∃ v, execTimes .clock j t = .next v ∧ decBusy v = true

/-- The delta between edge `j` and the next one (42_nec_decoder.md R178). -/
def deltaAt (s : State) (j : Nat) : W32 := edgeAt s (j + 1) - edgeAt s j

/-- The first 68 edges of the buffer are a command frame for `c` (42_nec_decoder.md R178). -/
structure CommandFrame (s : State) (c : W32) : Prop where
  prologueSilence : inWindow s.cfg .ps (deltaAt s 0) = true
  prologuePulse : inWindow s.cfg .pp (deltaAt s 1) = true
  silence : ∀ k, k < 32 → inWindow s.cfg .sil (deltaAt s (2 + 2 * k)) = true
  pulse : ∀ k, k < 32 →
    inWindow s.cfg (if codeBit c k then .b1 else .b0) (deltaAt s (3 + 2 * k)) = true

/-- The window that classifies delta `j` of a command frame for `c`, `j` below 66 (42_nec_decoder.md R178). -/
def frameWindow (c : W32) (j : Nat) : Window :=
  if j = 0 then .ps
  else if j = 1 then .pp
  else if j % 2 = 0 then .sil
  else if codeBit c ((j - 3) / 2) then .b1
  else .b0

/-- The two windows tested in one state do not overlap (30_encoding.md R87). -/
def windowsDisjoint (c : Config) : Prop :=
  ∀ d : W32, ¬ (inWindow c .pp d = true ∧ inWindow c .rp d = true) ∧ ¬ (inWindow c .b0 d = true ∧ inWindow c .b1 d = true)

/-- The segments of a frame's bits `k`, `k + 1`, … , `n` of them: level and ticks (43_nec_encoder.md R207). -/
def bitSegments (c : Config) (code : W32) : Nat → Nat → List (Bool × Nat)
  | 0, _ => []
  | n + 1, k =>
    (true, (onT c (codeBit code k)).toNat) :: (false, (offT c (codeBit code k)).toNat) :: bitSegments c code n (k + 1)

/-- The 68 segments of a frame's envelope (43_nec_encoder.md R207). -/
def frameSegments (c : Config) (code : W32) : List (Bool × Nat) :=
  [(true, c.proOnT.toNat), (false, c.proOffT.toNat)] ++ bitSegments c code 32 0
    ++ [(true, c.epiOnT.toNat), (false, c.epiOffT.toNat)]

/-- The level of a list of segments `k` ticks after its start; off after its end. -/
def levelAt : List (Bool × Nat) → Nat → Bool
  | [], _ => false
  | (b, n) :: l, k => if k < n then b else levelAt l (k - n)

/-- The ticks of segment `j` of a frame. -/
def segmentTicks (c : Config) (code : W32) (j : Nat) : Nat := ((frameSegments c code)[j]?.map (fun x => x.2)).getD 0

/-- The first 68 edges of the buffer are a capture of the frame of `code`: each interval in decoder ticks is no further than half a decoder tick
from the true length of its segment (43_nec_encoder.md R210). -/
def captures (s : State) (code : W32) : Prop :=
  ∀ j, j < 67 →
    2 * ((deltaAt s j).toNat * s.cfg.tickDecNs) ≤ 2 * (segmentTicks s.cfg code j * s.cfg.tickEncNs) + s.cfg.tickDecNs ∧
    2 * (segmentTicks s.cfg code j * s.cfg.tickEncNs) ≤ 2 * ((deltaAt s j).toNat * s.cfg.tickDecNs) + s.cfg.tickDecNs

end Sys2Proof.Machine
end

