-- ==== Sys2Proof/Certificates/Slice0/Obligations.lean ====
section
/-! DEFINITION. The statements for the provers. -/

open Sys2Proof Sys2Proof.Machine

/-! ## Encodings -/

/-- Decoding the word of a well-formed instruction gives the instruction back, with every operand. The operand layout of a host operation is
the model's (log entry 8). -/
def Obligations.DecodeOfEncodeIsTheInstruction : Prop :=
  ∀ i : Instr, i.wf = true → decode (encode i) = .ok i

/-- The other direction for host operations: what decodes is well formed, and its word is the one it was decoded from. A reserved code is reserved
whatever operands come with it; its word has none (log entry 8). -/
def Obligations.HostWordIsItsInstructionsWord : Prop :=
  ∀ (code : Nat) (args : List Nat) (i : Instr), decode ⟨.hostOp, code, args⟩ = .ok i →
    i.wf = true ∧
    encode i = ⟨.hostOp, code, if code = 0x0 ∨ code = 0xC ∨ code = 0xD ∨ code = 0xE then [] else args⟩

/-- No selector matches two rows of a unit's selector table. -/
def Obligations.SelectorRowsExcludeEachOther : Prop :=
  ∀ w : Nat,
    (∀ r ∈ decRows, ∀ r' ∈ decRows, r.hits w = true → r'.hits w = true → r = r') ∧
    (∀ r ∈ dbnRows, ∀ r' ∈ dbnRows, r.hits w = true → r'.hits w = true → r = r') ∧
    (∀ r ∈ encRows, ∀ r' ∈ encRows, r.hits w = true → r'.hits w = true → r = r') ∧
    (∀ r ∈ engRows, ∀ r' ∈ engRows, r.hits w = true → r'.hits w = true → r = r')

/-- Every selector a unit can compute has a row; `ENC`'s for every phase but the reserved code. -/
def Obligations.EveryComputedSelectorHasARow : Prop :=
  ∀ s : State,
    (∃ r, decodeDec (decSelector s) = some r) ∧ (∃ r, decodeDbn (dbnSelector s) = some r) ∧
    (∃ r, decodeEng (engSelector s) = some r) ∧
    (s.enc.phase ≠ .reserved → ∃ r, decodeEnc (encSelector s) = some r)

/-- Words of 30_encoding.md R92 to R97, bit by bit, and the instructions they stand for; and the transition-table words of 95_test_vectors.md
section 2.1 are the model's tables, by the layout of R83. -/
def Obligations.WordsOfTheTableDecode : Prop :=
  decode ⟨.decSelector, 0b1010000000, []⟩ = .ok .decInitNoise ∧
  decode ⟨.decSelector, 0b1110000010, []⟩ = .ok .decSpBit0 ∧
  decode ⟨.dbnSelector, 0b11000, []⟩ = .ok .dbRelease ∧
  decode ⟨.encSelector, 0b101100011, []⟩ = .ok .encBitOffLast ∧
  decode ⟨.engSelector, 0b11, []⟩ = .ok .engFire ∧
  decode ⟨.hostOp, 0b1010, []⟩ = .ok .encTick ∧
  decode ⟨.hostOp, 0b1111, []⟩ = .ok .reset ∧
  [0x051, 0x002, 0x2A3, 0x2E4, 0x205, 0x506, 0x571, 0x407, 0x7A8, 0x7E9, 0x605].map (entryOfWord decSizes) = decTable ∧
  [0x15, 0x78, 0xAE, 0xF0].map (entryOfWord dbnSizes) = dbnTable ∧
  [0x5].map (entryOfWord encSizes) = encTable

/-- An entry whose fields fit goes into a word of the table's width and comes back from it. -/
def Obligations.TableEntryWordRoundTrip : Prop :=
  ∀ (z : EngSizes) (e : Entry),
    e.fromState < 2 ^ z.stateW → e.guard < 2 ^ z.gw → e.toState < 2 ^ z.stateW → e.action < 2 ^ z.aw →
    wordOfEntry z e < 2 ^ z.entryW ∧ entryOfWord z (wordOfEntry z e) = e

/-! ## Steps and clock edges -/

/-- A step runs the next event of the inbox on the state whose inbox has moved on: a host operation on block 0 is `exec` of the instruction it decodes
to; one on another block is `exec` of it with that block's units in the place of block 0's, and back; one that does not decode, or names no
block, is refused under its own reason; a clock edge is an edge of every block; every other event is `runEvent`'s. With an empty inbox the
clock runs on (log entries 2, 8 and 23). -/
def Obligations.StepRunsTheDecodedOperation : Prop :=
  ∀ s : State,
    (s.inbox = [] → step s = exec .clock s) ∧
    (∀ (ev : Event) (rest : List Event), s.inbox = ev :: rest → step s = runEvent ev { s with inbox := rest }) ∧
    (∀ (code : Nat) (args : List Nat) (rest : List Event), s.inbox = .host 0 code args :: rest →
      (∀ i, decode ⟨.hostOp, code, args⟩ = .ok i → step s = exec i { s with inbox := rest }) ∧
      (∀ e, decode ⟨.hostOp, code, args⟩ = .error e → step s = .refused (.undecodable e))) ∧
    (∀ (k code : Nat) (args : List Nat) (rest : List Event) (b : Block) (i : Instr),
      s.inbox = .host (k + 1) code args :: rest → s.peers[k]? = some b → decode ⟨.hostOp, code, args⟩ = .ok i →
      ∀ u, u = { State.withBlock { s with inbox := rest } b with peers := s.peers.set k s.block } →
      (∀ t, exec i u = .next t →
        ∃ c, t.peers[k]? = some c ∧ step s = .next { t.withBlock c with peers := t.peers.set k t.block }) ∧
      (∀ f, exec i u = .fault f → step s = .fault f) ∧
      (∀ r, exec i u = .refused r → step s = .refused r)) ∧
    (∀ (k code : Nat) (args : List Nat) (rest : List Event),
      s.inbox = .host k code args :: rest → s.peers.length < k → step s = .refused .noSuchInstance) ∧
    (∀ (xs : List Inputs) (rest : List Event), s.inbox = .cycle xs :: rest →
      step s = clockEdge (xs.headD Inputs.idle) xs.tail { s with inbox := rest })

/-- At a clock edge each unit's registers are those the row its selector selects leaves, run on the port values of the edge, with the strobes
that load a register: `start` and `set_code` after the unit's row, `reset_duration` before it. Nothing else of the block changes but the port
values and the engine's action strobe (60_exceptions.md R226; the strobe as a field is log entry 17). A unit that takes no row is the
statement `UnreachableCombinationsFault`'s, the other blocks are `ClockEdgeRefinesTheTransitionTables`'s. -/
def Obligations.ClockEdgeRunsTheSelectedRows : Prop :=
  ∀ (x : Inputs) (xs : List Inputs) (s t : State), x.rst = false → decStuck s.dec = false → encStuck s.enc = false →
    clockEdge x xs s = .next t →
    ∃ (rd : DecRow) (rb : DbnRow) (re : EncRow) (rg : EngRow) (ud ub ue ug : State),
      decodeDec (decSelector { s with inp := x }) = some rd ∧ exec rd.instr { s with inp := x } = .next ud ∧
      decodeDbn (dbnSelector { s with inp := x }) = some rb ∧ exec rb.instr (dbnConsume { s with inp := x }) = .next ub ∧
      decodeEnc (encSelector { s with inp := x }) = some re ∧ exec re.instr { s with inp := x } = .next ue ∧
      decodeEng (engSelector { s with inp := x }) = some rg ∧ exec rg.instr { s with inp := x } = .next ug ∧
      t = { s with
        inp := x
        dec := if x.start then ud.dec.load s.cfg x.countIn else ud.dec
        dbn := ub.dbn
        enc := if x.setCode then { ue.enc with pending := x.codeIn } else ue.enc
        eng := ug.eng
        act := ug.act
        peers := t.peers }

/-- A clock edge that no strobe of is refused completes, and each unit's registers are those its ordered transition table gives by the engine's
dispatch (40_fsm_engine.md R111, on the tables of 42_nec_decoder.md R150, 41_button_debouncer.md R130 and 43_nec_encoder.md R190) and the
sequencer's step, with the loads of `start` and `set_code` after it and of `reset_duration` before it: the selector rows refine the tables.
The same holds of every other block with its own port values. A `set_code` with a poll that sends loads the new code all the same (log
entry 16). -/
def Obligations.ClockEdgeRefinesTheTransitionTables : Prop :=
  ∀ (x : Inputs) (xs : List Inputs) (s : State), x.rst = false → edgeRefusal x s = none → decOut s = false → peersRun xs s →
    clockEdge x xs s = .next
      { s with
        inp := x
        dec :=
          if x.start then (decAdvance { s with inp := x }).load s.cfg x.countIn else decAdvance { s with inp := x }
        dbn := dbnAdvance (dbnConsume { s with inp := x })
        enc :=
          if x.setCode then { encAdvance { s with inp := x } with pending := x.codeIn }
          else encAdvance { s with inp := x }
        eng := (engAdvance { s with inp := x }).1
        act := (engAdvance { s with inp := x }).2
        peers := peersNext xs s }

/-! ## Reset -/

/-- `RESET` gives every register of every unit of every block its reset value and is never refused; so does an edge with `rst` = 1 at a block, whatever
that block's other inputs are. Tables, debounce times and the configuration do not change. -/
def Obligations.ResetGivesEveryRegisterItsValue : Prop :=
  ∀ s : State,
    (∃ t, exec .reset s = .next t ∧ t.cfg = s.cfg ∧ BlockAfterReset s.block t.block ∧ t.peers.length = s.peers.length ∧
      ∀ (k : Nat) (b : Block), s.peers[k]? = some b → ∃ b', t.peers[k]? = some b' ∧ BlockAfterReset b b') ∧
    (∀ (x : Inputs) (xs : List Inputs), x.rst = true → peersRun xs s →
      ∃ t, clockEdge x xs s = .next t ∧ t.cfg = s.cfg ∧ BlockAfterReset s.block t.block) ∧
    (∀ (x : Inputs) (xs : List Inputs) (t : State) (k : Nat) (b : Block), clockEdge x xs s = .next t →
      s.peers[k]? = some b → (xs[k]?.getD Inputs.idle).rst = true →
      ∃ b', t.peers[k]? = some b' ∧ BlockAfterReset b b')

/-- The state right after reset holds the reset values of the units; and so does a further block right after it was instantiated, which changes no
other block and no edge buffer. -/
def Obligations.TheResetStateHoldsTheResetValues : Prop :=
  (State.reset.dec.state = .idle ∧ State.reset.dec.rem = 0 ∧ State.reset.dec.p = 0 ∧ State.reset.dec.bits = 0#6 ∧
    State.reset.dec.code = 0#32 ∧ State.reset.dec.rep = false ∧ State.reset.dec.done = false ∧
    State.reset.dbn.state = .released ∧ State.reset.dbn.nextTimeout = 0#32 ∧ State.reset.dbn.tickPressed = 0#32 ∧
    State.reset.dbn.duration = 0#32 ∧
    State.reset.enc.pending = 0#32 ∧ State.reset.enc.phase = .idle ∧ State.reset.enc.shreg = 0#32 ∧
    State.reset.enc.k = 0#5 ∧ State.reset.enc.cnt = 0#16 ∧ State.reset.enc.irOn = false ∧
    State.reset.eng.state = State.reset.eng.init) ∧
  ∀ (s : State) (debounceMs : W32) (buttonId j : Nat),
    ∃ t b, runEvent (.instantiate debounceMs buttonId j) s = .next t ∧ t.block = s.block ∧ t.peers = s.peers ++ [b] ∧
      b.dec = State.reset.dec ∧ b.enc = State.reset.enc ∧
      b.dbn = { State.reset.dbn with debounceTime := debounceMs, buttonId := buttonId } ∧ b.eng.state = b.eng.init ∧
      b.buf < t.bufs.length ∧ (j < s.bufs.length → b.buf = j) ∧ (∀ k, bufferAt t k = bufferAt s k)

/-! ## Decoder rows

Each equation gives the whole next state, so it is the row's frame too: nothing but the registers it writes changes. The cursor and the count
are `IDX_W` bits wide, so the values written to them are modulo `2^IDX_W` (a busy decoder has at least 2 edges left, so nothing goes
below 0). -/

/-- `DEC_IDLE_PROLOGUE` and `DEC_IDLE_NOISE`. -/
def Obligations.DecoderIdleRows : Prop :=
  ∀ s : State, decCheck s = none →
    exec .decIdlePrologue s = .next
      (if decBusy s = true ∧ s.dec.state = .idle ∧ inW s .ps = true then
        { s with dec := { s.dec with
            p := (s.dec.p + 1) % 2 ^ s.cfg.idxW, rem := (s.dec.rem - 1) % 2 ^ s.cfg.idxW, state := .init } }
      else s) ∧
    exec .decIdleNoise s = .next
      (if decBusy s = true ∧ s.dec.state = .idle ∧ inW s .ps = false then
        { s with dec := { s.dec with p := (s.dec.p + 2) % 2 ^ s.cfg.idxW, rem := (s.dec.rem - 2) % 2 ^ s.cfg.idxW } }
      else s)

/-- `DEC_INIT_COMMAND`, `DEC_INIT_REPETITION` and `DEC_INIT_NOISE`. -/
def Obligations.DecoderInitRows : Prop :=
  ∀ s : State, decCheck s = none →
    exec .decInitCommand s = .next
      (if decBusy s = true ∧ s.dec.state = .init ∧ inW s .pp = true then
        { s with dec := { s.dec with
            bits := 32#6, p := (s.dec.p + 1) % 2 ^ s.cfg.idxW, rem := (s.dec.rem - 1) % 2 ^ s.cfg.idxW, state := .ss } }
      else s) ∧
    exec .decInitRepetition s = .next
      (if decBusy s = true ∧ s.dec.state = .init ∧ inW s .pp = false ∧ inW s .rp = true then
        { s with dec := { s.dec with
            rep := true, bits := 0#6, p := (s.dec.p + 1) % 2 ^ s.cfg.idxW, rem := (s.dec.rem - 1) % 2 ^ s.cfg.idxW,
            state := .ss } }
      else s) ∧
    exec .decInitNoise s = .next
      (if decBusy s = true ∧ s.dec.state = .init ∧ inW s .pp = false ∧ inW s .rp = false then
        { s with dec := { s.dec with
            code := 0#32, bits := 0#6, rep := false, p := (s.dec.p + 1) % 2 ^ s.cfg.idxW,
            rem := (s.dec.rem - 1) % 2 ^ s.cfg.idxW, state := .idle } }
      else s)

/-- `DEC_SS_COMPLETE`, `DEC_SS_SILENCE` and `DEC_SS_NOISE`. -/
def Obligations.DecoderSilenceRows : Prop :=
  ∀ s : State, decCheck s = none →
    exec .decSsComplete s = .next
      (if decBusy s = true ∧ s.dec.state = .ss ∧ s.dec.bits = 0#6 then
        { s with dec := { s.dec with done := true, rem := 0, state := .idle } } else s) ∧
    exec .decSsSilence s = .next
      (if decBusy s = true ∧ s.dec.state = .ss ∧ s.dec.bits ≠ 0#6 ∧ inW s .sil = true then
        { s with dec := { s.dec with
            p := (s.dec.p + 1) % 2 ^ s.cfg.idxW, rem := (s.dec.rem - 1) % 2 ^ s.cfg.idxW, state := .sp } }
      else s) ∧
    exec .decSsNoise s = .next
      (if decBusy s = true ∧ s.dec.state = .ss ∧ s.dec.bits ≠ 0#6 ∧ inW s .sil = false then
        { s with dec := { s.dec with code := 0#32, bits := 0#6, rep := false, state := .idle } } else s)

/-- `DEC_SP_BIT0`, `DEC_SP_BIT1` and `DEC_SP_NOISE`. The shifted code is given by its value: twice the old one, plus the bit, modulo 2^32. -/
def Obligations.DecoderPulseRows : Prop :=
  ∀ s : State, decCheck s = none →
    exec .decSpBit0 s = .next
      (if decBusy s = true ∧ s.dec.state = .sp ∧ inW s .b0 = true then
        { s with dec := { s.dec with
            code := BitVec.ofNat 32 (2 * s.dec.code.toNat), bits := s.dec.bits - 1#6, p := (s.dec.p + 1) % 2 ^ s.cfg.idxW,
            rem := (s.dec.rem - 1) % 2 ^ s.cfg.idxW, state := .ss } }
      else s) ∧
    exec .decSpBit1 s = .next
      (if decBusy s = true ∧ s.dec.state = .sp ∧ inW s .b0 = false ∧ inW s .b1 = true then
        { s with dec := { s.dec with
            code := BitVec.ofNat 32 (2 * s.dec.code.toNat + 1), bits := s.dec.bits - 1#6, p := (s.dec.p + 1) % 2 ^ s.cfg.idxW,
            rem := (s.dec.rem - 1) % 2 ^ s.cfg.idxW, state := .ss } }
      else s) ∧
    exec .decSpNoise s = .next
      (if decBusy s = true ∧ s.dec.state = .sp ∧ inW s .b0 = false ∧ inW s .b1 = false then
        { s with dec := { s.dec with
            code := 0#32, bits := 0#6, rep := false, p := (s.dec.p + 1) % 2 ^ s.cfg.idxW,
            rem := (s.dec.rem - 1) % 2 ^ s.cfg.idxW, state := .idle } }
      else s)

/-- `DEC_HALT`: it changes nothing, it is the row of a decoder that is not busy, and a `CLOCK` then leaves the decoder as it is. -/
def Obligations.DecoderHaltsWhenNotBusy : Prop :=
  ∀ s : State, decCheck s = none →
    exec .decHalt s = .next s ∧
    (s.dec.rem < 2 → decodeDec (decSelector s) = some .halt ∧ ∀ t, exec .clock s = .next t → t.dec = s.dec)

/-- A unit in a combination of 30_encoding.md R98, or with the record of one, takes no row: each of its rows is the fault `Unreachable`. At a clock edge
that is neither a reset nor refused the fault is recorded, no other register of that unit changes, and every other unit takes its step; so
the record stays until a reset, which clears it. That every row tests the combination, that a refusal comes first and that a load strobe still loads are the
model's (log entries 21 and 28). -/
def Obligations.UnreachableCombinationsFault : Prop :=
  (∀ s : State,
    (s.dec.faulted = true ∨ 32 < s.dec.bits.toNat ∨ (s.dec.state = .sp ∧ s.dec.bits = 0#6) ∨
      ((s.dec.state = .idle ∨ s.dec.state = .init) ∧ s.dec.done = false ∧ s.dec.code ≠ 0#32)) →
    (∀ r : DecRow, exec r.instr s = .fault (.unreachable .dec)) ∧
    (∀ x xs, x.rst = false → edgeRefusal x s = none → peersRun xs s →
      ∃ t, clockEdge x xs s = .next t ∧ t.dec.faulted = true ∧
        (x.start = false → t.dec = { s.dec with faulted := true }) ∧
        t.dbn = dbnAdvance (dbnConsume { s with inp := x }) ∧
        (x.setCode = false → t.enc = encAdvance { s with inp := x }) ∧
        t.eng = (engAdvance { s with inp := x }).1 ∧ t.peers = peersNext xs s) ∧
    (∃ t, exec .reset s = .next t ∧ t.dec.faulted = false)) ∧
  (∀ s : State,
    (s.enc.faulted = true ∨ s.enc.phase = .reserved ∨ (s.enc.phase ≠ .idle ∧ s.enc.cnt = 0#16)) →
    (∀ r : EncRow, exec r.instr s = .fault (.unreachable .enc)) ∧
    (∀ x xs, x.rst = false → edgeRefusal x s = none → decOut s = false → peersRun xs s →
      ∃ t, clockEdge x xs s = .next t ∧ t.enc.faulted = true ∧
        (x.setCode = false → t.enc = { s.enc with faulted := true }) ∧
        t.dbn = dbnAdvance (dbnConsume { s with inp := x }) ∧
        (x.start = false → t.dec = decAdvance { s with inp := x }) ∧
        t.eng = (engAdvance { s with inp := x }).1 ∧ t.peers = peersNext xs s) ∧
    (∃ t, exec .reset s = .next t ∧ t.enc.faulted = false))

/-! ## Decoder: the borrowed view, the parse and its result -/

/-- A busy decoder with its invariants forms two indices, both inside the view and the buffer; and a step depends on no other entry: on two states
that agree on the decoder, the configuration and those two entries, every row leaves the same registers. -/
def Obligations.DecoderReadsTwoEntriesOfItsView : Prop :=
  (∀ s : State, DecInv s.cfg.edgeCap s.dec → decBusy s = true →
    s.dec.p + 1 < viewEnd s ∧ viewEnd s ≤ s.cfg.edgeCap) ∧
  (∀ (s s' t : State) (r : DecRow), s'.dec = s.dec → s'.cfg = s.cfg →
    edgeAt s' s.dec.p = edgeAt s s.dec.p → edgeAt s' (s.dec.p + 1) = edgeAt s (s.dec.p + 1) →
    exec r.instr s = .next t → ∃ t', exec r.instr s' = .next t' ∧ t'.dec = t.dec)

/-- From `DEC_PARSE` with count `n` until the next parse or reset, `dec.p + dec.rem ≤ n`, with equality while `dec.done` = 0, and `dec.p ≤ n`: kept by
every other instruction and by every clock edge without `start` and `rst`. -/
def Obligations.CursorStaysInTheView : Prop :=
  ∀ (n : Nat) (s t : State),
    (exec (.decParse n) s = .next t →
      t.dec.p + t.dec.rem ≤ n ∧ (t.dec.done = false → t.dec.p + t.dec.rem = n) ∧ t.dec.p ≤ n) ∧
    ((∃ i : Instr, i ≠ .reset ∧ (∀ m, i ≠ .decParse m) ∧ exec i s = .next t) ∨
        (∃ x xs, x.rst = false ∧ x.start = false ∧ clockEdge x xs s = .next t) →
      n ≤ s.cfg.edgeCap → s.dec.p + s.dec.rem ≤ n → (s.dec.done = false → s.dec.p + s.dec.rem = n) → s.dec.p ≤ n →
      t.dec.p + t.dec.rem ≤ n ∧ (t.dec.done = false → t.dec.p + t.dec.rem = n) ∧ t.dec.p ≤ n)

/-- `DEC_PARSE n`: refused while busy, then refused for a count above `EDGE_CAP`; otherwise it loads every decoder register, makes the
decoder busy iff `n ≥ 2`, and changes nothing else of the block but the port values and the engine's action strobe. The other blocks at that
edge are the statement `RegistersChangeOnlyByTheirOwnOperations`'s. -/
def Obligations.ParseLoadsTheDecoder : Prop :=
  ∀ (s : State) (n : Nat),
    (2 ≤ s.dec.rem → exec (.decParse n) s = .refused .parseWhileBusy) ∧
    (s.dec.rem < 2 → s.cfg.edgeCap < n → exec (.decParse n) s = .refused .countTooLarge) ∧
    (s.dec.rem < 2 → n ≤ s.cfg.edgeCap → unitsOk s →
      ∃ t, exec (.decParse n) s = .next t ∧ decBusy t = decide (2 ≤ n) ∧
        t = { s with
          dec :=
            { state := .idle, p := 0, rem := n, bits := 0#6, code := 0#32, rep := false, done := false, faulted := false }
          inp := t.inp
          act := t.act
          peers := t.peers })

/-- `DEC_READ_RESULT`: refused while busy; otherwise it returns the code if the parse completed and 0 if not, the repetition flag and the
completion flag, and changes no register. -/
def Obligations.ReadResultReturnsTheResult : Prop :=
  ∀ s : State,
    (2 ≤ s.dec.rem → exec .decReadResult s = .refused .readWhileBusy) ∧
    (s.dec.rem < 2 → exec .decReadResult s = .next
      { s with reply := .result (if s.dec.done = true then s.dec.code else 0#32) s.dec.rep s.dec.done })

/-- The decoder's registers hold from the end of a parse until the next `DEC_PARSE` or reset: no other operation, and no clock edge without `start` and
`rst`, changes them while it is not busy. The record of an unreachable combination is no register (log entry 21). -/
def Obligations.ResultsHoldUntilTheNextParse : Prop :=
  ∀ s t : State, decBusy s = false →
    (∃ i : Instr, i ≠ .reset ∧ (∀ n, i ≠ .decParse n) ∧ exec i s = .next t) ∨
      (∃ x xs, x.rst = false ∧ x.start = false ∧ clockEdge x xs s = .next t) →
    { t.dec with faulted := s.dec.faulted } = s.dec ∧ codeOut t = codeOut s ∧ repOut t = repOut s ∧ doneOut t = doneOut s

/-- A parse of any buffer ends: from a state with the invariant, twice as many clock edges as edges remain leave the decoder not busy, and none
of them faults. -/
def Obligations.ParseEndsWithinTwiceTheCount : Prop :=
  ∀ s : State, s.Inv → ∃ t, execTimes .clock (2 * s.dec.rem) s = .next t ∧ decBusy t = false

/-- A command frame decodes: for a buffer whose first 68 edges are a command frame for `c`, under windows of one state that do not
overlap, `DECODE 68` returns `(c, 0)` with `done_out` = 1, after exactly 67 steps. -/
def Obligations.CommandFrameDecodesToItsCode : Prop :=
  ∀ (s : State) (c : W32), s.Inv → decBusy s = false → 68 ≤ s.cfg.edgeCap → windowsDisjoint s.cfg → CommandFrame s c →
    ∃ u, parseEndsAfter s 68 67 u ∧ exec .decReadResult u = .next { u with reply := .result c false true } ∧
      pseudoDecode 68 s = .next { u with reply := .result c false true }

/-- A repetition frame decodes: with a prologue-silence delta and then a repetition-pulse delta, `DECODE n` for any `n` from 4 up returns
`(0, 1)` with `done_out` = 1 after 3 steps, and `DECODE 3` returns `(0, 1)` with `done_out` = 0 after 2. -/
def Obligations.RepetitionFrameDecodes : Prop :=
  ∀ s : State, s.Inv → decBusy s = false → windowsDisjoint s.cfg →
    inWindow s.cfg .ps (deltaAt s 0) = true → inWindow s.cfg .rp (deltaAt s 1) = true →
    (∀ n, 4 ≤ n → n ≤ s.cfg.edgeCap →
      ∃ u, parseEndsAfter s n 3 u ∧ pseudoDecode n s = .next { u with reply := .result 0#32 true true }) ∧
    (3 ≤ s.cfg.edgeCap →
      ∃ u, parseEndsAfter s 3 2 u ∧ pseudoDecode 3 s = .next { u with reply := .result 0#32 true false })

/-- Decoding a capture of an encoded frame gives the code back: with the default windows, burst counts and ticks, for every code, if the first
68 edges of the buffer capture the envelope of its frame to within half a decoder tick, `DECODE 68` returns `(c, 0)` with
`done_out` = 1. -/
def Obligations.DecodingAnEncodedFrameGivesTheCode : Prop :=
  ∀ (s : State) (c : W32) (cap : Nat) (off : W16),
    s.cfg = { Config.default with edgeCap := cap, epiOffT := off } → s.Inv → decBusy s = false → 68 ≤ cap →
    captures s c →
    ∃ u, pseudoDecode 68 s = .next u ∧ u.reply = .result c false true

/-- Perturbation: with the default windows, a command frame whose deltas stand at their windows' midpoints, one of the 66 classified deltas moved to one
tick outside its window, decodes to no code and no repetition, with `done_out` = 0. -/
def Obligations.PerturbedFrameYieldsNoCode : Prop :=
  ∀ (s : State) (c : W32) (i cap : Nat) (off : W16),
    s.cfg = { Config.default with edgeCap := cap, epiOffT := off } → s.Inv → decBusy s = false → 68 ≤ cap → i < 66 →
    (∀ j, j < 66 → j ≠ i → deltaAt s j = windowMid s.cfg (frameWindow c j)) →
    ((deltaAt s i).toNat + 1 = windowLo s.cfg (frameWindow c i) ∨
      (deltaAt s i).toNat = windowHi s.cfg (frameWindow c i) + 1) →
    ∃ u, pseudoDecode 68 s = .next u ∧ u.reply = .result 0#32 false false

/-! ## Windows -/

/-- A tick window holds exactly the deltas whose time in nanoseconds lies in the closed microsecond window; and the default windows in ticks are the
numbers of 30_encoding.md R86. -/
def Obligations.TickWindowsAreTheMicrosecondWindows : Prop :=
  (∀ (c : Config) (x : Window) (d : W32), 1 ≤ c.tickDecNs →
    (inWindow c x d = true ↔
      (microWindow c x).loUs * 1000 ≤ d.toNat * c.tickDecNs ∧
        d.toNat * c.tickDecNs ≤ (microWindow c x).hiUs * 1000)) ∧
  ([Window.ps, .pp, .rp, .sil, .b0, .b1].map fun x => (windowLo Config.default x, windowHi Config.default x)) =
    [(8800, 9200), (4300, 4700), (1700, 2700), (400, 700), (400, 700), (1500, 1800)] ∧
  windowsDisjoint Config.default

/-! ## Debouncer -/

/-- The four transitions of the debouncer, each with its whole next state: the elapsed test is an unsigned comparison, the deadline and the
duration are modulo 2^32. -/
def Obligations.DebouncerTransitions : Prop :=
  ∀ s : State,
    exec .dbPress s = .next
      (if s.inp.dbnPoll = true ∧ s.dbn.state = .released ∧ s.inp.level = true then
        { s with dbn := { s.dbn with
            tickPressed := s.inp.nowMs
            nextTimeout := BitVec.ofNat 32 (s.inp.nowMs.toNat + s.dbn.debounceTime.toNat)
            state := .pressedWait } }
      else s) ∧
    exec .dbPwElapsed s = .next
      (if s.inp.dbnPoll = true ∧ s.dbn.state = .pressedWait ∧ s.dbn.nextTimeout.toNat ≤ s.inp.nowMs.toNat then
        { s with dbn := { s.dbn with state := .pressed } } else s) ∧
    exec .dbRelease s = .next
      (if s.inp.dbnPoll = true ∧ s.dbn.state = .pressed ∧ s.inp.level = false then
        { s with dbn := { s.dbn with
            duration := BitVec.ofNat 32 (s.inp.nowMs.toNat + 2 ^ 32 - s.dbn.tickPressed.toNat)
            nextTimeout := BitVec.ofNat 32 (s.inp.nowMs.toNat + s.dbn.debounceTime.toNat)
            state := .releasedWait } }
      else s) ∧
    exec .dbRwElapsed s = .next
      (if s.inp.dbnPoll = true ∧ s.dbn.state = .releasedWait ∧ s.dbn.nextTimeout.toNat ≤ s.inp.nowMs.toNat then
        { s with dbn := { s.dbn with state := .released } } else s)

/-- The rows without a transition change nothing, and each is the row its condition selects. -/
def Obligations.DebouncerHolds : Prop :=
  ∀ s : State,
    (exec .dbNoPoll s = .next s ∧ (s.inp.dbnPoll = false → decodeDbn (dbnSelector s) = some .noPoll)) ∧
    (exec .dbReleasedHold s = .next s ∧
      (s.inp.dbnPoll = true → s.dbn.state = .released → s.inp.level = false →
        decodeDbn (dbnSelector s) = some .releasedHold)) ∧
    (exec .dbPwHold s = .next s ∧
      (s.inp.dbnPoll = true → s.dbn.state = .pressedWait → s.inp.nowMs.toNat < s.dbn.nextTimeout.toNat →
        decodeDbn (dbnSelector s) = some .pwHold)) ∧
    (exec .dbPressedHold s = .next s ∧
      (s.inp.dbnPoll = true → s.dbn.state = .pressed → s.inp.level = true →
        decodeDbn (dbnSelector s) = some .pressedHold)) ∧
    (exec .dbRwHold s = .next s ∧
      (s.inp.dbnPoll = true → s.dbn.state = .releasedWait → s.inp.nowMs.toNat < s.dbn.nextTimeout.toNat →
        decodeDbn (dbnSelector s) = some .rwHold))

/-- `FSM_STEP` on each unit completes: the polled unit takes its engine's step, a busy decoder takes its own step at the same edge, a busy
encoder ignores the poll, the other blocks have an edge without strobes, and nothing else changes but the port values and the engine's action
strobe. -/
def Obligations.FsmStepStepsTheUnit : Prop :=
  ∀ s : State, unitsOk s →
    (∀ (now : W32) (lvl : Bool), exec (.fsmStep (.dbn now lvl)) s = .next
      { s with
        inp := { Inputs.idle with dbnPoll := true, nowMs := now, level := lvl }
        dec := decAdvance s
        dbn := dbnEngineStep { s with inp := { Inputs.idle with dbnPoll := true, nowMs := now, level := lvl } }
        act := 0
        peers := peersTick s }) ∧
    exec (.fsmStep .enc) s = .next
      { s with
        inp := { Inputs.idle with encPoll := true }
        dec := decAdvance s
        enc := if encBusy s = true then s.enc else encEngineStep s
        act := 0
        peers := peersTick s } ∧
    (∀ g : List Bool, exec (.fsmStep (.eng g)) s = .next
      { s with
        inp := { Inputs.idle with engPoll := true, g := g }
        dec := decAdvance s
        eng := { s.eng with state :=
          ((engineSelect s.eng.table s.eng.state (guardValue g)).map Entry.toState).getD s.eng.state }
        act := ((engineSelect s.eng.table s.eng.state (guardValue g)).map Entry.action).getD 0
        peers := peersTick s })

/-- The reads of the debouncer and the encoder return their output and change no register, of a busy decoder either: a read is no clock edge (log
entry 3). `DB_RESET_DURATION` clears the duration and changes no other register; a busy decoder's own step at that edge, and the other blocks,
are the statement `StrobesAreClockEdges`'s. -/
def Obligations.ReadsReturnOutputsAndResetDurationClears : Prop :=
  ∀ s : State,
    exec .dbGetDuration s = .next { s with reply := .word s.dbn.duration } ∧
    exec .dbIsActive s = .next { s with reply := .flag (decide (s.dbn.state ≠ .released)) } ∧
    exec .encIsBusy s = .next { s with reply := .flag (decide (s.enc.phase ≠ .idle)) } ∧
    (unitsOk s → ∃ t, exec .dbResetDuration s = .next t ∧ t.dbn = { s.dbn with duration := 0#32 } ∧
      (decBusy s = false → t.dec = s.dec) ∧
      t = { s with inp := t.inp, dec := t.dec, dbn := t.dbn, act := t.act, peers := t.peers })

/-- A `DB_RELEASE` step wins over a `reset_duration` of the same edge, and the edge leaves the debouncer as the two operations one after the
other, reset first, leave it. -/
def Obligations.ReleaseWinsOverResetDuration : Prop :=
  ∀ (s : State) (now : W32) (xs : List Inputs), s.Inv → s.dbn.state = .pressed → peersRun xs s →
    ∃ t u v,
      clockEdge { Inputs.idle with dbnPoll := true, nowMs := now, level := false, resetDuration := true } xs s = .next t ∧
      exec .dbResetDuration s = .next u ∧ exec (.fsmStep (.dbn now false)) u = .next v ∧
      t.dbn = v.dbn ∧ t.dbn.duration = now - s.dbn.tickPressed

/-- Polls from a press to its release record the time between the two, which is at least the debounce time. The polls in between are any number that find
the deadline not yet passed, whatever the level, one that finds it passed, and any number that find the button still pressed: every sequence from
a press to its release has that form. The deadline does not wrap (the other case is the statement `WrappedDeadlineElapsesAtOnce`'s). Until the release the
duration stays as it was. -/
def Obligations.PressDurationIsPressToRelease : Prop :=
  ∀ (s : State) (t1 t2 t3 : W32) (lvl : Bool) (hold1 hold2 : List (W32 × Bool)), s.Inv → s.dbn.state = .released →
    (∀ q ∈ hold1, q.1.toNat < t1.toNat + s.dbn.debounceTime.toNat) →
    t1.toNat + s.dbn.debounceTime.toNat ≤ t2.toNat → (∀ q ∈ hold2, q.2 = true) → t2.toNat ≤ t3.toNat →
    ∃ u v, execPolls ((t1, true) :: (hold1 ++ (t2, lvl) :: hold2)) s = .next u ∧ u.dbn.state = .pressed ∧
      u.dbn.duration = s.dbn.duration ∧
      exec (.fsmStep (.dbn t3 false)) u = .next v ∧ v.dbn.state = .releasedWait ∧
      v.dbn.duration.toNat = t3.toNat - t1.toNat ∧ s.dbn.debounceTime.toNat ≤ v.dbn.duration.toNat

/-- Hazard (a) of 70_reset_and_hazards.md R262: a deadline armed within the debounce time of the wrap is found elapsed by the next poll before
the wrap. -/
def Obligations.WrappedDeadlineElapsesAtOnce : Prop :=
  ∀ (s : State) (now now' : W32) (lvl : Bool), s.Inv → s.dbn.state = .released →
    2 ^ 32 ≤ now.toNat + s.dbn.debounceTime.toNat → now.toNat ≤ now'.toNat →
    ∃ a b, exec (.fsmStep (.dbn now true)) s = .next a ∧ exec (.fsmStep (.dbn now' lvl)) a = .next b ∧
      b.dbn.state = .pressed

/-! ## Encoder -/

/-- `ENC_SET_CODE v`: refused while busy, otherwise it loads the pending code and changes no other register (a busy decoder's own step at that edge, and
the other blocks, are the statement `StrobesAreClockEdges`'s); and a poll of the same edge reads the pending code from before it, after which the
new code is pending, in a transmission of the old one too (log entry 16). -/
def Obligations.SetCodeLoadsThePendingCode : Prop :=
  ∀ (s : State) (v : W32),
    (s.enc.phase ≠ .idle → exec (.encSetCode v) s = .refused .setCodeWhileBusy) ∧
    (s.enc.phase = .idle → unitsOk s →
      (∃ t, exec (.encSetCode v) s = .next t ∧ t.enc = { s.enc with pending := v } ∧ (decBusy s = false → t.dec = s.dec) ∧
        t = { s with inp := t.inp, dec := t.dec, enc := t.enc, act := t.act, peers := t.peers }) ∧
      (∀ xs, peersRun xs s →
        ∃ t, clockEdge { Inputs.idle with setCode := true, codeIn := v, encPoll := true } xs s = .next t ∧
          t.enc = { encEngineStep s with pending := v }))

/-- `ENC_SEND`, `ENC_NOTHING` and `ENC_NO_POLL`; `ENC_WAIT` and `ENC_COUNT`. -/
def Obligations.EncoderEngineAndCountRows : Prop :=
  ∀ s : State, encCheck s = none →
    exec .encSend s = .next
      (if s.enc.phase = .idle ∧ s.inp.encPoll = true ∧ s.enc.pending ≠ 0#32 then
        { s with enc := { s.enc with
            shreg := s.enc.pending, k := 0#5, phase := .proOn, cnt := s.cfg.proOnT, irOn := true } }
      else s) ∧
    exec .encNothing s = .next s ∧ exec .encNoPoll s = .next s ∧ exec .encWait s = .next s ∧
    exec .encCount s = .next
      (if s.enc.phase ≠ .idle ∧ s.inp.tick = true ∧ s.enc.cnt ≠ 1#16 then
        { s with enc := { s.enc with cnt := s.enc.cnt - 1#16 } } else s)

/-- The rows at the end of the prologue and of a data bit's ON. -/
def Obligations.EncoderPrologueAndBitOnRows : Prop :=
  ∀ s : State, encCheck s = none →
    exec .encProOnEnd s = .next
      (if s.enc.phase = .proOn ∧ s.inp.tick = true ∧ s.enc.cnt = 1#16 then
        { s with enc := { s.enc with phase := .proOff, cnt := s.cfg.proOffT, irOn := false } } else s) ∧
    exec .encProOffEnd s = .next
      (if s.enc.phase = .proOff ∧ s.inp.tick = true ∧ s.enc.cnt = 1#16 then
        { s with enc := { s.enc with
            phase := .bitOn
            cnt := if s.enc.shreg.getLsbD (31 - s.enc.k.toNat) = true then s.cfg.b1OnT else s.cfg.b0OnT
            irOn := true } }
      else s) ∧
    exec .encBitOnEnd s = .next
      (if s.enc.phase = .bitOn ∧ s.inp.tick = true ∧ s.enc.cnt = 1#16 then
        { s with enc := { s.enc with
            phase := .bitOff
            cnt := if s.enc.shreg.getLsbD (31 - s.enc.k.toNat) = true then s.cfg.b1OffT else s.cfg.b0OffT
            irOn := false } }
      else s)

/-- The rows at the end of a data bit's OFF and of the epilogue. -/
def Obligations.EncoderBitOffAndEpilogueRows : Prop :=
  ∀ s : State, encCheck s = none →
    exec .encBitOffNext s = .next
      (if s.enc.phase = .bitOff ∧ s.inp.tick = true ∧ s.enc.cnt = 1#16 ∧ s.enc.k ≠ 31#5 then
        { s with enc := { s.enc with
            k := BitVec.ofNat 5 (s.enc.k.toNat + 1)
            phase := .bitOn
            cnt := if s.enc.shreg.getLsbD (30 - s.enc.k.toNat) = true then s.cfg.b1OnT else s.cfg.b0OnT
            irOn := true } }
      else s) ∧
    exec .encBitOffLast s = .next
      (if s.enc.phase = .bitOff ∧ s.inp.tick = true ∧ s.enc.cnt = 1#16 ∧ s.enc.k = 31#5 then
        { s with enc := { s.enc with phase := .epiOn, cnt := s.cfg.epiOnT, irOn := true } } else s) ∧
    exec .encEpiOnEnd s = .next
      (if s.enc.phase = .epiOn ∧ s.inp.tick = true ∧ s.enc.cnt = 1#16 then
        { s with enc := { s.enc with phase := .epiOff, cnt := s.cfg.epiOffT, irOn := false } } else s) ∧
    exec .encEpiOffEnd s = .next
      (if s.enc.phase = .epiOff ∧ s.inp.tick = true ∧ s.enc.cnt = 1#16 then
        { s with enc := { s.enc with phase := .idle, cnt := 0#16, pending := 0#32 } } else s)

/-- `ENC_TICK`, `CLOCK`, `ENC_SET_CODE` and `DB_RESET_DURATION` are one clock edge each: a tick steps the sequencer of a busy encoder and is ignored by
an idle one; a busy decoder takes its own step at each of them (log entry 3); the other blocks have an edge without strobes; nothing else changes
but what the strobe loads, the port values and the engine's action strobe (log entry 17). -/
def Obligations.StrobesAreClockEdges : Prop :=
  ∀ s : State, unitsOk s →
    exec .encTick s = .next
      { s with
        inp := { Inputs.idle with tick := true }
        dec := decAdvance s
        enc := if encBusy s = true then encTickStep s.cfg s.enc else s.enc
        act := 0
        peers := peersTick s } ∧
    exec .clock s = .next { s with inp := Inputs.idle, dec := decAdvance s, act := 0, peers := peersTick s } ∧
    (∀ v : W32, s.enc.phase = .idle → exec (.encSetCode v) s = .next
      { s with
        inp := { Inputs.idle with setCode := true, codeIn := v }
        dec := decAdvance s
        enc := { s.enc with pending := v }
        act := 0
        peers := peersTick s }) ∧
    exec .dbResetDuration s = .next
      { s with
        inp := { Inputs.idle with resetDuration := true }
        dec := decAdvance s
        dbn := { s.dbn with duration := 0#32 }
        act := 0
        peers := peersTick s }

/-- While busy the encoder ignores `poll` and its sequencer advances on `tick` alone; while not busy it ignores `tick` and takes its engine step
on `poll` alone. -/
def Obligations.EncoderIgnoresPollWhileBusyAndTickWhileIdle : Prop :=
  ∀ (x y : Inputs) (xs ys : List Inputs) (s t u : State), x.rst = false → y.rst = false → x.setCode = false →
    y.setCode = false → encCheck s = none → clockEdge x xs s = .next t → clockEdge y ys s = .next u →
    (encBusy s = true → (x.tick = y.tick → t.enc = u.enc) ∧ (x.tick = false → t.enc = s.enc) ∧
      (x.tick = true → t.enc = encTickStep s.cfg s.enc)) ∧
    (encBusy s = false → (x.encPoll = y.encPoll → t.enc = u.enc) ∧ (x.encPoll = false → t.enc = s.enc) ∧
      (x.encPoll = true → t.enc = encEngineStep s))

/-- The encoder's invariants hold at reset, and every instruction and every clock edge keeps them; but for one edge: a poll and a `set_code` at once while
a code is pending and another is loaded leaves an encoder that sends the old code with the new one pending (log entry 16). -/
def Obligations.EncoderInvariants : Prop :=
  (EncInv State.reset.cfg State.reset.enc ∧ sendsPending State.reset.enc) ∧
  (∀ (i : Instr) (s t : State), s.cfg.wf = true → EncInv s.cfg s.enc → sendsPending s.enc → exec i s = .next t →
    EncInv t.cfg t.enc ∧ sendsPending t.enc) ∧
  (∀ (x : Inputs) (xs : List Inputs) (s t : State), s.cfg.wf = true → EncInv s.cfg s.enc → sendsPending s.enc →
    clockEdge x xs s = .next t →
    EncInv t.cfg t.enc ∧
      (¬ (x.rst = false ∧ x.encPoll = true ∧ x.setCode = true ∧ s.enc.pending ≠ 0#32 ∧ x.codeIn ≠ s.enc.pending) →
        sendsPending t.enc))

/-- The code 0 is never transmitted: an edge that makes the encoder busy found a pending code that is not 0 and latched it. -/
def Obligations.CodeZeroIsNeverSent : Prop :=
  ∀ (x : Inputs) (xs : List Inputs) (s t : State), clockEdge x xs s = .next t → encBusy s = false → encBusy t = true →
    s.enc.pending ≠ 0#32 ∧ t.enc.shreg = s.enc.pending

/-- A frame: from `ENC_SEND`, `k` burst ticks leave the encoder busy with the level the segment list gives for every `k` below `T(c)`, and `T(c)` ticks
leave it not busy with the pending code cleared. -/
def Obligations.FrameIsItsSegments : Prop :=
  ∀ s : State, s.Inv → encBusy s = false → s.enc.pending ≠ 0#32 →
    ∃ t u, exec (.fsmStep .enc) s = .next t ∧
      execTimes .encTick (frameTicks s.cfg s.enc.pending) t = .next u ∧
      encBusy u = false ∧ u.enc.pending = 0#32 ∧ u.enc.irOn = false ∧
      ∀ k, k < frameTicks s.cfg s.enc.pending →
        ∃ v, execTimes .encTick k t = .next v ∧ encBusy v = true ∧
          v.enc.irOn = levelAt (frameSegments s.cfg s.enc.pending) k

/-! ## Stand-alone engine -/

/-- `FSM_CONSTRUCT`: a table of the wrong length or with a guard or action id out of range is refused; a well-formed table is taken with the
initial state, in the place of an engine constructed before (log entry 30), and no other unit changes: it is no clock edge (log entry 4). -/
def Obligations.ConstructTakesAWellFormedTable : Prop :=
  ∀ (s : State) (z : EngSizes) (ws : List Nat) (s0 : Nat), (Instr.fsmConstruct z ws s0).wf = true →
    (ws.length ≠ z.nEntries ∨
        (∃ w ∈ ws, z.nGuards ≤ (entryOfWord z w).guard ∨ z.nActions ≤ (entryOfWord z w).action) →
      exec (.fsmConstruct z ws s0) s = .refused .badTable) ∧
    (ws.length = z.nEntries →
        (∀ w ∈ ws, (entryOfWord z w).guard < z.nGuards ∧ (entryOfWord z w).action < z.nActions) →
      ∃ t, exec (.fsmConstruct z ws s0) s = .next t ∧
        t.eng = { sizes := z, state := s0, init := s0, table := ws.map (entryOfWord z) } ∧
        t = { s with eng := t.eng, act := t.act })

/-- Table order is the tie-break: where the entries before `e` do not fire and `e` does, a step fires `e` and no other, in a poll of the engine
and in its row `ENG_FIRE`. Which action strobe it asserts is the statement `FsmStepStepsTheUnit`'s. -/
def Obligations.EarliestFiringEntryFires : Prop :=
  ∀ (s : State) (g : List Bool) (before after : List Entry) (e : Entry), s.eng.table = before ++ e :: after →
    (∀ x ∈ before, ¬ (x.fromState = s.eng.state ∧ guardValue g x.guard = true)) →
    e.fromState = s.eng.state → guardValue g e.guard = true →
    (unitsOk s → ∃ t, exec (.fsmStep (.eng g)) s = .next t ∧ t.eng = { s.eng with state := e.toState }) ∧
    (s.inp.engPoll = true → s.inp.g = g →
      ∃ t, exec .engFire s = .next t ∧ t.eng = { s.eng with state := e.toState } ∧ t = { s with eng := t.eng, act := t.act })

/-- A step in which no entry of the current state has a true guard, and an edge without a poll, change no register of the engine or of any other unit:
the rows `ENG_NO_MATCH` and `ENG_NO_POLL`. The action strobe is an output. -/
def Obligations.EngineStaysWithoutAMatch : Prop :=
  ∀ s : State,
    ((∀ x ∈ s.eng.table, x.fromState = s.eng.state → guardValue s.inp.g x.guard = false) → s.inp.engPoll = true →
      (∃ t, exec .engNoMatch s = .next t ∧ t = { s with act := t.act }) ∧ decodeEng (engSelector s) = some .noMatch) ∧
    (s.inp.engPoll = false →
      (∃ t, exec .engNoPoll s = .next t ∧ t = { s with act := t.act }) ∧ decodeEng (engSelector s) = some .noPoll)

/-! ## Edge buffer and capture agent -/

/-- Reading an entry after a write gives the value written at its index and what was there before at every other. -/
def Obligations.EntryReadAfterWrite : Prop :=
  ∀ (m : List EdgeCell) (i j : Nat) (v : W32), wfCells m = true →
    readEntry (writeEntry m i v) j = if j = i then v else readEntry m j

/-- No instruction writes an edge buffer, its count or its enable, nor which buffer a decoder is given, nor the configuration, nor a debouncer's
constants. -/
def Obligations.InstructionsLeaveTheEdgeBuffer : Prop :=
  ∀ (i : Instr) (s t : State), exec i s = .next t →
    t.bufs = s.bufs ∧ t.buf = s.buf ∧ (∀ j, edgeAt t j = edgeAt s j) ∧ t.cfg = s.cfg ∧
    t.dbn.debounceTime = s.dbn.debounceTime ∧ t.dbn.buttonId = s.dbn.buttonId ∧
    t.peers.map (fun b => (b.buf, b.dbn.debounceTime, b.dbn.buttonId)) =
      s.peers.map (fun b => (b.buf, b.dbn.debounceTime, b.dbn.buttonId))

/-- A write by the capture agent to an edge buffer: refused inside the view of any busy decoder that is given the buffer; a fault at an entry that does not
exist (log entry 13); otherwise taken, whatever the enable, and it sets that entry alone and leaves the count (log entry 32). A write or an append that
is taken leaves every entry of every view as it was. A view's end is the model's reading of the latched count (log entry 14). -/
def Obligations.BorrowedViewIsStable : Prop :=
  ∀ (s : State) (j i : Nat) (v : W32), wfCells (bufferAt s j).cells = true → j < s.bufs.length →
    (i < s.cfg.edgeCap → (∃ b ∈ s.blocks, b.buf = j ∧ b.dec.busy = true ∧ i < b.dec.p + b.dec.rem) →
      runEvent (.write j i v) s = .refused .borrowedViewWritten) ∧
    (s.cfg.edgeCap ≤ i → runEvent (.write j i v) s = .fault (.noSuchEntry i)) ∧
    (i < s.cfg.edgeCap → (∀ b ∈ s.blocks, b.buf = j → b.dec.busy = true → b.dec.p + b.dec.rem ≤ i) →
      ∃ t, runEvent (.write j i v) s = .next t ∧ readEntry (bufferAt t j).cells i = v ∧
        (∀ n, n ≠ i → readEntry (bufferAt t j).cells n = readEntry (bufferAt s j).cells n) ∧
        (bufferAt t j).count = (bufferAt s j).count ∧ (bufferAt t j).capEnabled = (bufferAt s j).capEnabled ∧
        (∀ k, k ≠ j → bufferAt t k = bufferAt s k) ∧ t = { s with bufs := t.bufs }) ∧
    (∀ t, runEvent (.write j i v) s = .next t ∨ runEvent (.append j v) s = .next t →
      ∀ b ∈ s.blocks, b.dec.busy = true → ∀ n, n < b.dec.p + b.dec.rem →
        readEntry (bufferAt t b.buf).cells n = readEntry (bufferAt s b.buf).cells n)

/-- An edge buffer may be cleared only while capture is disabled and no decoder that is given it is busy; a clear sets its count to 0 and changes no other
buffer. `enable_capture` is taken in every state and writes the enable alone. -/
def Obligations.ClearNeedsQuiescence : Prop :=
  ∀ (s : State) (j : Nat), j < s.bufs.length →
    ((bufferAt s j).capEnabled = true ∨ (∃ b ∈ s.blocks, b.buf = j ∧ b.dec.busy = true) →
      runEvent (.clear j) s = .refused .bufferClearedUnquiesced) ∧
    ((bufferAt s j).capEnabled = false → (∀ b ∈ s.blocks, b.buf = j → b.dec.busy = false) →
      ∃ t, runEvent (.clear j) s = .next t ∧ (bufferAt t j).count = 0 ∧ (bufferAt t j).capEnabled = false ∧
        (∀ k, k ≠ j → bufferAt t k = bufferAt s k) ∧ t = { s with bufs := t.bufs }) ∧
    (∀ b, ∃ t, runEvent (.enableCapture j b) s = .next t ∧ bufferAt t j = { bufferAt s j with capEnabled := b } ∧
      (∀ k, k ≠ j → bufferAt t k = bufferAt s k) ∧ t = { s with bufs := t.bufs })

/-- An append with capture enabled and room left writes the entry at the count and then shows it: the new entry holds the timestamp, the count
grows by one, every other entry and every other buffer is as before. Inside a borrowed view it is refused. With capture disabled, or the buffer full, it
appends nothing and changes nothing (log entry 12). -/
def Obligations.AppendWritesTheNextEntry : Prop :=
  ∀ (s : State) (j : Nat) (v : W32), wfCells (bufferAt s j).cells = true → j < s.bufs.length →
    ((bufferAt s j).capEnabled = true → (bufferAt s j).count < s.cfg.edgeCap →
      inBorrowedView s j (bufferAt s j).count = false →
      ∃ t, runEvent (.append j v) s = .next t ∧ (bufferAt t j).count = (bufferAt s j).count + 1 ∧
        readEntry (bufferAt t j).cells (bufferAt s j).count = v ∧
        (∀ n, n ≠ (bufferAt s j).count → readEntry (bufferAt t j).cells n = readEntry (bufferAt s j).cells n) ∧
        (bufferAt t j).capEnabled = true ∧ (∀ k, k ≠ j → bufferAt t k = bufferAt s k) ∧ t = { s with bufs := t.bufs }) ∧
    ((bufferAt s j).capEnabled = true → (bufferAt s j).count < s.cfg.edgeCap →
      inBorrowedView s j (bufferAt s j).count = true → runEvent (.append j v) s = .refused .borrowedViewWritten) ∧
    ((bufferAt s j).capEnabled = false ∨ s.cfg.edgeCap ≤ (bufferAt s j).count → runEvent (.append j v) s = .next s)

/-! ## The whole machine -/

/-- The invariant holds right after reset. The configuration, the engine nobody has constructed yet and the empty buffer of `State.reset` are the
model's (log entries 1, 5 and 25). -/
def Obligations.ResetStateHasTheInvariant : Prop := State.reset.Inv

/-- Every step keeps the invariant: of every block the decoder's and the encoder's invariants and the ranges of the engine's table and state, and of every
edge buffer the canonical form. -/
def Obligations.StepKeepsTheInvariant : Prop :=
  ∀ s t : State, s.Inv → step s = .next t → t.Inv

/-- No operation raises an exception and no step can fail: with the invariant, no instruction and no clock edge faults. -/
def Obligations.NothingFaultsUnderTheInvariant : Prop :=
  ∀ s : State, s.Inv →
    (∀ (i : Instr) (f : Fault), exec i s ≠ .fault f) ∧
    (∀ (x : Inputs) (xs : List Inputs) (f : Fault), clockEdge x xs s ≠ .fault f)

/-- Each refusal comes from the operation it names alone, in the condition 60_exceptions.md R224 gives. A table word too wide for its layout counts as a
malformed table (log entry 24). -/
def Obligations.RefusalsComeFromTheirOperations : Prop :=
  ∀ (i : Instr) (s : State) (r : Refusal), exec i s = .refused r →
    (r = .badTable ∧ ∃ z ws s0, i = .fsmConstruct z ws s0 ∧
      (ws.length ≠ z.nEntries ∨ ∃ w ∈ ws, 2 ^ z.entryW ≤ w ∨ z.nGuards ≤ (entryOfWord z w).guard ∨
        z.nActions ≤ (entryOfWord z w).action)) ∨
    (r = .parseWhileBusy ∧ decBusy s = true ∧ ∃ n, i = .decParse n) ∨
    (r = .countTooLarge ∧ decBusy s = false ∧ ∃ n, i = .decParse n ∧ s.cfg.edgeCap < n) ∨
    (r = .readWhileBusy ∧ decBusy s = true ∧ i = .decReadResult) ∨
    (r = .setCodeWhileBusy ∧ encBusy s = true ∧ ∃ v, i = .encSetCode v) ∨
    (r = .reservedHostOp ∧ (i = .reserved0 ∨ i = .reservedC ∨ i = .reservedD ∨ i = .reservedE))

/-- A host action with a reserved code is refused, in every state, from the word on, whatever operands come with it and whichever block it is for. -/
def Obligations.ReservedCodesAreRefused : Prop :=
  ∀ s : State,
    exec .reserved0 s = .refused .reservedHostOp ∧ exec .reservedC s = .refused .reservedHostOp ∧
    exec .reservedD s = .refused .reservedHostOp ∧ exec .reservedE s = .refused .reservedHostOp ∧
    (∀ (k code : Nat) (args : List Nat), k ≤ s.peers.length → code = 0x0 ∨ code = 0xC ∨ code = 0xD ∨ code = 0xE →
      runEvent (.host k code args) s = .refused .reservedHostOp)

/-- Which instructions change which registers. The engine's table, sizes and initial state: construction alone. Its state: its rows, a poll of it,
construction and reset. The debouncer's: its rows, `DB_RESET_DURATION`, a poll of it and reset. The encoder's: its rows, `ENC_SET_CODE`, a poll of
it, `ENC_TICK` and reset. The decoder's: its rows, `DEC_PARSE`, reset, and the clock edges while it is busy. A clock edge also records the fault of
a decoder or an encoder that takes no step (log entry 21). The other blocks: at a clock edge that is no reset each has one without strobes, and no
other instruction changes them (log entries 3 and 23). -/
def Obligations.RegistersChangeOnlyByTheirOwnOperations : Prop :=
  ∀ (i : Instr) (s t : State), exec i s = .next t →
    ((∀ z ws s0, i ≠ .fsmConstruct z ws s0) →
      t.eng.table = s.eng.table ∧ t.eng.sizes = s.eng.sizes ∧ t.eng.init = s.eng.init) ∧
    (t.eng.state ≠ s.eng.state → i = .reset ∨ (∃ g, i = .fsmStep (.eng g)) ∨ (∃ r : EngRow, i = r.instr) ∨
      ∃ z ws s0, i = .fsmConstruct z ws s0) ∧
    (t.dbn ≠ s.dbn → i = .reset ∨ i = .dbResetDuration ∨ (∃ now lvl, i = .fsmStep (.dbn now lvl)) ∨
      ∃ r : DbnRow, i = r.instr) ∧
    (t.enc ≠ s.enc → i = .reset ∨ i = .fsmStep .enc ∨ i = .encTick ∨ (∃ v, i = .encSetCode v) ∨
      (∃ r : EncRow, i = r.instr) ∨
      (pulses i = true ∧ encStuck s.enc = true ∧ t.enc = { s.enc with faulted := true })) ∧
    (t.dec ≠ s.dec → i = .reset ∨ (∃ n, i = .decParse n) ∨ (∃ r : DecRow, i = r.instr) ∨
      (pulses i = true ∧ decStuck s.dec = false ∧ decBusy s = true) ∨
      (pulses i = true ∧ decStuck s.dec = true ∧ t.dec = { s.dec with faulted := true })) ∧
    (pulses i = false → t.peers = s.peers) ∧ (pulses i = true → i ≠ .reset → t.peers = peersTick s)

/-- Blocks on one clock do not interact: in two systems with one configuration, a block with the same registers, the same port values and the same contents of
the edge buffer it is given ends an edge with the same registers, whatever the other blocks are and wherever it stands among them. -/
def Obligations.BlocksDoNotInteract : Prop :=
  ∀ (x y : Inputs) (xs ys : List Inputs) (s u s' u' : State) (i j : Nat) (b : Block),
    clockEdge x xs s = .next s' → clockEdge y ys u = .next u' → s.cfg = u.cfg →
    s.blocks[i]? = some b → u.blocks[j]? = some b → bufferAt s b.buf = bufferAt u b.buf →
    (x :: xs)[i]?.getD Inputs.idle = (y :: ys)[j]?.getD Inputs.idle →
    ∃ b', s'.blocks[i]? = some b' ∧ u'.blocks[j]? = some b'

/-- The order in which a host polls two units changes no register: in a legal configuration, a poll of one unit and a poll of another, in either
order, leave the same registers in every unit of every block. -/
def Obligations.PollOrderChangesNoRegister : Prop :=
  ∀ (p q : PollInputs) (s a b c d : State), s.cfg.wf = true → polledUnit p ≠ polledUnit q →
    exec (.fsmStep p) s = .next a → exec (.fsmStep q) a = .next b →
    exec (.fsmStep q) s = .next c → exec (.fsmStep p) c = .next d →
    b.dec = d.dec ∧ b.dbn = d.dbn ∧ b.enc = d.enc ∧ b.eng = d.eng ∧ b.bufs = d.bufs ∧ b.peers = d.peers
end

