-- ==== Sys2Proof/Laws/State.lean ====
section
/-! SUPPORT. What the named updates of a state do to each field: one lemma a field, true by unfolding. -/

namespace Sys2Proof.Machine

variable (s : State) (b : Block) (j : Nat) (e : EdgeBuffer)

/-! `State.withBlock` and `State.block` -/
@[simp] theorem withBlock_cfg : (s.withBlock b).cfg = s.cfg := rfl
@[simp] theorem withBlock_dec : (s.withBlock b).dec = b.dec := rfl
@[simp] theorem withBlock_dbn : (s.withBlock b).dbn = b.dbn := rfl
@[simp] theorem withBlock_enc : (s.withBlock b).enc = b.enc := rfl
@[simp] theorem withBlock_eng : (s.withBlock b).eng = b.eng := rfl
@[simp] theorem withBlock_buf : (s.withBlock b).buf = b.buf := rfl
@[simp] theorem withBlock_inp : (s.withBlock b).inp = b.inp := rfl
@[simp] theorem withBlock_act : (s.withBlock b).act = b.act := rfl
@[simp] theorem withBlock_bufs : (s.withBlock b).bufs = s.bufs := rfl
@[simp] theorem withBlock_peers : (s.withBlock b).peers = s.peers := rfl
@[simp] theorem withBlock_reply : (s.withBlock b).reply = s.reply := rfl
@[simp] theorem withBlock_inbox : (s.withBlock b).inbox = s.inbox := rfl
@[simp] theorem block_withBlock : (s.withBlock b).block = b := rfl
@[simp] theorem withBlock_block : s.withBlock s.block = s := rfl
@[simp] theorem block_dec : s.block.dec = s.dec := rfl
@[simp] theorem block_dbn : s.block.dbn = s.dbn := rfl
@[simp] theorem block_enc : s.block.enc = s.enc := rfl
@[simp] theorem block_eng : s.block.eng = s.eng := rfl
@[simp] theorem block_buf : s.block.buf = s.buf := rfl
@[simp] theorem block_inp : s.block.inp = s.inp := rfl
@[simp] theorem block_act : s.block.act = s.act := rfl

/-! `setBuffer` -/
@[simp] theorem setBuffer_cfg : (setBuffer s j e).cfg = s.cfg := rfl
@[simp] theorem setBuffer_dec : (setBuffer s j e).dec = s.dec := rfl
@[simp] theorem setBuffer_dbn : (setBuffer s j e).dbn = s.dbn := rfl
@[simp] theorem setBuffer_enc : (setBuffer s j e).enc = s.enc := rfl
@[simp] theorem setBuffer_eng : (setBuffer s j e).eng = s.eng := rfl
@[simp] theorem setBuffer_buf : (setBuffer s j e).buf = s.buf := rfl
@[simp] theorem setBuffer_inp : (setBuffer s j e).inp = s.inp := rfl
@[simp] theorem setBuffer_act : (setBuffer s j e).act = s.act := rfl
@[simp] theorem setBuffer_bufs : (setBuffer s j e).bufs = s.bufs.set j e := rfl
@[simp] theorem setBuffer_peers : (setBuffer s j e).peers = s.peers := rfl
@[simp] theorem setBuffer_reply : (setBuffer s j e).reply = s.reply := rfl
@[simp] theorem setBuffer_inbox : (setBuffer s j e).inbox = s.inbox := rfl
@[simp] theorem setBuffer_block : (setBuffer s j e).block = s.block := rfl

/-! `bumpCount` -/
@[simp] theorem bumpCount_cfg : (bumpCount j s).cfg = s.cfg := rfl
@[simp] theorem bumpCount_dec : (bumpCount j s).dec = s.dec := rfl
@[simp] theorem bumpCount_dbn : (bumpCount j s).dbn = s.dbn := rfl
@[simp] theorem bumpCount_enc : (bumpCount j s).enc = s.enc := rfl
@[simp] theorem bumpCount_eng : (bumpCount j s).eng = s.eng := rfl
@[simp] theorem bumpCount_buf : (bumpCount j s).buf = s.buf := rfl
@[simp] theorem bumpCount_inp : (bumpCount j s).inp = s.inp := rfl
@[simp] theorem bumpCount_act : (bumpCount j s).act = s.act := rfl
@[simp] theorem bumpCount_peers : (bumpCount j s).peers = s.peers := rfl
@[simp] theorem bumpCount_reply : (bumpCount j s).reply = s.reply := rfl
@[simp] theorem bumpCount_inbox : (bumpCount j s).inbox = s.inbox := rfl
@[simp] theorem bumpCount_block : (bumpCount j s).block = s.block := rfl

/-! `resetUnits` -/
@[simp] theorem resetUnits_cfg : (resetUnits s).cfg = s.cfg := rfl
@[simp] theorem resetUnits_dec : (resetUnits s).dec = Dec.reset := rfl
@[simp] theorem resetUnits_dbn : (resetUnits s).dbn = s.dbn.afterReset := rfl
@[simp] theorem resetUnits_enc : (resetUnits s).enc = Enc.reset := rfl
@[simp] theorem resetUnits_eng : (resetUnits s).eng = s.eng.afterReset := rfl
@[simp] theorem resetUnits_buf : (resetUnits s).buf = s.buf := rfl
@[simp] theorem resetUnits_inp : (resetUnits s).inp = s.inp := rfl
@[simp] theorem resetUnits_act : (resetUnits s).act = 0 := rfl
@[simp] theorem resetUnits_bufs : (resetUnits s).bufs = s.bufs := rfl
@[simp] theorem resetUnits_peers : (resetUnits s).peers = s.peers := rfl
@[simp] theorem resetUnits_reply : (resetUnits s).reply = s.reply := rfl
@[simp] theorem resetUnits_inbox : (resetUnits s).inbox = s.inbox := rfl

/-! The strobes that load a register, as one equation each -/
theorem decStart_eq :
    decStart s = { s with dec := if s.inp.start then s.dec.load s.cfg s.inp.countIn else s.dec } := by
  unfold decStart; split <;> rfl

theorem dbnConsume_eq :
    dbnConsume s = { s with dbn := if s.inp.resetDuration then s.dbn.clearDuration else s.dbn } := by
  unfold dbnConsume; split <;> rfl

theorem encLoad_eq :
    encLoad s = { s with enc := if s.inp.setCode then { s.enc with pending := s.inp.codeIn } else s.enc } := by
  unfold encLoad; split <;> rfl

@[simp] theorem dbnConsume_inp : (dbnConsume s).inp = s.inp := by rw [dbnConsume_eq]
@[simp] theorem dbnConsume_cfg : (dbnConsume s).cfg = s.cfg := by rw [dbnConsume_eq]
@[simp] theorem dbnConsume_dec : (dbnConsume s).dec = s.dec := by rw [dbnConsume_eq]
@[simp] theorem dbnConsume_enc : (dbnConsume s).enc = s.enc := by rw [dbnConsume_eq]
@[simp] theorem dbnConsume_eng : (dbnConsume s).eng = s.eng := by rw [dbnConsume_eq]
@[simp] theorem decStart_inp : (decStart s).inp = s.inp := by rw [decStart_eq]
@[simp] theorem decStart_cfg : (decStart s).cfg = s.cfg := by rw [decStart_eq]
@[simp] theorem decStart_dbn : (decStart s).dbn = s.dbn := by rw [decStart_eq]
@[simp] theorem decStart_enc : (decStart s).enc = s.enc := by rw [decStart_eq]
@[simp] theorem decStart_eng : (decStart s).eng = s.eng := by rw [decStart_eq]
@[simp] theorem encLoad_inp : (encLoad s).inp = s.inp := by rw [encLoad_eq]
@[simp] theorem encLoad_cfg : (encLoad s).cfg = s.cfg := by rw [encLoad_eq]
@[simp] theorem encLoad_dec : (encLoad s).dec = s.dec := by rw [encLoad_eq]
@[simp] theorem encLoad_dbn : (encLoad s).dbn = s.dbn := by rw [encLoad_eq]
@[simp] theorem encLoad_eng : (encLoad s).eng = s.eng := by rw [encLoad_eq]

/-! The invariant's parts for block 0 -/
theorem State.Inv.decoder {s : State} (h : s.Inv) : DecInv s.cfg.edgeCap s.dec := h.block.decoder
theorem State.Inv.encoder {s : State} (h : s.Inv) : EncInv s.cfg s.enc := h.block.encoder
theorem State.Inv.engine {s : State} (h : s.Inv) : EngInv s.eng := h.block.engine

end Sys2Proof.Machine
end

