-- ==== Sys2Proof/Laws/Ops.lean ====
section
/-! SUPPORT. What the shared operations can do: one lemma each, cited instead of unfolding the operation. -/

namespace Sys2Proof.Machine

@[simp] theorem andThen_next {σ τ φ ρ : Type} (s : σ) (f : σ → Host.Outcome τ φ ρ) :
    andThen (.next s) f = f s := rfl

@[simp] theorem andThen_fault {σ τ φ ρ : Type} (r : φ) (f : σ → Host.Outcome τ φ ρ) :
    andThen (.fault r) f = .fault r := rfl

@[simp] theorem andThen_refused {σ τ φ ρ : Type} (r : ρ) (f : σ → Host.Outcome τ φ ρ) :
    andThen (.refused r) f = .refused r := rfl

/-- A sequence answers a next state exactly when both its parts do. -/
theorem andThen_eq_next {σ τ φ ρ : Type} {o : Host.Outcome σ φ ρ} {f : σ → Host.Outcome τ φ ρ} {t : τ} :
    andThen o f = .next t ↔ ∃ s, o = .next s ∧ f s = .next t := by
  cases o <;> simp [andThen]

/-- A `DEC` row that answers a next state has passed the unit's check, and wrote `dec` alone or nothing. -/
theorem decRowStep_next {cond : Bool} {w : Dec → Dec} {s t : State} (h : decRowStep cond w s = .next t) :
    decCheck s = none ∧ t = if decBusy s && cond then { s with dec := w s.dec } else s := by
  unfold decRowStep at h
  split at h
  · cases h
  · next hc => exact ⟨hc, by cases h; rfl⟩

theorem decRowStep_ok {cond : Bool} {w : Dec → Dec} {s : State} (h : decCheck s = none) :
    decRowStep cond w s = .next (if decBusy s && cond then { s with dec := w s.dec } else s) := by
  simp [decRowStep, h]

/-- An `ENC` row that answers a next state has passed the unit's check, and wrote `enc` alone or nothing. -/
theorem encRowStep_next {cond : Bool} {w : Enc → Enc} {s t : State} (h : encRowStep cond w s = .next t) :
    encCheck s = none ∧ t = if cond then { s with enc := w s.enc } else s := by
  unfold encRowStep at h
  split at h
  · cases h
  · next hc => exact ⟨hc, by cases h; rfl⟩

theorem encRowStep_ok {cond : Bool} {w : Enc → Enc} {s : State} (h : encCheck s = none) :
    encRowStep cond w s = .next (if cond then { s with enc := w s.enc } else s) := by
  simp [encRowStep, h]

/-! ## Index arithmetic -/

theorem lt_two_pow_clog2 (n : Nat) : n < 2 ^ clog2 (n + 1) := by
  unfold clog2
  split
  · omega
  · exact Nat.lt_log2_self

/-- Every count the buffer can hold fits `IDX_W` bits. -/
theorem lt_idx {c : Config} {n : Nat} (h : n ≤ c.edgeCap) : n < 2 ^ c.idxW :=
  Nat.lt_of_le_of_lt h (lt_two_pow_clog2 c.edgeCap)

theorem toIdx_of_le {c : Config} {n : Nat} (h : n ≤ c.edgeCap) : toIdx c n = n := Nat.mod_eq_of_lt (lt_idx h)

/-- A difference that does not go below 0. -/
theorem idxSub_of_le {c : Config} {a b : Nat} (h : b ≤ a) : idxSub c a b = toIdx c (a - b) := by
  have hp := Nat.two_pow_pos c.idxW
  have hb : b = 2 ^ c.idxW * (b / 2 ^ c.idxW) + b % 2 ^ c.idxW := (Nat.div_add_mod b _).symm
  have hlt := Nat.mod_lt b hp
  have e : a + (2 ^ c.idxW - b % 2 ^ c.idxW) = (a - b) + 2 ^ c.idxW * (b / 2 ^ c.idxW + 1) := by
    rw [Nat.mul_add, Nat.mul_one]; omega
  unfold idxSub toIdx
  rw [e, Nat.add_mul_mod_self_left]

/-! ## The units' checks -/

/-- What stops a decoder reads the configuration and the decoder alone. -/
theorem decOut_congr {s t : State} (hc : s.cfg = t.cfg) (hd : s.dec = t.dec) : decOut s = decOut t := by
  simp [decOut, decBusy, hc, hd]

theorem decCheck_congr {s t : State} (hc : s.cfg = t.cfg) (hd : s.dec = t.dec) : decCheck s = decCheck t := by
  simp [decCheck, decOut_congr hc hd, hd]

/-- The encoder's check reads the encoder alone. -/
theorem encCheck_congr {s t : State} (he : s.enc = t.enc) : encCheck s = encCheck t := by
  simp [encCheck, he]

/-- What it takes for the decoder to pass its check. -/
theorem decCheck_eq_none {s : State} : decCheck s = none ↔ decStuck s.dec = false ∧ decOut s = false := by
  unfold decCheck
  split
  · simp_all
  · split <;> simp_all

/-- A decoder that takes no step reads no entry. -/
theorem decOut_of_stuck {s : State} (h : decStuck s.dec = true) : decOut s = false := by simp [decOut, h]

/-- What it takes for the encoder to pass its check. -/
theorem encCheck_eq_none {s : State} : encCheck s = none ↔ encStuck s.enc = false := by
  unfold encCheck; split <;> simp_all

/-- A decoder with its invariants stands in no combination of 30_encoding.md R98. -/
theorem decStuck_of_inv {cap : Nat} {d : Dec} (h : DecInv cap d) : decStuck d = false := by
  have hb := h.bitsLe
  have hp := h.pulse
  have hcl := h.clean
  simp only [decStuck, h.running, decUnreachable, Bool.or_eq_false_iff, decide_eq_false_iff_not, Nat.not_lt, true_and]
  refine ⟨⟨hb, ?_⟩, ?_⟩
  · by_cases hs : d.state = .sp
    · simp [hs, (hp hs).1]
    · simp [hs]
  · by_cases hd : d.done = false
    · by_cases hs : d.state = .idle ∨ d.state = .init
      · simp [(hcl hd hs).1]
      · simp only [not_or] at hs
        simp [hs.1, hs.2]
    · simp at hd
      simp [hd]

/-- The next entry a decoder with its invariants reads exists. -/
theorem decOut_of_inv {s : State} (h : DecInv s.cfg.edgeCap s.dec) : decOut s = false := by
  have := h.view
  by_contra hc
  simp [decOut, decBusy, Dec.busy] at hc
  omega

/-- A decoder with its invariants passes the check. -/
theorem decCheck_of_inv {s : State} (h : DecInv s.cfg.edgeCap s.dec) : decCheck s = none :=
  decCheck_eq_none.mpr ⟨decStuck_of_inv h, decOut_of_inv h⟩

/-- An encoder with its invariants stands in no combination of 30_encoding.md R98. -/
theorem encStuck_of_inv {c : Config} {e : Enc} (h : EncInv c e) : encStuck e = false := by
  have h1 := h.phaseLegal
  have h2 := h.counting
  simp only [encStuck, h.running, encUnreachable, Bool.or_eq_false_iff, true_and]
  refine ⟨by simp [h1], ?_⟩
  by_cases hp : e.phase = .idle
  · simp [hp]
  · have : e.cnt ≠ 0#16 := by
      intro hc
      have := (h2 hp).1
      rw [hc] at this
      simp at this
    simp [this]

/-- An encoder with its invariants passes the check. -/
theorem encCheck_of_inv {s : State} (h : EncInv s.cfg s.enc) : encCheck s = none :=
  encCheck_eq_none.mpr (encStuck_of_inv h)

/-- The invariant lets every clock edge pass the units' checks. -/
theorem State.Inv.unitsOk {s : State} (h : s.Inv) : unitsOk s :=
  ⟨decCheck_of_inv h.decoder, encCheck_of_inv h.encoder,
    fun b hb => decOut_of_inv (s := s.withBlock b) (h.others b hb).decoder⟩

end Sys2Proof.Machine
end

