-- ==== Sys2Proof/Laws/Select.lean ====
section
/-! SUPPORT. Which row a selector selects, as a case distinction on the selector's fields; and each unit's clock edge as the row it runs. -/

namespace Sys2Proof.Machine

/-- The `DEC` row for given selector fields: the "condition" column of 30_encoding.md R92. -/
def decRowOf (run : Bool) (st : DecState) (bz hPS hPP hRP hSIL hB0 hB1 : Bool) : DecRow :=
  match run, st with
  | false, _ => .halt
  | true, .idle => if hPS then .idlePrologue else .idleNoise
  | true, .init => if hPP then .initCommand else if hRP then .initRepetition else .initNoise
  | true, .ss => if bz then .ssComplete else if hSIL then .ssSilence else .ssNoise
  | true, .sp => if hB0 then .spBit0 else if hB1 then .spBit1 else .spNoise

theorem decodeDec_packDec (run : Bool) (st : DecState) (bz hPS hPP hRP hSIL hB0 hB1 : Bool) :
    decodeDec (packDec run st bz hPS hPP hRP hSIL hB0 hB1) = some (decRowOf run st bz hPS hPP hRP hSIL hB0 hB1) := by
  cases st <;> revert run bz hPS hPP hRP hSIL hB0 hB1 <;> decide

/-- The `DBN` row for given selector fields: the "condition" column of 30_encoding.md R93. -/
def dbnRowOf (poll : Bool) (st : DbnState) (lvl el : Bool) : DbnRow :=
  match poll, st with
  | false, _ => .noPoll
  | true, .released => if lvl then .press else .releasedHold
  | true, .pressedWait => if el then .pwElapsed else .pwHold
  | true, .pressed => if lvl then .pressedHold else .release
  | true, .releasedWait => if el then .rwElapsed else .rwHold

theorem decodeDbn_packDbn (poll : Bool) (st : DbnState) (lvl el : Bool) :
    decodeDbn (packDbn poll st lvl el) = some (dbnRowOf poll st lvl el) := by
  cases st <;> revert poll lvl el <;> decide

/-- The row of a busy encoder: no tick, more than one tick left, or the end of its phase. -/
def busyRow (tick ce : Bool) (atEnd : Option EncRow) : Option EncRow :=
  if tick then (if ce then atEnd else some .count) else some .wait

/-- The `ENC` row for given selector fields: the "condition" column of 30_encoding.md R94. -/
def encRowOf (poll tick : Bool) (ph : EncPhase) (pz ce lb : Bool) : Option EncRow :=
  match ph with
  | .idle => some (if poll then (if pz then .send else .nothing) else .noPoll)
  | .proOn => busyRow tick ce (some .proOnEnd)
  | .proOff => busyRow tick ce (some .proOffEnd)
  | .bitOn => busyRow tick ce (some .bitOnEnd)
  | .bitOff => busyRow tick ce (some (if lb then .bitOffLast else .bitOffNext))
  | .epiOn => busyRow tick ce (some .epiOnEnd)
  | .epiOff => busyRow tick ce (some .epiOffEnd)
  | .reserved => busyRow tick ce none

theorem decodeEnc_packEnc (poll tick : Bool) (ph : EncPhase) (pz ce lb : Bool) :
    decodeEnc (packEnc (ph != .idle) poll tick ph pz ce lb) = encRowOf poll tick ph pz ce lb := by
  cases ph <;> revert poll tick pz ce lb <;> decide

/-- The `ENG` row for given selector fields (30_encoding.md R95). -/
def engRowOf (poll m : Bool) : EngRow :=
  match poll, m with
  | false, _ => .noPoll
  | true, true => .fire
  | true, false => .noMatch

theorem decodeEng_packEng (poll m : Bool) : decodeEng (packEng poll m) = some (engRowOf poll m) := by
  revert poll m; decide

theorem decodeDec_decSelector (s : State) :
    decodeDec (decSelector s) =
      some (decRowOf (decBusy s) s.dec.state (s.dec.bits == 0#6) (decBusy s && inW s .ps) (decBusy s && inW s .pp)
        (decBusy s && inW s .rp) (decBusy s && inW s .sil) (decBusy s && inW s .b0) (decBusy s && inW s .b1)) :=
  decodeDec_packDec ..

theorem decodeDbn_dbnSelector (s : State) :
    decodeDbn (dbnSelector s) = some (dbnRowOf s.inp.dbnPoll s.dbn.state s.inp.level (debounceElapsed s)) :=
  decodeDbn_packDbn ..

theorem decodeEnc_encSelector (s : State) :
    decodeEnc (encSelector s) =
      encRowOf s.inp.encPoll s.inp.tick s.enc.phase (s.enc.pending != 0#32) (s.enc.cnt == 1#16) (s.enc.k == 31#5) :=
  decodeEnc_packEnc ..

theorem decodeEng_engSelector (s : State) :
    decodeEng (engSelector s) = some (engRowOf s.inp.engPoll (engFired s).isSome) :=
  decodeEng_packEng ..

/-- The edge of a decoder that takes steps runs the row its selector's fields name. -/
theorem decEdge_eq {s : State} (h : decStuck s.dec = false) :
    decEdge s =
      runDecRow (decRowOf (decBusy s) s.dec.state (s.dec.bits == 0#6) (decBusy s && inW s .ps) (decBusy s && inW s .pp)
        (decBusy s && inW s .rp) (decBusy s && inW s .sil) (decBusy s && inW s .b0) (decBusy s && inW s .b1)) s := by
  simp only [decEdge, h, Bool.false_eq_true, if_false, decodeDec_decSelector]

/-- The debouncer's edge runs the row its selector's fields name. -/
theorem dbnEdge_eq (s : State) :
    dbnEdge s = runDbnRow (dbnRowOf s.inp.dbnPoll s.dbn.state s.inp.level (debounceElapsed s)) s := by
  simp only [dbnEdge, decodeDbn_dbnSelector]

/-- The engine's edge runs the row its selector's fields name. -/
theorem engEdge_eq (s : State) : engEdge s = runEngRow (engRowOf s.inp.engPoll (engFired s).isSome) s := by
  simp only [engEdge, decodeEng_engSelector]

/-- A row is the instruction it is listed as. -/
theorem exec_decRow (r : DecRow) (s : State) : exec r.instr s = runDecRow r s := by cases r <;> rfl
theorem exec_dbnRow (r : DbnRow) (s : State) : exec r.instr s = runDbnRow r s := by cases r <;> rfl
theorem exec_encRow (r : EncRow) (s : State) : exec r.instr s = runEncRow r s := by cases r <;> rfl
theorem exec_engRow (r : EngRow) (s : State) : exec r.instr s = runEngRow r s := by cases r <;> rfl

end Sys2Proof.Machine
end

