-- ==== Sys2Proof/Laws/Edge.lean ====
section
/-! SUPPORT. What each unit's edge leaves: the registers its ordered transition table gives. -/

namespace Sys2Proof.Machine

/-- While busy, `DEC`'s table run by the engine, as a case distinction on the state. -/
theorem decEngineStep_eq (s : State) :
    decEngineStep s =
      match s.dec.state with
      | .idle =>
        if inW s .ps then { s.dec with p := idxAdd s.cfg s.dec.p 1, rem := idxSub s.cfg s.dec.rem 1, state := .init }
        else { s.dec with p := idxAdd s.cfg s.dec.p 2, rem := idxSub s.cfg s.dec.rem 2, state := .idle }
      | .init =>
        if inW s .pp then
          { s.dec with bits := 32#6, p := idxAdd s.cfg s.dec.p 1, rem := idxSub s.cfg s.dec.rem 1, state := .ss }
        else if inW s .rp then
          { s.dec with
            rep := true, bits := 0#6, p := idxAdd s.cfg s.dec.p 1, rem := idxSub s.cfg s.dec.rem 1, state := .ss }
        else
          { s.dec with
            code := 0#32, bits := 0#6, rep := false, p := idxAdd s.cfg s.dec.p 1, rem := idxSub s.cfg s.dec.rem 1,
            state := .idle }
      | .ss =>
        if s.dec.bits == 0#6 then { s.dec with done := true, rem := 0, state := .idle }
        else if inW s .sil then { s.dec with p := idxAdd s.cfg s.dec.p 1, rem := idxSub s.cfg s.dec.rem 1, state := .sp }
        else { s.dec with code := 0#32, bits := 0#6, rep := false, state := .idle }
      | .sp =>
        if inW s .b0 then
          { s.dec with
            code := s.dec.code <<< 1, bits := s.dec.bits - 1#6, p := idxAdd s.cfg s.dec.p 1, rem := idxSub s.cfg s.dec.rem 1,
            state := .ss }
        else if inW s .b1 then
          { s.dec with
            code := (s.dec.code <<< 1) ||| 1#32, bits := s.dec.bits - 1#6, p := idxAdd s.cfg s.dec.p 1,
            rem := idxSub s.cfg s.dec.rem 1, state := .ss }
        else
          { s.dec with
            code := 0#32, bits := 0#6, rep := false, p := idxAdd s.cfg s.dec.p 1, rem := idxSub s.cfg s.dec.rem 1,
            state := .idle } := by
  unfold decEngineStep engineSelect decTable
  cases hs : s.dec.state
  · cases h : inW s .ps <;>
      simp [entryFires, decGuard, decAction, DecState.code, DecState.ofCode, h, List.find?]
  · cases h : inW s .pp <;> cases h' : inW s .rp <;>
      simp [entryFires, decGuard, decAction, DecState.code, DecState.ofCode, h, h', List.find?]
  · cases h : (s.dec.bits == 0#6) <;> cases h' : inW s .sil <;>
      simp [entryFires, decGuard, decAction, DecState.code, DecState.ofCode, h, h', List.find?]
  · cases h : inW s .b0 <;> cases h' : inW s .b1 <;>
      simp [entryFires, decGuard, decAction, DecState.code, DecState.ofCode, h, h', List.find?]

/-- The same while the decoder's view is inside the buffer: the index arithmetic neither wraps nor goes below 0 (42_nec_decoder.md
R166). -/
theorem decEngineStep_nat {s : State} (hb : decBusy s = true) (hv : s.dec.p + s.dec.rem ≤ s.cfg.edgeCap) :
    decEngineStep s =
      match s.dec.state with
      | .idle =>
        if inW s .ps then { s.dec with p := s.dec.p + 1, rem := s.dec.rem - 1, state := .init }
        else { s.dec with p := s.dec.p + 2, rem := s.dec.rem - 2, state := .idle }
      | .init =>
        if inW s .pp then
          { s.dec with bits := 32#6, p := s.dec.p + 1, rem := s.dec.rem - 1, state := .ss }
        else if inW s .rp then
          { s.dec with
            rep := true, bits := 0#6, p := s.dec.p + 1, rem := s.dec.rem - 1, state := .ss }
        else
          { s.dec with
            code := 0#32, bits := 0#6, rep := false, p := s.dec.p + 1, rem := s.dec.rem - 1,
            state := .idle }
      | .ss =>
        if s.dec.bits == 0#6 then { s.dec with done := true, rem := 0, state := .idle }
        else if inW s .sil then { s.dec with p := s.dec.p + 1, rem := s.dec.rem - 1, state := .sp }
        else { s.dec with code := 0#32, bits := 0#6, rep := false, state := .idle }
      | .sp =>
        if inW s .b0 then
          { s.dec with
            code := s.dec.code <<< 1, bits := s.dec.bits - 1#6, p := s.dec.p + 1, rem := s.dec.rem - 1,
            state := .ss }
        else if inW s .b1 then
          { s.dec with
            code := (s.dec.code <<< 1) ||| 1#32, bits := s.dec.bits - 1#6, p := s.dec.p + 1,
            rem := s.dec.rem - 1, state := .ss }
        else
          { s.dec with
            code := 0#32, bits := 0#6, rep := false, p := s.dec.p + 1, rem := s.dec.rem - 1,
            state := .idle } := by
  have h2 : 2 ≤ s.dec.rem := by simpa [decBusy, Dec.busy] using hb
  have hp : ∀ k, k ≤ 2 → idxAdd s.cfg s.dec.p k = s.dec.p + k := fun k hk => toIdx_of_le (by omega)
  have hr : ∀ k, k ≤ 2 → idxSub s.cfg s.dec.rem k = s.dec.rem - k := fun k hk => by
    rw [idxSub_of_le (by omega), toIdx_of_le (by omega)]
  rw [decEngineStep_eq, hp 1 (by omega), hp 2 (by omega), hr 1 (by omega), hr 2 (by omega)]

/-- The decoder's edge, where the next entry it reads exists. -/
theorem decEdge_ok {s : State} (ho : decOut s = false) : decEdge s = .next { s with dec := decAdvance s } := by
  cases hk : decStuck s.dec
  case true => simp [decEdge, decAdvance, hk]
  have h : decCheck s = none := decCheck_eq_none.mpr ⟨hk, ho⟩
  rw [decEdge_eq hk]
  simp only [decAdvance, hk, Bool.false_eq_true, if_false]
  cases hb : decBusy s
  · simp [decRowOf, runDecRow, execDecHalt, h]
  · rw [decEngineStep_eq]
    cases hs : s.dec.state
    · cases h1 : inW s .ps <;>
        simp [decRowOf, runDecRow, execDecIdlePrologue, execDecIdleNoise, decRowStep_ok h, hb, hs, h1]
    · cases h1 : inW s .pp <;> cases h2 : inW s .rp <;>
        simp [decRowOf, runDecRow, execDecInitCommand, execDecInitRepetition, execDecInitNoise, decRowStep_ok h, hb, hs,
          h1, h2]
    · cases h1 : (s.dec.bits == 0#6) <;> cases h2 : inW s .sil <;>
        simp [decRowOf, runDecRow, execDecSsComplete, execDecSsSilence, execDecSsNoise, decRowStep_ok h, hb, hs, bne, h1,
          h2]
    · cases h1 : inW s .b0 <;> cases h2 : inW s .b1 <;>
        simp [decRowOf, runDecRow, execDecSpBit0, execDecSpBit1, execDecSpNoise, decRowStep_ok h, hb, hs, h1, h2]

/-- A decoder whose next entry does not exist stops the edge. -/
theorem decEdge_out {s : State} (h : decOut s = true) : decEdge s = .fault (.noSuchEntry (s.dec.p + 1)) := by
  have hk : decStuck s.dec = false := by
    cases hk : decStuck s.dec
    · rfl
    · rw [decOut_of_stuck hk] at h; cases h
  have hc : decCheck s = some (.noSuchEntry (s.dec.p + 1)) := by simp [decCheck, hk, h]
  rw [decEdge_eq hk]
  generalize decRowOf _ _ _ _ _ _ _ _ _ = r
  cases r <;>
    simp [runDecRow, execDecHalt, execDecIdlePrologue, execDecIdleNoise, execDecInitCommand, execDecInitRepetition,
      execDecInitNoise, execDecSsComplete, execDecSsSilence, execDecSsNoise, execDecSpBit0, execDecSpBit1, execDecSpNoise,
      decRowStep, hc]

/-- The debouncer's table run by the engine, as a case distinction on the state. -/
theorem dbnEngineStep_eq (s : State) :
    dbnEngineStep s =
      match s.dbn.state with
      | .released =>
        if s.inp.level then
          { s.dbn with tickPressed := s.inp.nowMs, nextTimeout := s.inp.nowMs + s.dbn.debounceTime, state := .pressedWait }
        else s.dbn
      | .pressedWait => if debounceElapsed s then { s.dbn with state := .pressed } else s.dbn
      | .pressed =>
        if s.inp.level then s.dbn
        else
          { s.dbn with
            duration := s.inp.nowMs - s.dbn.tickPressed
            nextTimeout := s.inp.nowMs + s.dbn.debounceTime
            state := .releasedWait }
      | .releasedWait => if debounceElapsed s then { s.dbn with state := .released } else s.dbn := by
  unfold dbnEngineStep engineSelect dbnTable
  cases hs : s.dbn.state
  · cases h : s.inp.level <;>
      simp [entryFires, dbnGuard, dbnAction, DbnState.code, DbnState.ofCode, h, List.find?]
  · cases h : debounceElapsed s <;>
      simp [entryFires, dbnGuard, dbnAction, DbnState.code, DbnState.ofCode, h, List.find?]
  · cases h : s.inp.level <;>
      simp [entryFires, dbnGuard, dbnAction, DbnState.code, DbnState.ofCode, h, List.find?]
  · cases h : debounceElapsed s <;>
      simp [entryFires, dbnGuard, dbnAction, DbnState.code, DbnState.ofCode, h, List.find?]

/-- The debouncer's edge. It never stops. -/
theorem dbnEdge_ok (s : State) : dbnEdge s = .next { s with dbn := dbnAdvance s } := by
  rw [dbnEdge_eq]
  unfold dbnAdvance
  cases hp : s.inp.dbnPoll
  · simp [dbnRowOf, runDbnRow, execDbNoPoll]
  · rw [dbnEngineStep_eq]
    cases hs : s.dbn.state
    · cases h : s.inp.level <;>
        simp [dbnRowOf, runDbnRow, execDbPress, execDbReleasedHold, dbnRowStep, hp, hs, h]
    · cases h : debounceElapsed s <;>
        simp [dbnRowOf, runDbnRow, execDbPwElapsed, execDbPwHold, dbnRowStep, hp, hs, h]
    · cases h : s.inp.level <;>
        simp [dbnRowOf, runDbnRow, execDbRelease, execDbPressedHold, dbnRowStep, hp, hs, h]
    · cases h : debounceElapsed s <;>
        simp [dbnRowOf, runDbnRow, execDbRwElapsed, execDbRwHold, dbnRowStep, hp, hs, h]

/-- The encoder's table run by the engine: `TRANSMIT` where a code is pending. -/
theorem encEngineStep_eq (s : State) :
    encEngineStep s = if s.enc.pending != 0#32 then s.enc.transmit s.cfg else s.enc := by
  unfold encEngineStep engineSelect encTable
  cases hs : s.enc.state
  cases h : (s.enc.pending != 0#32) <;> simp [entryFires, encGuard, encAction, EncState.code, h, List.find?]

/-- The encoder's edge. It never stops. -/
theorem encEdge_ok (s : State) : encEdge s = .next { s with enc := encAdvance s } := by
  cases hk : encStuck s.enc
  case true => simp [encEdge, encAdvance, hk]
  have h : encCheck s = none := encCheck_eq_none.mpr hk
  simp only [encEdge, hk, Bool.false_eq_true, if_false, decodeEnc_encSelector]
  cases hp : s.enc.phase
  case idle =>
    simp only [encAdvance, hk, Bool.false_eq_true, if_false, encBusy, hp, bne_self_eq_false, encRowOf, encEngineStep_eq]
    cases h1 : s.inp.encPoll <;> cases h2 : (s.enc.pending != 0#32) <;>
      simp [runEncRow, execEncSend, execEncNothing, execEncNoPoll, encRowStep_ok h, encBusy, hp, h1, h2]
  case reserved => simp [encStuck, encUnreachable, hp] at hk
  all_goals
    cases h1 : s.inp.tick <;> cases h2 : (s.enc.cnt == 1#16) <;> cases h3 : (s.enc.k == 31#5) <;>
      simp [encAdvance, hk, encBusy, encRowOf, busyRow, runEncRow, execEncWait, execEncCount, execEncProOnEnd,
        execEncProOffEnd, execEncBitOnEnd, execEncBitOffNext, execEncBitOffLast, execEncEpiOnEnd, execEncEpiOffEnd,
        encRowStep_ok h, lastTick, encTickStep, bne, hp, h1, h2, h3]

/-- The stand-alone engine's edge. It never stops. -/
theorem engEdge_ok (s : State) : engEdge s = .next { s with eng := (engAdvance s).1, act := (engAdvance s).2 } := by
  rw [engEdge_eq]
  unfold engAdvance
  cases hp : s.inp.engPoll
  · simp [engRowOf, runEngRow, execEngNoPoll, hp]
  · cases hf : engFired s <;> simp [engRowOf, runEngRow, execEngNoMatch, execEngFire, hp, hf]

/-- What an edge reads of a state is not changed by another unit's registers. -/
theorem inW_congr {s t : State} (hc : s.cfg = t.cfg) (hd : s.dec = t.dec) (he : s.edge = t.edge) (x : Window) :
    inW s x = inW t x := by
  simp only [inW, delta, edgeAt, hc, hd, he]

theorem edge_congr {s t : State} (h1 : s.buf = t.buf) (h2 : s.bufs = t.bufs) : s.edge = t.edge := by
  simp [State.edge, bufferAt, h1, h2]

theorem decEngineStep_congr {s t : State} (hc : s.cfg = t.cfg) (hd : s.dec = t.dec) (he : s.edge = t.edge) :
    decEngineStep s = decEngineStep t := by
  simp only [decEngineStep_eq, inW_congr hc hd he, hd, hc]

theorem decAdvance_congr {s t : State} (hc : s.cfg = t.cfg) (hd : s.dec = t.dec) (he : s.edge = t.edge) :
    decAdvance s = decAdvance t := by
  unfold decAdvance decBusy; rw [decEngineStep_congr hc hd he, hd]

theorem dbnAdvance_congr {s t : State} (hd : s.dbn = t.dbn) (hi : s.inp = t.inp) : dbnAdvance s = dbnAdvance t := by
  simp [dbnAdvance, dbnEngineStep_eq, debounceElapsed, hd, hi]

theorem encEngineStep_congr {s t : State} (hc : s.cfg = t.cfg) (he : s.enc = t.enc) :
    encEngineStep s = encEngineStep t := by
  simp [encEngineStep_eq, hc, he]

theorem encAdvance_congr {s t : State} (hc : s.cfg = t.cfg) (he : s.enc = t.enc) (hi : s.inp = t.inp) :
    encAdvance s = encAdvance t := by
  simp [encAdvance, encEngineStep_eq, encBusy, hc, he, hi]

theorem engAdvance_congr {s t : State} (he : s.eng = t.eng) (hi : s.inp = t.inp) : engAdvance s = engAdvance t := by
  simp [engAdvance, engFired, he, hi]

/-! ## One edge of one block -/

/-- The rows of the four units at an edge, where the decoder's next entry exists. -/
theorem unitSteps_ok {x : Inputs} {s : State} (hr : x.rst = false) (ho : decOut s = false) :
    unitSteps { s with inp := x } = .next (blockNext x s) := by
  have ho' : decOut { s with inp := x } = false := ho
  simp only [unitSteps, decEdge_ok ho', andThen_next, dbnEdge_ok, encEdge_ok, engEdge_ok, blockNext, hr, Bool.false_eq_true,
    if_false, encLoad_eq, dbnConsume_eq, decStart_eq, Host.Outcome.next.injEq, State.mk.injEq, true_and, and_true]
  have h1 : decAdvance { s with inp := x } = decAdvance s := decAdvance_congr rfl rfl rfl
  exact ⟨by rw [h1], dbnAdvance_congr rfl rfl,
    congrArg (fun e : Enc => if x.setCode = true then { e with pending := x.codeIn } else e) (encAdvance_congr rfl rfl rfl),
    congrArg Prod.fst (engAdvance_congr rfl rfl), congrArg Prod.snd (engAdvance_congr rfl rfl)⟩

/-- Everything an edge of block 0 can do: it is a reset; or the first refused strobe is refused; or the decoder reads an entry
that does not exist; or each unit takes its step. -/
theorem blockEdge_eq (x : Inputs) (s : State) :
    blockEdge x s =
      if x.rst then .next (blockNext x s)
      else
        match edgeRefusal x s with
        | some r => .refused r
        | none => if decOut s then .fault (.noSuchEntry (s.dec.p + 1)) else .next (blockNext x s) := by
  unfold blockEdge
  cases hr : x.rst
  case true => simp [blockNext, hr]
  cases he : edgeRefusal x s with
  | some r => rfl
  | none =>
    cases ho : decOut s
    · simp only [Bool.false_eq_true, if_false]
      exact unitSteps_ok hr ho
    · have ho' : decOut { s with inp := x } = true := ho
      simp [unitSteps, decEdge_out ho']

/-- An edge of block 0 completes exactly under `edgeRuns`. -/
theorem blockEdge_next {x : Inputs} {s t : State} :
    blockEdge x s = .next t ↔ edgeRuns x s ∧ t = blockNext x s := by
  rw [blockEdge_eq]
  unfold edgeRuns
  cases x.rst
  case true => simp only [if_true, true_or, true_and, Host.Outcome.next.injEq]; exact eq_comm
  cases he : edgeRefusal x s with
  | some r => simp
  | none => cases ho : decOut s <;> simp [eq_comm]

/-- A refused edge of block 0 has a refused strobe. -/
theorem blockEdge_refused {x : Inputs} {s : State} {r : Refusal} (h : blockEdge x s = .refused r) :
    x.rst = false ∧ edgeRefusal x s = some r := by
  rw [blockEdge_eq] at h
  cases hr : x.rst
  case true => simp [hr] at h
  cases he : edgeRefusal x s with
  | some r' => simp_all
  | none => cases ho : decOut s <;> simp [hr, he, ho] at h

/-- An edge of block 0 faults where the decoder's next entry does not exist, and nowhere else. -/
theorem blockEdge_fault {x : Inputs} {s : State} {f : Fault} (h : blockEdge x s = .fault f) :
    decOut s = true ∧ f = .noSuchEntry (s.dec.p + 1) := by
  rw [blockEdge_eq] at h
  cases hr : x.rst
  case true => simp [hr] at h
  cases he : edgeRefusal x s with
  | some r' => simp [hr, he] at h
  | none => cases ho : decOut s <;> simp_all

/-- What an edge leaves of the fields no unit writes. -/
theorem blockNext_frame (x : Inputs) (s : State) :
    (blockNext x s).cfg = s.cfg ∧ (blockNext x s).buf = s.buf ∧ (blockNext x s).bufs = s.bufs ∧
      (blockNext x s).peers = s.peers ∧ (blockNext x s).reply = s.reply ∧ (blockNext x s).inbox = s.inbox := by
  unfold blockNext; split <;> simp

/-- A block's registers after an edge depend on the configuration, the edge buffers and the block alone. -/
theorem blockNext_congr {x : Inputs} {s t : State} (hc : s.cfg = t.cfg) (he : s.edge = t.edge) (hb : s.block = t.block) :
    (blockNext x s).block = (blockNext x t).block := by
  simp only [State.block, Block.mk.injEq] at hb
  obtain ⟨h1, h2, h3, h4, h5, h6, h7⟩ := hb
  unfold blockNext
  split
  · simp [State.block, h2, h4, h5]
  · simp only [State.block, Block.mk.injEq, dbnConsume_eq]
    have h8 : encAdvance { s with inp := x } = encAdvance { t with inp := x } := encAdvance_congr hc h3 rfl
    exact ⟨by rw [decAdvance_congr hc h1 he, hc], dbnAdvance_congr (by simp [h2]) rfl,
      congrArg (fun e : Enc => if x.setCode = true then { e with pending := x.codeIn } else e) h8,
      congrArg Prod.fst (engAdvance_congr h4 rfl), h5, trivial, congrArg Prod.snd (engAdvance_congr h4 rfl)⟩

/-! ## One edge of every block -/

/-- What an edge leaves of the blocks `bs`, with the port values `xs`. -/
theorem peersEdge_next {s : State} {xs : List Inputs} {bs bs' : List Block} :
    peersEdge s xs bs = .next bs' ↔
      (∀ (k : Nat) (b : Block), bs[k]? = some b → edgeRuns (xs[k]?.getD Inputs.idle) (s.withBlock b)) ∧
        bs' = bs.mapIdx fun k b => (blockNext (xs[k]?.getD Inputs.idle) (s.withBlock b)).block := by
  induction bs generalizing xs bs' with
  | nil => simp [peersEdge, eq_comm]
  | cons b bs ih =>
    have hx : xs.headD Inputs.idle = xs[0]?.getD Inputs.idle := by cases xs <;> rfl
    have ht : ∀ k : Nat, xs.tail[k]? = xs[k + 1]? := by cases xs <;> simp
    simp only [peersEdge, andThen_eq_next, blockEdge_next, ih, hx, ht, List.mapIdx_cons, Host.Outcome.next.injEq]
    constructor
    · rintro ⟨t, ⟨h1, rfl⟩, bs'', ⟨h2, rfl⟩, rfl⟩
      refine ⟨?_, rfl⟩
      intro k c hk
      cases k with
      | zero => simp at hk; subst hk; exact h1
      | succ k => exact h2 k c (by simpa using hk)
    · rintro ⟨h1, rfl⟩
      exact ⟨_, ⟨h1 0 b rfl, rfl⟩, _, ⟨fun k c hk => h1 (k + 1) c (by simpa using hk), rfl⟩, rfl⟩

/-- An edge completes exactly where it completes for every block, and then leaves what it leaves of each. -/
theorem clockEdge_next {x : Inputs} {xs : List Inputs} {s t : State} :
    clockEdge x xs s = .next t ↔
      edgeRuns x s ∧ peersRun xs s ∧ t = { blockNext x s with peers := peersNext xs s } := by
  simp only [clockEdge, andThen_eq_next, blockEdge_next, peersEdge_next, Host.Outcome.next.injEq]
  constructor
  · rintro ⟨u, ⟨h1, rfl⟩, bs, ⟨h2, rfl⟩, rfl⟩
    exact ⟨h1, h2, rfl⟩
  · rintro ⟨h1, h2, rfl⟩
    exact ⟨_, ⟨h1, rfl⟩, _, ⟨h2, rfl⟩, rfl⟩

/-- With no strobe asserted nothing is refused. -/
theorem edgeRefusal_idle {x : Inputs} (h1 : x.start = false) (h2 : x.setCode = false) (s : State) : edgeRefusal x s = none := by
  simp [edgeRefusal, h1, h2]

/-- What an edge with no strobe leaves of a block: a busy decoder steps, and nothing else does. -/
theorem blockNext_idle (s : State) :
    (blockNext Inputs.idle s).block =
      { s.block with
        inp := Inputs.idle
        dec := decAdvance s
        enc := if encStuck s.enc then s.enc.recordFault else s.enc
        act := 0 } := by
  simp [blockNext, Inputs.idle, State.block, dbnAdvance, dbnConsume_eq, encAdvance, engAdvance]

/-- The other blocks at the edge of a host operation that is no reset. -/
theorem peersNext_tick (s : State) : peersNext (s.peers.map fun _ => Inputs.idle) s = peersTick s := by
  have h : ∀ k : Nat, (s.peers.map fun _ => Inputs.idle)[k]?.getD Inputs.idle = Inputs.idle := by
    intro k; rw [List.getElem?_map]; cases s.peers[k]? <;> rfl
  simp only [peersNext, h, blockNext_idle, peersTick, block_withBlock, withBlock_enc]
  apply List.ext_getElem?
  intro k
  rw [List.getElem?_mapIdx, List.getElem?_map]
  rfl

/-- The other blocks at a reset: each holds its reset values. -/
def peersReset (s : State) : List Block :=
  s.peers.map fun b => (resetUnits (s.withBlock { b with inp := { Inputs.idle with rst := true } })).block

theorem peersNext_reset (s : State) :
    peersNext (s.peers.map fun _ => { Inputs.idle with rst := true }) s = peersReset s := by
  apply List.ext_getElem?
  intro k
  simp only [peersNext, peersReset, List.getElem?_mapIdx, List.getElem?_map]
  cases s.peers[k]? <;> rfl

/-- The edge of a host operation: it completes where its strobes are not refused and no decoder stops, or as a reset. -/
theorem hostEdge_next {x : Inputs} {s t : State} :
    hostEdge x s = .next t ↔
      (x.rst = true ∧ t = { blockNext x s with peers := peersReset s }) ∨
      (x.rst = false ∧ edgeRefusal x s = none ∧ decOut s = false ∧ (∀ b ∈ s.peers, decOut (s.withBlock b) = false) ∧
        t = { blockNext x s with peers := peersTick s }) := by
  unfold hostEdge
  rw [clockEdge_next]
  cases hr : x.rst
  case true =>
    rw [peersNext_reset]
    simp only [edgeRuns, hr, true_or, true_and, Bool.true_eq_false, false_and, or_false, and_iff_right_iff_imp]
    rintro - k b hk
    left
    rw [List.getElem?_map, hk]
    rfl
  case false =>
    have e : ({ Inputs.idle with rst := false } : Inputs) = Inputs.idle := rfl
    rw [e, peersNext_tick]
    have hi : ∀ k : Nat, (s.peers.map fun _ => Inputs.idle)[k]?.getD Inputs.idle = Inputs.idle := by
      intro k; rw [List.getElem?_map]; cases s.peers[k]? <;> rfl
    have hp : peersRun (s.peers.map fun _ => Inputs.idle) s ↔ ∀ b ∈ s.peers, decOut (s.withBlock b) = false := by
      simp only [peersRun, hi, edgeRuns, edgeRefusal_idle (x := Inputs.idle) rfl rfl]
      constructor
      · intro h b hb
        obtain ⟨k, hk⟩ := List.getElem?_of_mem hb
        have := h k b hk
        simpa [Inputs.idle] using this
      · intro h k b hk
        exact .inr ⟨trivial, h b (List.mem_of_getElem? hk)⟩
    rw [hp]
    simp [edgeRuns, hr, and_assoc]

/-- A refused edge of a host operation has a refused strobe at block 0. -/
theorem hostEdge_refused {x : Inputs} {s : State} {r : Refusal} (h : hostEdge x s = .refused r) :
    x.rst = false ∧ edgeRefusal x s = some r := by
  have key : ∀ (bs : List Block) (c : Bool), peersEdge s (bs.map fun _ => { Inputs.idle with rst := c }) bs ≠ .refused r := by
    intro bs c
    induction bs with
    | nil => intro h; cases h
    | cons b bs ih =>
      intro h
      simp only [List.map_cons, peersEdge, List.headD_cons, List.tail_cons] at h
      cases hb : blockEdge { Inputs.idle with rst := c } (s.withBlock b) with
      | fault f => simp [hb] at h
      | refused r' => cases (blockEdge_refused hb).2
      | next u =>
        simp only [hb, andThen_next] at h
        cases hc : peersEdge s (bs.map fun _ => { Inputs.idle with rst := c }) bs with
        | next v => rw [hc] at h; cases h
        | fault f => rw [hc] at h; cases h
        | refused r' => simp only [hc, andThen_refused, Host.Outcome.refused.injEq] at h; subst h; exact ih hc
  unfold hostEdge clockEdge at h
  cases hb : blockEdge x s with
  | fault f => simp [hb] at h
  | refused r' => simp only [hb, andThen_refused, Host.Outcome.refused.injEq] at h; subst h; exact blockEdge_refused hb
  | next u =>
    simp only [hb, andThen_next] at h
    cases hc : peersEdge s (s.peers.map fun _ => { Inputs.idle with rst := x.rst }) s.peers with
    | next v => rw [hc] at h; cases h
    | fault f => rw [hc] at h; cases h
    | refused r' => simp only [hc, andThen_refused, Host.Outcome.refused.injEq] at h; subst h; exact absurd hc (key _ _)

/-- An edge faults only where some decoder's next entry does not exist. -/
theorem clockEdge_fault {x : Inputs} {xs : List Inputs} {s : State} {f : Fault} (h : clockEdge x xs s = .fault f) :
    decOut s = true ∨ ∃ b ∈ s.peers, decOut (s.withBlock b) = true := by
  have key : ∀ (bs : List Block) (ys : List Inputs) (g : Fault), peersEdge s ys bs = .fault g → ∃ b ∈ bs, decOut (s.withBlock b) = true := by
    intro bs
    induction bs with
    | nil => intro ys g h; cases h
    | cons b bs ih =>
      intro ys g h
      simp only [peersEdge] at h
      cases hb : blockEdge (ys.headD Inputs.idle) (s.withBlock b) with
      | fault f => exact ⟨b, List.mem_cons_self, (blockEdge_fault hb).1⟩
      | refused r' => rw [hb] at h; cases h
      | next u =>
        simp only [hb, andThen_next] at h
        cases hc : peersEdge s ys.tail bs with
        | next v => rw [hc] at h; cases h
        | refused f => rw [hc] at h; cases h
        | fault f =>
          obtain ⟨c, h1, h2⟩ := ih _ _ hc
          exact ⟨c, List.mem_cons_of_mem _ h1, h2⟩
  unfold clockEdge at h
  cases hb : blockEdge x s with
  | fault f => exact .inl (blockEdge_fault hb).1
  | refused r' => rw [hb] at h; cases h
  | next u =>
    simp only [hb, andThen_next] at h
    cases hc : peersEdge s xs s.peers with
    | next v => rw [hc] at h; cases h
    | refused f => rw [hc] at h; cases h
    | fault f => exact .inr (key _ _ _ hc)

end Sys2Proof.Machine
end

