-- ==== Sys2Proof/Laws/Exec.lean ====
section
/-! SUPPORT. What any instruction can do, said once: if it answers a next state, it was a clock edge with the ports it pulses, or a row that
wrote its own unit's registers as the unit's transition table says, or a construction, or a read. -/

namespace Sys2Proof.Machine

/-- The port values an instruction puts on the block's inputs, for those that are a clock edge. -/
def portsOf : Instr → Option Inputs
  | .fsmStep p => some (pollPorts p)
  | .dbResetDuration => some { Inputs.idle with resetDuration := true }
  | .decParse n => some { Inputs.idle with start := true, countIn := n }
  | .encSetCode v => some { Inputs.idle with setCode := true, codeIn := v }
  | .encTick => some { Inputs.idle with tick := true }
  | .clock => some Inputs.idle
  | .reset => some { Inputs.idle with rst := true }
  | _ => none

/-- The instructions that are a clock edge. -/
theorem portsOf_eq_some {i : Instr} {x : Inputs} (h : portsOf i = some x) :
    (∃ p, i = .fsmStep p ∧ x = pollPorts p) ∨ (i = .dbResetDuration ∧ x = { Inputs.idle with resetDuration := true }) ∨
    (∃ n, i = .decParse n ∧ x = { Inputs.idle with start := true, countIn := n }) ∨
    (∃ v, i = .encSetCode v ∧ x = { Inputs.idle with setCode := true, codeIn := v }) ∨
    (i = .encTick ∧ x = { Inputs.idle with tick := true }) ∨ (i = .clock ∧ x = Inputs.idle) ∨
    (i = .reset ∧ x = { Inputs.idle with rst := true }) := by
  cases i
  case fsmStep p => cases h; exact .inl ⟨p, rfl, rfl⟩
  case dbResetDuration => cases h; exact .inr (.inl ⟨rfl, rfl⟩)
  case decParse n => cases h; exact .inr (.inr (.inl ⟨n, rfl, rfl⟩))
  case encSetCode v => cases h; exact .inr (.inr (.inr (.inl ⟨v, rfl, rfl⟩)))
  case encTick => cases h; exact .inr (.inr (.inr (.inr (.inl ⟨rfl, rfl⟩))))
  case clock => cases h; exact .inr (.inr (.inr (.inr (.inr (.inl ⟨rfl, rfl⟩)))))
  case reset => cases h; exact .inr (.inr (.inr (.inr (.inr (.inr ⟨rfl, rfl⟩)))))
  all_goals cases h

/-- An instruction with ports is a clock edge, with those ports at block 0. -/
theorem exec_ports {i : Instr} {x : Inputs} (h : portsOf i = some x) (s : State) : exec i s = hostEdge x s := by
  cases i
  case fsmStep p => cases h; rfl
  case dbResetDuration => cases h; rfl
  case decParse n => cases h; rfl
  case encSetCode v => cases h; rfl
  case encTick => cases h; rfl
  case clock => cases h; rfl
  case reset => cases h; rfl
  all_goals cases h

/-- A decoder row either leaves the state, or is the engine's step of a busy decoder. -/
theorem runDecRow_next {r : DecRow} {s t : State} (h : runDecRow r s = .next t) :
    decCheck s = none ∧ (t = s ∨ decBusy s = true ∧ t = { s with dec := decEngineStep s }) := by
  have key : ∀ {c : Bool} {w : Dec → Dec}, decRowStep c w s = .next t → (c = true → w s.dec = decEngineStep s) →
      decCheck s = none ∧ (t = s ∨ decBusy s = true ∧ t = { s with dec := decEngineStep s }) := by
    intro c w hh hw
    obtain ⟨hn, rfl⟩ := decRowStep_next hh
    cases hb : decBusy s <;> cases c <;> simp_all
  cases r
  case halt =>
    simp only [runDecRow, execDecHalt] at h
    split at h
    · cases h
    · next hc => cases h; exact ⟨hc, .inl rfl⟩
  all_goals
    simp only [runDecRow, execDecIdlePrologue, execDecIdleNoise, execDecInitCommand, execDecInitRepetition, execDecInitNoise,
      execDecSsComplete, execDecSsSilence, execDecSsNoise, execDecSpBit0, execDecSpBit1, execDecSpNoise] at h
    refine key h fun hc => ?_
    rw [decEngineStep_eq]
    simp at hc
    simp_all

/-- A debouncer row either leaves the state, or is the engine's step. -/
theorem runDbnRow_next {r : DbnRow} {s t : State} (h : runDbnRow r s = .next t) :
    t = s ∨ t = { s with dbn := dbnEngineStep s } := by
  have key : ∀ {c : Bool} {w : Dbn → Dbn}, dbnRowStep c w s = .next t → (c = true → w s.dbn = dbnEngineStep s) →
      t = s ∨ t = { s with dbn := dbnEngineStep s } := by
    intro c w hh hw
    simp only [dbnRowStep, Host.Outcome.next.injEq] at hh
    subst hh
    cases hb : s.inp.dbnPoll <;> cases c <;> simp_all
  cases r
  case noPoll | releasedHold | pwHold | pressedHold | rwHold => cases h; exact .inl rfl
  all_goals
    simp only [runDbnRow, execDbPress, execDbPwElapsed, execDbRelease, execDbRwElapsed] at h
    refine key h fun hc => ?_
    rw [dbnEngineStep_eq]
    simp at hc
    simp_all

/-- An encoder row either leaves the state, or is what the encoder does at the edge. -/
theorem runEncRow_next {r : EncRow} {s t : State} (h : runEncRow r s = .next t) :
    encCheck s = none ∧ (t = s ∨ t = { s with enc := encAdvance s }) := by
  have key : ∀ {c : Bool} {w : Enc → Enc}, encRowStep c w s = .next t →
      (encStuck s.enc = false → c = true → w s.enc = encAdvance s) →
      encCheck s = none ∧ (t = s ∨ t = { s with enc := encAdvance s }) := by
    intro c w hh hw
    obtain ⟨hn, rfl⟩ := encRowStep_next hh
    have hw := hw (encCheck_eq_none.mp hn)
    cases c <;> simp_all
  cases r
  case noPoll | nothing | wait => exact key (show encRowStep false id s = .next t from h) (by simp)
  all_goals
    simp only [runEncRow, execEncSend, execEncCount, execEncProOnEnd,
      execEncProOffEnd, execEncBitOnEnd, execEncBitOffNext, execEncBitOffLast, execEncEpiOnEnd, execEncEpiOffEnd] at h
    refine key h fun hk hc => ?_
    simp [lastTick, encBusy] at hc
    simp_all [encAdvance, encBusy, encTickStep, encEngineStep_eq]

/-- An engine row writes the engine's state and the action strobe alone, as the engine's step does. -/
theorem runEngRow_next {r : EngRow} {s t : State} (h : runEngRow r s = .next t) :
    t = s ∨ t = { s with act := 0 } ∨
      ∃ e, engFired s = some e ∧ t = { s with eng := { s.eng with state := e.toState }, act := e.action } := by
  cases r
  case noPoll =>
    simp only [runEngRow, execEngNoPoll, Host.Outcome.next.injEq] at h
    split at h <;> simp [h]
  case fire =>
    simp only [runEngRow, execEngFire] at h
    split at h
    · next e _ he => cases h; exact .inr (.inr ⟨e, he, rfl⟩)
    · cases h; exact .inl rfl
  case noMatch =>
    simp only [runEngRow, execEngNoMatch, Host.Outcome.next.injEq] at h
    split at h <;> simp [h]

/-- Everything an instruction that answers a next state can have done. -/
theorem exec_cases {i : Instr} {s t : State} (h : exec i s = .next t) :
    (∃ x, portsOf i = some x ∧ hostEdge x s = .next t) ∨
    (∃ r : DecRow, i = r.instr ∧ runDecRow r s = .next t) ∨
    (∃ r : DbnRow, i = r.instr ∧ runDbnRow r s = .next t) ∨
    (∃ r : EncRow, i = r.instr ∧ runEncRow r s = .next t) ∨
    (∃ r : EngRow, i = r.instr ∧ runEngRow r s = .next t) ∨
    (∃ z ws s0, i = .fsmConstruct z ws s0 ∧ tableOk z ws = true ∧
      t = { s with eng := { sizes := z, state := s0, init := s0, table := ws.map (entryOfWord z) }, act := 0 }) ∨
    ((i = .dbGetDuration ∨ i = .dbIsActive ∨ i = .decReadResult ∧ decBusy s = false ∨ i = .encIsBusy) ∧
      ∃ r, t = { s with reply := r }) := by
  cases i
  case decHalt => exact .inr (.inl ⟨.halt, rfl, h⟩)
  case decIdlePrologue => exact .inr (.inl ⟨.idlePrologue, rfl, h⟩)
  case decIdleNoise => exact .inr (.inl ⟨.idleNoise, rfl, h⟩)
  case decInitCommand => exact .inr (.inl ⟨.initCommand, rfl, h⟩)
  case decInitRepetition => exact .inr (.inl ⟨.initRepetition, rfl, h⟩)
  case decInitNoise => exact .inr (.inl ⟨.initNoise, rfl, h⟩)
  case decSsComplete => exact .inr (.inl ⟨.ssComplete, rfl, h⟩)
  case decSsSilence => exact .inr (.inl ⟨.ssSilence, rfl, h⟩)
  case decSsNoise => exact .inr (.inl ⟨.ssNoise, rfl, h⟩)
  case decSpBit0 => exact .inr (.inl ⟨.spBit0, rfl, h⟩)
  case decSpBit1 => exact .inr (.inl ⟨.spBit1, rfl, h⟩)
  case decSpNoise => exact .inr (.inl ⟨.spNoise, rfl, h⟩)
  case dbNoPoll => exact .inr (.inr (.inl ⟨.noPoll, rfl, h⟩))
  case dbPress => exact .inr (.inr (.inl ⟨.press, rfl, h⟩))
  case dbReleasedHold => exact .inr (.inr (.inl ⟨.releasedHold, rfl, h⟩))
  case dbPwElapsed => exact .inr (.inr (.inl ⟨.pwElapsed, rfl, h⟩))
  case dbPwHold => exact .inr (.inr (.inl ⟨.pwHold, rfl, h⟩))
  case dbRelease => exact .inr (.inr (.inl ⟨.release, rfl, h⟩))
  case dbPressedHold => exact .inr (.inr (.inl ⟨.pressedHold, rfl, h⟩))
  case dbRwElapsed => exact .inr (.inr (.inl ⟨.rwElapsed, rfl, h⟩))
  case dbRwHold => exact .inr (.inr (.inl ⟨.rwHold, rfl, h⟩))
  case encNoPoll => exact .inr (.inr (.inr (.inl ⟨.noPoll, rfl, h⟩)))
  case encSend => exact .inr (.inr (.inr (.inl ⟨.send, rfl, h⟩)))
  case encNothing => exact .inr (.inr (.inr (.inl ⟨.nothing, rfl, h⟩)))
  case encWait => exact .inr (.inr (.inr (.inl ⟨.wait, rfl, h⟩)))
  case encCount => exact .inr (.inr (.inr (.inl ⟨.count, rfl, h⟩)))
  case encProOnEnd => exact .inr (.inr (.inr (.inl ⟨.proOnEnd, rfl, h⟩)))
  case encProOffEnd => exact .inr (.inr (.inr (.inl ⟨.proOffEnd, rfl, h⟩)))
  case encBitOnEnd => exact .inr (.inr (.inr (.inl ⟨.bitOnEnd, rfl, h⟩)))
  case encBitOffNext => exact .inr (.inr (.inr (.inl ⟨.bitOffNext, rfl, h⟩)))
  case encBitOffLast => exact .inr (.inr (.inr (.inl ⟨.bitOffLast, rfl, h⟩)))
  case encEpiOnEnd => exact .inr (.inr (.inr (.inl ⟨.epiOnEnd, rfl, h⟩)))
  case encEpiOffEnd => exact .inr (.inr (.inr (.inl ⟨.epiOffEnd, rfl, h⟩)))
  case engNoPoll => exact .inr (.inr (.inr (.inr (.inl ⟨.noPoll, rfl, h⟩))))
  case engFire => exact .inr (.inr (.inr (.inr (.inl ⟨.fire, rfl, h⟩))))
  case engNoMatch => exact .inr (.inr (.inr (.inr (.inl ⟨.noMatch, rfl, h⟩))))
  case fsmConstruct z ws s0 =>
    simp only [exec, execFsmConstruct] at h
    split at h
    · next ht => cases h; exact .inr (.inr (.inr (.inr (.inr (.inl ⟨z, ws, s0, rfl, ht, rfl⟩)))))
    · cases h
  case dbGetDuration => cases h; exact .inr (.inr (.inr (.inr (.inr (.inr ⟨.inl rfl, _, rfl⟩)))))
  case dbIsActive => cases h; exact .inr (.inr (.inr (.inr (.inr (.inr ⟨.inr (.inl rfl), _, rfl⟩)))))
  case encIsBusy => cases h; exact .inr (.inr (.inr (.inr (.inr (.inr ⟨.inr (.inr (.inr rfl)), _, rfl⟩)))))
  case decReadResult =>
    simp only [exec, execDecReadResult] at h
    split at h
    · cases h
    · next hb =>
      cases h
      exact .inr (.inr (.inr (.inr (.inr (.inr ⟨.inr (.inr (.inl ⟨rfl, by simpa using hb⟩)), _, rfl⟩)))))
  case reserved0 | reservedC | reservedD | reservedE => cases h
  all_goals exact .inl ⟨_, rfl, h⟩

end Sys2Proof.Machine
end

