-- ==== Sys2Proof/Laws/Memory.lean ====
section
/-! SUPPORT. The edge buffer's cells keep their canonical form under every operation on them. -/

namespace Sys2Proof.Machine

/-- Every listed index is at least `n`. -/
def startsAt (n : Nat) : List EdgeCell → Prop
  | [] => True
  | (a, _) :: _ => n ≤ a

theorem wfCells_cons {a : Nat} {v : W32} {m : List EdgeCell} :
    wfCells ((a, v) :: m) = true ↔ v ≠ unlistedEntry ∧ startsAt (a + 1) m ∧ wfCells m = true := by
  cases m with
  | nil => simp [wfCells, startsAt]
  | cons x m =>
    obtain ⟨b, w⟩ := x
    simp only [wfCells, startsAt, Bool.and_eq_true, bne_iff_ne, decide_eq_true_eq]
    exact ⟨fun ⟨⟨h1, h2⟩, h3⟩ => ⟨h1, by omega, h3⟩, fun ⟨h1, h2, h3⟩ => ⟨⟨h1, by omega⟩, h3⟩⟩

theorem startsAt_mono {n k : Nat} {m : List EdgeCell} (h : startsAt n m) (hk : k ≤ n) : startsAt k m := by
  cases m with
  | nil => trivial
  | cons x m => exact Nat.le_trans hk h

theorem writeEntry_startsAt {m : List EdgeCell} {n i : Nat} {v : W32} (hm : startsAt n m) (hw : wfCells m = true)
    (hi : n ≤ i) : startsAt n (writeEntry m i v) := by
  cases m with
  | nil =>
    unfold writeEntry
    split
    · trivial
    · exact hi
  | cons x m =>
    obtain ⟨a, w⟩ := x
    have hm' : n ≤ a := hm
    obtain ⟨-, h2, -⟩ := wfCells_cons.mp hw
    unfold writeEntry
    split
    · split <;> assumption
    · split
      · split
        · exact startsAt_mono h2 (by omega)
        · exact hm'
      · exact hm'

/-- A write keeps the canonical form. -/
theorem writeEntry_wf {m : List EdgeCell} {i : Nat} {v : W32} (h : wfCells m = true) :
    wfCells (writeEntry m i v) = true := by
  induction m with
  | nil =>
    unfold writeEntry
    split
    · rfl
    · next hv => simpa [wfCells] using hv
  | cons x m ih =>
    obtain ⟨a, w⟩ := x
    obtain ⟨h1, h2, h3⟩ := wfCells_cons.mp h
    unfold writeEntry
    split
    · split
      · exact h
      · next hlt hv => exact wfCells_cons.mpr ⟨hv, by show i + 1 ≤ a; omega, h⟩
    · split
      · split
        · exact h3
        · next hv => exact wfCells_cons.mpr ⟨hv, h2, h3⟩
      · exact wfCells_cons.mpr ⟨h1, writeEntry_startsAt h2 h3 (by omega), ih h3⟩

/-- A write lists no index but its own and those listed before. -/
theorem mem_writeEntry {m : List EdgeCell} {i : Nat} {v : W32} {x : EdgeCell} (h : x ∈ writeEntry m i v) :
    x ∈ m ∨ x.1 = i := by
  induction m with
  | nil =>
    unfold writeEntry at h
    split at h <;> simp_all
  | cons y m ih =>
    obtain ⟨a, w⟩ := y
    unfold writeEntry at h
    split at h
    · split at h
      · exact .inl h
      · rcases List.mem_cons.mp h with h | h
        · exact .inr (by rw [h])
        · exact .inl h
    · split at h
      · next hia =>
        split at h
        · exact .inl (List.mem_cons_of_mem _ h)
        · rcases List.mem_cons.mp h with h | h
          · exact .inr (by rw [h]; exact hia.symm)
          · exact .inl (List.mem_cons_of_mem _ h)
      · rcases List.mem_cons.mp h with h | h
        · exact .inl (by simp [h])
        · rcases ih h with h | h
          · exact .inl (List.mem_cons_of_mem _ h)
          · exact .inr h

/-- Every edge buffer is in canonical form. -/
abbrev Memory.wf (s : State) : Prop := ∀ e ∈ s.bufs, wfCells e.cells = true

/-- A buffer of a state whose buffers are in canonical form is, whether or not it exists. -/
theorem Memory.wf_bufferAt {s : State} (h : Memory.wf s) (j : Nat) : wfCells (bufferAt s j).cells = true := by
  unfold bufferAt
  rw [List.getD_eq_getElem?_getD]
  cases hj : s.bufs[j]? with
  | none => rfl
  | some e => exact h e (List.mem_of_getElem? hj)

/-- Setting one buffer to one in canonical form keeps the form. -/
theorem Memory.wf_setBuffer {s : State} {j : Nat} {e : EdgeBuffer} (h : Memory.wf s) (he : wfCells e.cells = true) :
    Memory.wf (setBuffer s j e) := by
  intro x hx
  rcases List.mem_or_eq_of_mem_set hx with hx | rfl
  · exact h x hx
  · exact he

/-- The buffers right after reset are in canonical form. -/
theorem reset_cells_wf : Memory.wf State.reset := by decide

/-- A write by the capture agent that is taken is to an entry that exists, outside every borrowed view, and sets that entry of that
buffer alone. -/
theorem agentWrite_next {j i : Nat} {v : W32} {s t : State} (h : agentWrite j i v s = .next t) :
    i < s.cfg.edgeCap ∧ inBorrowedView s j i = false ∧
      t = setBuffer s j { bufferAt s j with cells := writeEntry (bufferAt s j).cells i v } := by
  unfold agentWrite at h
  split at h
  · cases h
  · next hi =>
    split at h
    · cases h
    · next hb => cases h; exact ⟨by omega, by simpa using hb, rfl⟩

/-- An append writes the next entry and shows it, or does nothing where capture is disabled or the buffer is full. -/
theorem agentAppend_next {j : Nat} {v : W32} {s t : State} (h : agentAppend j v s = .next t) :
    (t = s ∧ ((bufferAt s j).capEnabled = false ∨ s.cfg.edgeCap ≤ (bufferAt s j).count)) ∨
    ((bufferAt s j).capEnabled = true ∧ (bufferAt s j).count < s.cfg.edgeCap ∧
      ∃ u, agentWrite j (bufferAt s j).count v s = .next u ∧ t = bumpCount j u) := by
  unfold agentAppend at h
  split at h
  · next hc => cases h; exact .inl ⟨rfl, by simpa using hc⟩
  · next hc =>
    obtain ⟨u, hu, ht⟩ := andThen_eq_next.mp h
    cases ht
    simp at hc
    exact .inr ⟨hc.1, hc.2, u, hu, rfl⟩

/-- A clear that is taken found the buffer quiesced. -/
theorem agentClear_next {j : Nat} {s t : State} (h : agentClear j s = .next t) :
    (bufferAt s j).capEnabled = false ∧ bufferInUse s j = false ∧
      t = setBuffer s j { bufferAt s j with cells := [], count := 0 } := by
  unfold agentClear at h
  split at h
  · cases h
  · next hc => cases h; simp at hc; exact ⟨hc.1, hc.2, rfl⟩

/-- What an action on a buffer that exists does. -/
theorem onBuffer_next {j : Nat} {f : State → Host.Outcome State Fault Refusal} {s t : State} (h : onBuffer j f s = .next t) :
    j < s.bufs.length ∧ f s = .next t := by
  unfold onBuffer at h
  split at h
  · next hj => exact ⟨hj, h⟩
  · cases h

theorem onBuffer_ok {j : Nat} {s : State} (h : j < s.bufs.length) (f : State → Host.Outcome State Fault Refusal) :
    onBuffer j f s = f s := if_pos h

/-- Reading the buffers of a state after one was set. -/
theorem bufferAt_setBuffer {s : State} {j : Nat} (h : j < s.bufs.length) (e : EdgeBuffer) (k : Nat) :
    bufferAt (setBuffer s j e) k = if k = j then e else bufferAt s k := by
  simp only [bufferAt, setBuffer_bufs, List.getD_eq_getElem?_getD, List.getElem?_set]
  by_cases hk : k = j
  · simp [hk, h]
  · simp [hk, Ne.symm hk]

/-- The capture agent's write keeps the canonical form. -/
theorem agentWrite_wf {j i : Nat} {v : W32} {s t : State} (h : agentWrite j i v s = .next t) (hw : Memory.wf s) :
    Memory.wf t := by
  obtain ⟨-, -, rfl⟩ := agentWrite_next h
  exact Memory.wf_setBuffer hw (writeEntry_wf (Memory.wf_bufferAt hw j))

/-- An append keeps the canonical form. -/
theorem agentAppend_wf {j : Nat} {v : W32} {s t : State} (h : agentAppend j v s = .next t) (hw : Memory.wf s) :
    Memory.wf t := by
  obtain ⟨rfl, -⟩ | ⟨-, -, u, hu, rfl⟩ := agentAppend_next h
  · exact hw
  · have := agentWrite_wf hu hw
    exact Memory.wf_setBuffer this (Memory.wf_bufferAt this j)

/-- A clear keeps the canonical form. -/
theorem agentClear_wf {j : Nat} {s t : State} (h : agentClear j s = .next t) (hw : Memory.wf s) : Memory.wf t := by
  obtain ⟨-, -, rfl⟩ := agentClear_next h
  exact Memory.wf_setBuffer hw rfl

/-- Enabling capture keeps the canonical form. -/
theorem agentEnable_wf {j : Nat} {b : Bool} {s t : State} (h : agentEnable j b s = .next t) (hw : Memory.wf s) :
    Memory.wf t := by
  cases h; exact Memory.wf_setBuffer hw (Memory.wf_bufferAt hw j)

/-- Instantiating a block keeps the canonical form. -/
theorem instantiate_wf {d : W32} {n j : Nat} {s : State} (hw : Memory.wf s) : Memory.wf (instantiate d n j s) := by
  intro e he
  simp only [instantiate] at he
  split at he
  · exact hw e he
  · rcases List.mem_append.mp he with he | he
    · exact hw e he
    · simp at he; subst he; rfl

/-! ## Naming a block -/

/-- There is a block to exchange exactly where it exists. -/
theorem exchange_eq_some {k : Nat} {s : State} (h : k ≤ s.peers.length) : ∃ u, exchange k s = some u := by
  cases k with
  | zero => exact ⟨s, rfl⟩
  | succ k => simp [exchange, List.getElem?_eq_getElem (show k < s.peers.length by omega)]

theorem exchange_eq_none {k : Nat} {s : State} (h : s.peers.length < k) : exchange k s = none := by
  cases k with
  | zero => omega
  | succ k => simp [exchange, List.getElem?_eq_none (show s.peers.length ≤ k by omega)]

/-- Exchanging a block twice gives the state back. -/
theorem exchange_exchange {k : Nat} {s u : State} (h : exchange k s = some u) : exchange k u = some s := by
  cases k with
  | zero => cases h; rfl
  | succ k =>
    unfold exchange at h
    cases hk : s.peers[k]? with
    | none => simp [hk] at h
    | some b =>
      simp only [hk, Option.some.injEq] at h
      subst h
      obtain ⟨hlt, rfl⟩ := List.getElem?_eq_some_iff.mp hk
      have : s.peers.set k s.peers[k] = s.peers := List.set_getElem_self hlt
      simp only [exchange, List.getElem?_set_self hlt, State.withBlock, State.block, List.set_set, Option.some.injEq]
      exact congrArg (fun p => ({ s with peers := p } : State)) this

end Sys2Proof.Machine
end

