-- ==== Sys2Proof/Laws/PerInstr.lean ====
section
/-! SUPPORT. Families of lemmas, one lemma per constructor of `Instr`. -/

namespace Sys2Proof.Laws

-- many small theorems: one after another, not each on a thread of its own
set_option Elab.async false

/-- The word of an instruction fits its code space: the widths of 30_encoding.md R91 and R93 to R96. -/
def EncodeWidth.Statement (i : Instr) : Prop := (encode i).bits < 2 ^ (encode i).fmt.width

theorem EncodeWidth.decHalt : EncodeWidth.Statement .decHalt := by simp [EncodeWidth.Statement, encode, CodeSpace.width]
theorem EncodeWidth.decIdlePrologue :
    EncodeWidth.Statement .decIdlePrologue := by simp [EncodeWidth.Statement, encode, CodeSpace.width]
theorem EncodeWidth.decIdleNoise :
    EncodeWidth.Statement .decIdleNoise := by simp [EncodeWidth.Statement, encode, CodeSpace.width]
theorem EncodeWidth.decInitCommand :
    EncodeWidth.Statement .decInitCommand := by simp [EncodeWidth.Statement, encode, CodeSpace.width]
theorem EncodeWidth.decInitRepetition :
    EncodeWidth.Statement .decInitRepetition := by simp [EncodeWidth.Statement, encode, CodeSpace.width]
theorem EncodeWidth.decInitNoise :
    EncodeWidth.Statement .decInitNoise := by simp [EncodeWidth.Statement, encode, CodeSpace.width]
theorem EncodeWidth.decSsComplete :
    EncodeWidth.Statement .decSsComplete := by simp [EncodeWidth.Statement, encode, CodeSpace.width]
theorem EncodeWidth.decSsSilence :
    EncodeWidth.Statement .decSsSilence := by simp [EncodeWidth.Statement, encode, CodeSpace.width]
theorem EncodeWidth.decSsNoise :
    EncodeWidth.Statement .decSsNoise := by simp [EncodeWidth.Statement, encode, CodeSpace.width]
theorem EncodeWidth.decSpBit0 :
    EncodeWidth.Statement .decSpBit0 := by simp [EncodeWidth.Statement, encode, CodeSpace.width]
theorem EncodeWidth.decSpBit1 :
    EncodeWidth.Statement .decSpBit1 := by simp [EncodeWidth.Statement, encode, CodeSpace.width]
theorem EncodeWidth.decSpNoise :
    EncodeWidth.Statement .decSpNoise := by simp [EncodeWidth.Statement, encode, CodeSpace.width]
theorem EncodeWidth.dbNoPoll :
    EncodeWidth.Statement .dbNoPoll := by simp [EncodeWidth.Statement, encode, CodeSpace.width]
theorem EncodeWidth.dbPress : EncodeWidth.Statement .dbPress := by simp [EncodeWidth.Statement, encode, CodeSpace.width]
theorem EncodeWidth.dbReleasedHold :
    EncodeWidth.Statement .dbReleasedHold := by simp [EncodeWidth.Statement, encode, CodeSpace.width]
theorem EncodeWidth.dbPwElapsed :
    EncodeWidth.Statement .dbPwElapsed := by simp [EncodeWidth.Statement, encode, CodeSpace.width]
theorem EncodeWidth.dbPwHold :
    EncodeWidth.Statement .dbPwHold := by simp [EncodeWidth.Statement, encode, CodeSpace.width]
theorem EncodeWidth.dbRelease :
    EncodeWidth.Statement .dbRelease := by simp [EncodeWidth.Statement, encode, CodeSpace.width]
theorem EncodeWidth.dbPressedHold :
    EncodeWidth.Statement .dbPressedHold := by simp [EncodeWidth.Statement, encode, CodeSpace.width]
theorem EncodeWidth.dbRwElapsed :
    EncodeWidth.Statement .dbRwElapsed := by simp [EncodeWidth.Statement, encode, CodeSpace.width]
theorem EncodeWidth.dbRwHold :
    EncodeWidth.Statement .dbRwHold := by simp [EncodeWidth.Statement, encode, CodeSpace.width]
theorem EncodeWidth.encNoPoll :
    EncodeWidth.Statement .encNoPoll := by simp [EncodeWidth.Statement, encode, CodeSpace.width]
theorem EncodeWidth.encSend : EncodeWidth.Statement .encSend := by simp [EncodeWidth.Statement, encode, CodeSpace.width]
theorem EncodeWidth.encNothing :
    EncodeWidth.Statement .encNothing := by simp [EncodeWidth.Statement, encode, CodeSpace.width]
theorem EncodeWidth.encWait : EncodeWidth.Statement .encWait := by simp [EncodeWidth.Statement, encode, CodeSpace.width]
theorem EncodeWidth.encCount :
    EncodeWidth.Statement .encCount := by simp [EncodeWidth.Statement, encode, CodeSpace.width]
theorem EncodeWidth.encProOnEnd :
    EncodeWidth.Statement .encProOnEnd := by simp [EncodeWidth.Statement, encode, CodeSpace.width]
theorem EncodeWidth.encProOffEnd :
    EncodeWidth.Statement .encProOffEnd := by simp [EncodeWidth.Statement, encode, CodeSpace.width]
theorem EncodeWidth.encBitOnEnd :
    EncodeWidth.Statement .encBitOnEnd := by simp [EncodeWidth.Statement, encode, CodeSpace.width]
theorem EncodeWidth.encBitOffNext :
    EncodeWidth.Statement .encBitOffNext := by simp [EncodeWidth.Statement, encode, CodeSpace.width]
theorem EncodeWidth.encBitOffLast :
    EncodeWidth.Statement .encBitOffLast := by simp [EncodeWidth.Statement, encode, CodeSpace.width]
theorem EncodeWidth.encEpiOnEnd :
    EncodeWidth.Statement .encEpiOnEnd := by simp [EncodeWidth.Statement, encode, CodeSpace.width]
theorem EncodeWidth.encEpiOffEnd :
    EncodeWidth.Statement .encEpiOffEnd := by simp [EncodeWidth.Statement, encode, CodeSpace.width]
theorem EncodeWidth.engNoPoll :
    EncodeWidth.Statement .engNoPoll := by simp [EncodeWidth.Statement, encode, CodeSpace.width]
theorem EncodeWidth.engFire : EncodeWidth.Statement .engFire := by simp [EncodeWidth.Statement, encode, CodeSpace.width]
theorem EncodeWidth.engNoMatch :
    EncodeWidth.Statement .engNoMatch := by simp [EncodeWidth.Statement, encode, CodeSpace.width]
theorem EncodeWidth.fsmConstruct (sizes : EngSizes) (table : List Nat) (initState : Nat) :
    EncodeWidth.Statement (.fsmConstruct sizes table initState) := by simp [EncodeWidth.Statement, encode, CodeSpace.width]
theorem EncodeWidth.fsmStep (inputs : PollInputs) :
    EncodeWidth.Statement (.fsmStep inputs) := by simp [EncodeWidth.Statement, encode, CodeSpace.width]
theorem EncodeWidth.dbGetDuration :
    EncodeWidth.Statement .dbGetDuration := by simp [EncodeWidth.Statement, encode, CodeSpace.width]
theorem EncodeWidth.dbResetDuration :
    EncodeWidth.Statement .dbResetDuration := by simp [EncodeWidth.Statement, encode, CodeSpace.width]
theorem EncodeWidth.dbIsActive :
    EncodeWidth.Statement .dbIsActive := by simp [EncodeWidth.Statement, encode, CodeSpace.width]
theorem EncodeWidth.decParse (n : Nat) :
    EncodeWidth.Statement (.decParse n) := by simp [EncodeWidth.Statement, encode, CodeSpace.width]
theorem EncodeWidth.decReadResult :
    EncodeWidth.Statement .decReadResult := by simp [EncodeWidth.Statement, encode, CodeSpace.width]
theorem EncodeWidth.encSetCode (v : W32) :
    EncodeWidth.Statement (.encSetCode v) := by simp [EncodeWidth.Statement, encode, CodeSpace.width]
theorem EncodeWidth.encIsBusy :
    EncodeWidth.Statement .encIsBusy := by simp [EncodeWidth.Statement, encode, CodeSpace.width]
theorem EncodeWidth.encTick : EncodeWidth.Statement .encTick := by simp [EncodeWidth.Statement, encode, CodeSpace.width]
theorem EncodeWidth.clock : EncodeWidth.Statement .clock := by simp [EncodeWidth.Statement, encode, CodeSpace.width]
theorem EncodeWidth.reset : EncodeWidth.Statement .reset := by simp [EncodeWidth.Statement, encode, CodeSpace.width]
theorem EncodeWidth.reserved0 :
    EncodeWidth.Statement .reserved0 := by simp [EncodeWidth.Statement, encode, CodeSpace.width]
theorem EncodeWidth.reservedC :
    EncodeWidth.Statement .reservedC := by simp [EncodeWidth.Statement, encode, CodeSpace.width]
theorem EncodeWidth.reservedD :
    EncodeWidth.Statement .reservedD := by simp [EncodeWidth.Statement, encode, CodeSpace.width]
theorem EncodeWidth.reservedE :
    EncodeWidth.Statement .reservedE := by simp [EncodeWidth.Statement, encode, CodeSpace.width]

end Sys2Proof.Laws
end

