-- ==== Sys2Proof/Tests/Slice0.lean ====
section
/-! SUPPORT. Tests of the model. Expected results come from 95_test_vectors.md and the tables of 30_encoding.md; the vector is named in each
test's docstring. At the end, one witness for the hypotheses of each obligation that has any. -/

namespace Sys2Proof.Tests

-- many small theorems: one after another, not each on a thread of its own
set_option Elab.async false

open Sys2Proof.Machine

/-! ## Helpers -/

/-- Is the outcome a next state with the property? -/
def nextAnd (o : Host.Outcome State Fault Refusal) (p : State → Bool) : Bool :=
  match o with
  | .next t => p t
  | .fault _ => false
  | .refused _ => false

/-- Is the outcome that refusal? -/
def refusedWith (o : Host.Outcome State Fault Refusal) (r : Refusal) : Bool :=
  match o with
  | .refused q => q == r
  | .next _ => false
  | .fault _ => false

/-- Is the outcome that fault? -/
def faultsWith (o : Host.Outcome State Fault Refusal) (f : Fault) : Bool :=
  match o with
  | .fault g => g == f
  | .next _ => false
  | .refused _ => false

/-- The reset state with a decoder whose delta at the cursor is `d`. -/
def decState (st : DecState) (p rem : Nat) (bits : BitVec 6) (code : W32) (rep : Bool) (d : W32) : State :=
  { State.reset with
    dec := { state := st, p := p, rem := rem, bits := bits, code := code, rep := rep, done := false, faulted := false }
    bufs := [{ cells := [(p, 100#32), (p + 1, 100#32 + d)], count := p + 2, capEnabled := false }] }

/-- The reset state with a debouncer that is polled. -/
def dbnState (st : DbnState) (tp nt dur now : W32) (lvl : Bool) : State :=
  { State.reset with
    dbn := { State.reset.dbn with state := st, tickPressed := tp, nextTimeout := nt, duration := dur }
    inp := { Inputs.idle with dbnPoll := true, nowMs := now, level := lvl } }

/-- The reset state with an encoder in a frame of `0x00FF1AE5`, at a tick. -/
def encState (ph : EncPhase) (k : BitVec 5) (cnt : W16) (on : Bool) : State :=
  { State.reset with
    enc :=
      { state := .ready, pending := 0x00FF1AE5#32, phase := ph, shreg := 0x00FF1AE5#32, k := k, cnt := cnt, irOn := on,
        faulted := false }
    inp := { Inputs.idle with tick := true } }

/-- The sizes of the DEMO engine of 95_test_vectors.md section 2.1. -/
def demoSizes : EngSizes := ⟨2, 4, 3, 2⟩

/-- The words of the DEMO table. -/
def demoWords : List Nat := [0x0B, 0x14, 0x20, 0x48]

/-- The reset state with the DEMO engine in a state, at an edge with a poll and the guards `g1`, `g2`. -/
def demoState (st : Nat) (poll : Bool) (g : List Bool) : State :=
  { State.reset with
    eng := { sizes := demoSizes, state := st, init := 0, table := demoWords.map (entryOfWord demoSizes) }
    inp := { Inputs.idle with engPoll := poll, g := g } }

/-! ## Well-formedness: an ill-formed term for each check -/

theorem test_wf_state_width : (Instr.fsmConstruct ⟨0, 0, 1, 1⟩ [] 0).wf = false := by decide
theorem test_wf_guard_count : (Instr.fsmConstruct ⟨1, 0, 0, 1⟩ [] 0).wf = false := by decide
theorem test_wf_action_count : (Instr.fsmConstruct ⟨1, 0, 1, 0⟩ [] 0).wf = false := by decide
/-- The DEMO entry word has 7 bits. -/
theorem test_wf_table_word : (Instr.fsmConstruct demoSizes [0x80] 0).wf = false := by decide
theorem test_wf_init_state : (Instr.fsmConstruct demoSizes [] 4).wf = false := by decide
/-- The decoder refuses what the check refuses. -/
theorem test_decoder_refuses_ill_formed : decode ⟨.hostOp, 0x1, [1, 1, 2, 1, 0, 0x80]⟩ = .error .illFormed := by decide

/-! ## Decoding: words written from the tables of 30_encoding.md -/

/-- R92, `run state bz hPS hPP hRP hSIL hB0 hB1`: each word has every bit its mask leaves open set where the row allows it. -/
theorem test_decode_dec_rows :
    decode ⟨.decSelector, 0b0110000000, []⟩ = .ok .decHalt ∧
    decode ⟨.decSelector, 0b1001100000, []⟩ = .ok .decIdlePrologue ∧
    decode ⟨.decSelector, 0b1001011111, []⟩ = .ok .decIdleNoise ∧
    decode ⟨.decSelector, 0b1011011000, []⟩ = .ok .decInitCommand ∧
    decode ⟨.decSelector, 0b1011001000, []⟩ = .ok .decInitRepetition ∧
    decode ⟨.decSelector, 0b1011100111, []⟩ = .ok .decInitNoise ∧
    decode ⟨.decSelector, 0b1101000100, []⟩ = .ok .decSsComplete ∧
    decode ⟨.decSelector, 0b1100000110, []⟩ = .ok .decSsSilence ∧
    decode ⟨.decSelector, 0b1100001001, []⟩ = .ok .decSsNoise ∧
    decode ⟨.decSelector, 0b1110000110, []⟩ = .ok .decSpBit0 ∧
    decode ⟨.decSelector, 0b1110000001, []⟩ = .ok .decSpBit1 ∧
    decode ⟨.decSelector, 0b1110001100, []⟩ = .ok .decSpNoise := by decide

/-- R93, `poll state lvl el`. -/
theorem test_decode_dbn_rows :
    decode ⟨.dbnSelector, 0b01111, []⟩ = .ok .dbNoPoll ∧
    decode ⟨.dbnSelector, 0b10011, []⟩ = .ok .dbPress ∧
    decode ⟨.dbnSelector, 0b10001, []⟩ = .ok .dbReleasedHold ∧
    decode ⟨.dbnSelector, 0b10111, []⟩ = .ok .dbPwElapsed ∧
    decode ⟨.dbnSelector, 0b10110, []⟩ = .ok .dbPwHold ∧
    decode ⟨.dbnSelector, 0b11001, []⟩ = .ok .dbRelease ∧
    decode ⟨.dbnSelector, 0b11011, []⟩ = .ok .dbPressedHold ∧
    decode ⟨.dbnSelector, 0b11101, []⟩ = .ok .dbRwElapsed ∧
    decode ⟨.dbnSelector, 0b11110, []⟩ = .ok .dbRwHold := by decide

/-- R94, `busy poll tick phase pz ce lb`. -/
theorem test_decode_enc_rows :
    decode ⟨.encSelector, 0b001000100, []⟩ = .ok .encNoPoll ∧
    decode ⟨.encSelector, 0b010000100, []⟩ = .ok .encSend ∧
    decode ⟨.encSelector, 0b011000010, []⟩ = .ok .encNothing ∧
    decode ⟨.encSelector, 0b110001010, []⟩ = .ok .encWait ∧
    decode ⟨.encSelector, 0b101011101, []⟩ = .ok .encCount ∧
    decode ⟨.encSelector, 0b111001110, []⟩ = .ok .encProOnEnd ∧
    decode ⟨.encSelector, 0b101010111, []⟩ = .ok .encProOffEnd ∧
    decode ⟨.encSelector, 0b101011111, []⟩ = .ok .encBitOnEnd ∧
    decode ⟨.encSelector, 0b101100110, []⟩ = .ok .encBitOffNext ∧
    decode ⟨.encSelector, 0b101100111, []⟩ = .ok .encBitOffLast ∧
    decode ⟨.encSelector, 0b101101111, []⟩ = .ok .encEpiOnEnd ∧
    decode ⟨.encSelector, 0b101110111, []⟩ = .ok .encEpiOffEnd := by decide

/-- R94: the reserved phase code at the end of a phase has no row. -/
theorem test_decode_enc_reserved_phase : decode ⟨.encSelector, 0b101111010, []⟩ = .error .noRow := by decide

/-- R95, `poll match`. -/
theorem test_decode_eng_rows :
    decode ⟨.engSelector, 0b01, []⟩ = .ok .engNoPoll ∧ decode ⟨.engSelector, 0b11, []⟩ = .ok .engFire ∧
    decode ⟨.engSelector, 0b10, []⟩ = .ok .engNoMatch := by decide

/-- R96 and R97. -/
theorem test_decode_host_operations :
    decode ⟨.hostOp, 0x0, []⟩ = .ok .reserved0 ∧
    decode ⟨.hostOp, 0x1, [1, 4, 2, 1, 0, 0x0B, 0x14, 0x20, 0x48]⟩ = .ok (.fsmConstruct demoSizes demoWords 0) ∧
    decode ⟨.hostOp, 0x2, [1, 1000, 1]⟩ = .ok (.fsmStep (.dbn 1000#32 true)) ∧
    decode ⟨.hostOp, 0x2, [2]⟩ = .ok (.fsmStep .enc) ∧
    decode ⟨.hostOp, 0x2, [0, 1, 0]⟩ = .ok (.fsmStep (.eng [true, false])) ∧
    decode ⟨.hostOp, 0x3, []⟩ = .ok .dbGetDuration ∧
    decode ⟨.hostOp, 0x4, []⟩ = .ok .dbResetDuration ∧
    decode ⟨.hostOp, 0x5, []⟩ = .ok .dbIsActive ∧
    decode ⟨.hostOp, 0x6, [68]⟩ = .ok (.decParse 68) ∧
    decode ⟨.hostOp, 0x7, []⟩ = .ok .decReadResult ∧
    decode ⟨.hostOp, 0x8, [0x00FF1AE5]⟩ = .ok (.encSetCode 0x00FF1AE5#32) ∧
    decode ⟨.hostOp, 0x9, []⟩ = .ok .encIsBusy ∧
    decode ⟨.hostOp, 0xA, []⟩ = .ok .encTick ∧
    decode ⟨.hostOp, 0xB, []⟩ = .ok .clock ∧
    decode ⟨.hostOp, 0xC, []⟩ = .ok .reservedC ∧
    decode ⟨.hostOp, 0xD, []⟩ = .ok .reservedD ∧
    decode ⟨.hostOp, 0xE, []⟩ = .ok .reservedE ∧
    decode ⟨.hostOp, 0xF, []⟩ = .ok .reset := by decide

/-- R97: a reserved code is reserved whatever operands come with it. -/
theorem test_decode_reserved_with_operands :
    [0x0, 0xC, 0xD, 0xE].map (fun c => decode ⟨.hostOp, c, [5, 4294967296]⟩) =
      [.ok .reserved0, .ok .reservedC, .ok .reservedD, .ok .reservedE] := by decide

/-- A word above its code space, an operand above its port, a missing operand, an unknown unit. -/
theorem test_decode_rejects_by_name :
    decode ⟨.hostOp, 0x10, []⟩ = .error .wordTooWide ∧ decode ⟨.decSelector, 0x400, []⟩ = .error .wordTooWide ∧
    decode ⟨.hostOp, 0x8, [4294967296]⟩ = .error .operandTooWide ∧
    decode ⟨.hostOp, 0x6, []⟩ = .error .badOperandCount ∧ decode ⟨.hostOp, 0x2, [3]⟩ = .error .badUnit := by decide

/-- The table's words, with the row's own number of bits. -/
theorem test_table_words :
    decodeTableWord 10 0x000 = some .decHalt ∧ decodeTableWord 10 0x382 = some .decSpBit0 ∧
    decodeTableWord 9 0x163 = some .encBitOffLast ∧ decodeTableWord 5 0x18 = some .dbRelease ∧
    decodeTableWord 2 0x3 = some .engFire ∧ decodeTableWord 4 0xE = some .reservedE ∧
    decodeTableWord 16 0x382 = some .decSpBit0 ∧ decodeTableWord 16 0x163 = some .encBitOffLast ∧
    decodeTableWord 8 0x18 = some .dbRelease ∧ decodeTableWord 8 0x6 = some (.decParse 0) := by decide

/-- Placed words run as the first step after reset: `DEC_SP_BIT0` appends a 0, `DB_RELEASE` leaves PRESSED, `ENC_SEND` starts a frame. -/
theorem test_placed_words_run :
    nextAnd (step (State.reset.withFetchWord 10 0x382)) (fun t => t.dec.state == .ss && t.dec.bits == 0#6) = true ∧
    nextAnd (step (State.reset.withFetchWord 5 0x18)) (fun t => t.dbn.state == .releasedWait) = true ∧
    nextAnd (step (State.reset.withFetchWord 9 0x084)) (fun t => t.enc.phase == .proOn && t.enc.cnt == 160#16) = true ∧
    refusedWith (step (State.reset.withFetchWord 4 0xC)) .reservedHostOp = true := by decide

/-! ## Decoder rows -/

/-- V2: one edge, not busy. -/
theorem test_dec_halt :
    nextAnd (exec .decHalt (decState .idle 0 1 0#6 0#32 false 9000#32)) (fun t => t.dec.rem == 1 && t.dec.p == 0) = true := by
  decide

/-- V6: the prologue window is closed at 8800. -/
theorem test_dec_idle_prologue :
    nextAnd (exec .decIdlePrologue (decState .idle 0 2 0#6 0#32 false 8800#32))
      (fun t => t.dec.state == .init && t.dec.p == 1 && t.dec.rem == 1) = true := by decide

/-- V7: a timestamp wrap between the two edges. -/
theorem test_dec_delta_wraps :
    nextAnd (exec .clock { decState .idle 0 2 0#6 0#32 false 0#32 with
        bufs := [{ cells := [(0, 0xFFFFF000#32), (1, 0x00001328#32)], count := 2, capEnabled := false }] })
      (fun t => t.dec.state == .init) = true := by decide

/-- V4: 8799 is noise; two edges are skipped. -/
theorem test_dec_idle_noise :
    nextAnd (exec .decIdleNoise (decState .idle 0 2 0#6 0#32 false 8799#32))
      (fun t => t.dec.state == .idle && t.dec.p == 2 && t.dec.rem == 0) = true := by decide

/-- V11. -/
theorem test_dec_init_command :
    nextAnd (exec .decInitCommand (decState .init 1 2 0#6 0#32 false 4700#32))
      (fun t => t.dec.state == .ss && t.dec.p == 2 && t.dec.rem == 1 && t.dec.bits == 32#6) = true := by decide

/-- V10. -/
theorem test_dec_init_repetition :
    nextAnd (exec .decInitRepetition (decState .init 1 2 0#6 0#32 false 2700#32))
      (fun t => t.dec.state == .ss && t.dec.p == 2 && t.dec.rem == 1 && t.dec.bits == 0#6 && t.dec.rep) = true := by decide

/-- V9. -/
theorem test_dec_init_noise :
    nextAnd (exec .decInitNoise (decState .init 1 2 0#6 0#32 false 4299#32))
      (fun t => t.dec.state == .idle && t.dec.p == 2 && t.dec.rem == 1 && !t.dec.rep) = true := by decide

/-- P1, `CLOCK` 67. -/
theorem test_dec_ss_complete :
    nextAnd (exec .decSsComplete (decState .ss 66 2 0#6 0x00FF1AE5#32 false 550#32))
      (fun t => t.dec.state == .idle && t.dec.p == 66 && t.dec.rem == 0 && t.dec.done && codeOut t == 0x00FF1AE5#32)
      = true := by decide

/-- V13. -/
theorem test_dec_ss_silence :
    nextAnd (exec .decSsSilence (decState .ss 2 3 32#6 0#32 false 400#32))
      (fun t => t.dec.state == .sp && t.dec.p == 3 && t.dec.rem == 2 && t.dec.bits == 32#6) = true := by decide

/-- V12: the cursor does not advance. -/
theorem test_dec_ss_noise :
    nextAnd (exec .decSsNoise (decState .ss 2 3 32#6 0#32 false 399#32))
      (fun t => t.dec.state == .idle && t.dec.p == 2 && t.dec.rem == 3 && t.dec.bits == 0#6) = true := by decide

/-- V15. -/
theorem test_dec_sp_bit0 :
    nextAnd (exec .decSpBit0 (decState .sp 3 2 32#6 0#32 false 700#32))
      (fun t => t.dec.state == .ss && t.dec.p == 4 && t.dec.rem == 1 && t.dec.bits == 31#6 && t.dec.code == 0#32)
      = true := by decide

/-- V19 and V18: the last bit of `0x00FF1AE5` is a 1. -/
theorem test_dec_sp_bit1 :
    nextAnd (exec .decSpBit1 (decState .sp 65 2 1#6 0x007F8D72#32 false 1500#32))
      (fun t => t.dec.state == .ss && t.dec.p == 66 && t.dec.rem == 1 && t.dec.bits == 0#6 && t.dec.code == 0x00FF1AE5#32)
      = true := by decide

/-- V14: the partial code is discarded. -/
theorem test_dec_sp_noise :
    nextAnd (exec .decSpNoise (decState .sp 3 2 31#6 1#32 false 1801#32))
      (fun t => t.dec.state == .idle && t.dec.p == 4 && t.dec.rem == 1 && t.dec.code == 0#32 && t.dec.bits == 0#6)
      = true := by decide

/-- 30_encoding.md R98: SP with no bits remaining. Its rows fault; a clock edge steps the unit no further and the others go on. -/
theorem test_dec_unreachable :
    faultsWith (exec .decSpBit0 (decState .sp 3 2 0#6 0#32 false 550#32)) (.unreachable .dec) = true ∧
    nextAnd (exec (.fsmStep (.dbn 7#32 true)) (decState .sp 3 2 0#6 0#32 false 550#32))
      (fun t => t.dec.faulted && t.dec.state == .sp && t.dec.p == 3 && t.dbn.state == .pressedWait) = true := by decide

/-- 00_scope.md R10: the cursor is modulo `2^IDX_W`; 9 bits for `EDGE_CAP` = 256. -/
theorem test_dec_cursor_wraps :
    idxAdd Config.default 511 1 = 0 ∧ idxSub Config.default 0 2 = 510 ∧ Config.default.idxW = 9 := by decide

/-! ## Debouncer rows -/

/-- D12. -/
theorem test_db_no_poll :
    nextAnd (exec .clock { dbnState .released 0#32 0#32 0#32 5#32 true with inp := Inputs.idle })
      (fun t => t.dbn.state == .released && t.dbn.tickPressed == 0#32) = true := by decide

/-- D13: the deadline wraps. -/
theorem test_db_press :
    nextAnd (exec .dbPress (dbnState .released 0#32 0#32 0#32 0xFFFFFFC0#32 true))
      (fun t => t.dbn.state == .pressedWait && t.dbn.nextTimeout == 0x56#32 && t.dbn.tickPressed == 0xFFFFFFC0#32)
      = true := by decide

/-- D11. -/
theorem test_db_released_hold :
    nextAnd (exec .dbReleasedHold (dbnState .released 1000#32 2350#32 1200#32 2400#32 false))
      (fun t => t.dbn.duration == 1200#32 && !isActive t) = true := by decide

/-- D5: the bound is inclusive. -/
theorem test_db_pw_elapsed :
    nextAnd (exec .dbPwElapsed (dbnState .pressedWait 1000#32 1150#32 0#32 1150#32 true))
      (fun t => t.dbn.state == .pressed) = true := by decide

/-- D14, after the wrap. -/
theorem test_db_pw_hold :
    nextAnd (exec (.fsmStep (.dbn 0x10#32 true)) (dbnState .pressedWait 0xFFFFFF00#32 0xFFFFFF96#32 0#32 0#32 true))
      (fun t => t.dbn.state == .pressedWait) = true := by decide

/-- D16: the duration is modulo 2^32. -/
theorem test_db_release :
    nextAnd (exec .dbRelease (dbnState .pressed 0xFFFFFF00#32 0xFFFFFF96#32 0#32 0x100#32 false))
      (fun t => t.dbn.state == .releasedWait && t.dbn.duration == 512#32 && t.dbn.nextTimeout == 0x196#32) = true := by
  decide

/-- D7. -/
theorem test_db_pressed_hold :
    nextAnd (exec .dbPressedHold (dbnState .pressed 1000#32 1150#32 0#32 2100#32 true))
      (fun t => t.dbn.state == .pressed && t.dbn.duration == 0#32) = true := by decide

/-- D10. -/
theorem test_db_rw_elapsed :
    nextAnd (exec .dbRwElapsed (dbnState .releasedWait 1000#32 2350#32 1200#32 2350#32 false))
      (fun t => t.dbn.state == .released && t.dbn.duration == 1200#32) = true := by decide

/-- D9. -/
theorem test_db_rw_hold :
    nextAnd (exec .dbRwHold (dbnState .releasedWait 1000#32 2350#32 1200#32 2250#32 true))
      (fun t => t.dbn.state == .releasedWait) = true := by decide

/-- D18: the step's write wins over `reset_duration`. -/
theorem test_db_release_beats_reset_duration :
    nextAnd (clockEdge { Inputs.idle with dbnPoll := true, nowMs := 2200#32, resetDuration := true } []
        (dbnState .pressed 1000#32 1150#32 77#32 0#32 false))
      (fun t => t.dbn.duration == 1200#32) = true := by decide

/-- D20 and D21. -/
theorem test_db_reads :
    nextAnd (exec .dbGetDuration (dbnState .released 1000#32 2350#32 1200#32 0#32 false))
      (fun t => t.reply == .word 1200#32 && t.dbn.duration == 1200#32) = true ∧
    nextAnd (exec .dbIsActive (dbnState .releasedWait 1000#32 2350#32 1200#32 0#32 false))
      (fun t => t.reply == .flag true) = true := by decide

/-- D19. -/
theorem test_db_reset_duration :
    nextAnd (exec .dbResetDuration (dbnState .released 1000#32 2350#32 1200#32 0#32 false))
      (fun t => t.dbn.duration == 0#32 && t.dbn.state == .released && t.dbn.tickPressed == 1000#32) = true := by decide

/-! ## Encoder rows -/

/-- N2: a tick is ignored while not busy. -/
theorem test_enc_no_poll :
    nextAnd (exec .encTick State.reset) (fun t => t.enc == State.reset.enc) = true := by decide

/-- N4. -/
theorem test_enc_send :
    nextAnd (exec (.fsmStep .enc) { State.reset with enc := { State.reset.enc with pending := 0x00FF1AE5#32 } })
      (fun t => t.enc.phase == .proOn && t.enc.cnt == 160#16 && t.enc.shreg == 0x00FF1AE5#32 && t.enc.k == 0#5 &&
        carrierEn t && encBusy t) = true := by decide

/-- N1. -/
theorem test_enc_nothing :
    nextAnd (exec (.fsmStep .enc) State.reset) (fun t => t.enc == State.reset.enc) = true := by decide

/-- N6 and N7: no tick, no change, and `poll` is ignored. -/
theorem test_enc_wait :
    nextAnd (exec (.fsmStep .enc) (encState .proOn 0#5 160#16 true)) (fun t => t.enc.cnt == 160#16) = true ∧
    nextAnd (exec .clock (encState .proOn 0#5 160#16 true)) (fun t => t.enc.cnt == 160#16) = true := by decide

/-- N8. -/
theorem test_enc_count :
    nextAnd (exec .encTick (encState .proOn 0#5 160#16 true)) (fun t => t.enc.cnt == 159#16) = true := by decide

/-- Section 2.4, tick 160. -/
theorem test_enc_pro_on_end :
    nextAnd (exec .encProOnEnd (encState .proOn 0#5 1#16 true))
      (fun t => t.enc.phase == .proOff && t.enc.cnt == 80#16 && !t.enc.irOn) = true := by decide

/-- Section 2.4, tick 240. -/
theorem test_enc_pro_off_end :
    nextAnd (exec .encProOffEnd (encState .proOff 0#5 1#16 false))
      (fun t => t.enc.phase == .bitOn && t.enc.cnt == 10#16 && t.enc.irOn) = true := by decide

/-- Section 2.4: bit 23, `k` = 8, is the first 1 bit: OFF from 410 to 440. -/
theorem test_enc_bit_on_end :
    nextAnd (exec .encBitOnEnd (encState .bitOn 8#5 1#16 true))
      (fun t => t.enc.phase == .bitOff && t.enc.cnt == 30#16 && !t.enc.irOn) = true ∧
    nextAnd (exec .encBitOnEnd (encState .bitOn 7#5 1#16 true)) (fun t => t.enc.cnt == 10#16) = true := by decide

/-- Section 2.4, tick 260. -/
theorem test_enc_bit_off_next :
    nextAnd (exec .encBitOffNext (encState .bitOff 0#5 1#16 false))
      (fun t => t.enc.phase == .bitOn && t.enc.k == 1#5 && t.enc.cnt == 10#16 && t.enc.irOn) = true := by decide

/-- `bit(enc.k + 1)` is the bit the count is loaded for: with ON counts that differ, `k` = 7 loads that of bit 23, a 1. -/
theorem test_enc_bit_off_next_uses_the_next_bit :
    nextAnd (exec .encBitOffNext
        { encState .bitOff 7#5 1#16 false with cfg := { Config.default with b0OnT := 11#16, b1OnT := 12#16 } })
      (fun t => t.enc.k == 8#5 && t.enc.cnt == 12#16) = true := by decide

/-- Section 2.4, tick 1200. -/
theorem test_enc_bit_off_last :
    nextAnd (exec .encBitOffLast (encState .bitOff 31#5 1#16 false))
      (fun t => t.enc.phase == .epiOn && t.enc.k == 31#5 && t.enc.cnt == 10#16 && t.enc.irOn) = true := by decide

/-- Section 2.4, tick 1210. -/
theorem test_enc_epi_on_end :
    nextAnd (exec .encEpiOnEnd (encState .epiOn 31#5 1#16 true))
      (fun t => t.enc.phase == .epiOff && t.enc.cnt == 20#16 && !t.enc.irOn) = true := by decide

/-- Section 2.4, tick 1230. -/
theorem test_enc_epi_off_end :
    nextAnd (exec .encEpiOffEnd (encState .epiOff 31#5 1#16 false))
      (fun t => t.enc.phase == .idle && t.enc.cnt == 0#16 && t.enc.pending == 0#32 && t.enc.shreg == 0x00FF1AE5#32 &&
        t.enc.k == 31#5) = true := by decide

/-- N9: a `poll` of the same cycle reads the pending code from before `ENC_SET_CODE`. -/
theorem test_enc_set_code_with_poll :
    nextAnd (clockEdge { Inputs.idle with setCode := true, codeIn := 7#32, encPoll := true } [] State.reset)
      (fun t => t.enc.pending == 7#32 && !encBusy t) = true := by decide

/-- 43_nec_encoder.md R191 and R193: where the `poll` of the same cycle sends, it latches the old code, and the new one, 0 here, is pending (log
entry 16). -/
theorem test_enc_set_code_at_a_send :
    nextAnd (clockEdge { Inputs.idle with setCode := true, codeIn := 0#32, encPoll := true } []
        { State.reset with enc := { State.reset.enc with pending := 5#32 } })
      (fun t => encBusy t && t.enc.shreg == 5#32 && t.enc.pending == 0#32) = true := by decide

/-- N3 and N5. -/
theorem test_enc_set_code :
    nextAnd (exec (.encSetCode 0x00FF1AE5#32) State.reset) (fun t => t.enc.pending == 0x00FF1AE5#32 && !encBusy t) = true ∧
    refusedWith (exec (.encSetCode 5#32) (encState .proOn 0#5 160#16 true)) .setCodeWhileBusy = true := by decide

/-- P4, lines 4 and 6. -/
theorem test_enc_is_busy :
    nextAnd (exec .encIsBusy (encState .proOn 0#5 160#16 true)) (fun t => t.reply == .flag true) = true ∧
    nextAnd (exec .encIsBusy State.reset) (fun t => t.reply == .flag false) = true := by decide

/-- Section 2.4 and N11, N12, N14: the length of a frame. -/
theorem test_frame_ticks :
    frameTicks Config.default 0x00FF1AE5#32 = 1230 ∧ frameTicks Config.default 0x00000001#32 = 930 ∧
    frameTicks Config.default 0xFFFFFFFF#32 = 1550 ∧ frameTicks Config.default 0x12345678#32 = 1170 := by decide

/-! ## Stand-alone engine -/

/-- E1: table order. -/
theorem test_eng_fire_first :
    nextAnd (exec .engFire (demoState 0 true [true, true])) (fun t => t.eng.state == 1 && t.act == 1) = true := by decide

/-- E4: the guard `TRUE`. -/
theorem test_eng_fire_true :
    nextAnd (exec .engFire (demoState 1 true [false, false])) (fun t => t.eng.state == 0 && t.act == 0) = true := by decide

/-- E5. -/
theorem test_eng_no_match :
    nextAnd (exec (.fsmStep (.eng [false, true])) (demoState 2 false [])) (fun t => t.eng.state == 2 && t.act == 0) = true := by
  decide

/-- E7. -/
theorem test_eng_no_poll :
    nextAnd (exec .clock (demoState 1 false [true, true])) (fun t => t.eng.state == 1 && t.act == 0) = true := by decide

/-- E9, E10 and E11. -/
theorem test_fsm_construct :
    nextAnd (exec (.fsmConstruct demoSizes demoWords 0) State.reset)
      (fun t => t.eng.state == 0 && t.eng.table == [⟨0, 1, 1, 1⟩, ⟨0, 2, 2, 0⟩, ⟨1, 0, 0, 0⟩, ⟨2, 1, 0, 0⟩]) = true ∧
    refusedWith (exec (.fsmConstruct demoSizes (demoWords ++ [0x0B]) 0) State.reset) .badTable = true ∧
    refusedWith (exec (.fsmConstruct demoSizes [0x0B, 0x14, 0x20, 0x58] 0) State.reset) .badTable = true := by decide

/-! ## Parse, result, clock, reset, reserved codes, edge buffer -/

/-- P1, line 2, and V29 to V31. -/
theorem test_dec_parse :
    nextAnd (exec (.decParse 68) State.reset) (fun t => t.dec.state == .idle && t.dec.rem == 68 && decBusy t) = true ∧
    refusedWith (exec (.decParse 68) (decState .idle 0 2 0#6 0#32 false 0#32)) .parseWhileBusy = true ∧
    refusedWith (exec (.decParse 257) State.reset) .countTooLarge = true ∧
    refusedWith (exec (.decParse 257) (decState .idle 0 2 0#6 0#32 false 0#32)) .parseWhileBusy = true := by decide

/-- V18 and V32: a code that did not complete is not returned; a read while busy is refused. -/
theorem test_dec_read_result :
    nextAnd (exec .decReadResult (decState .ss 66 1 0#6 0x00FF1AE5#32 false 0#32))
      (fun t => t.reply == .result 0#32 false false) = true ∧
    refusedWith (exec .decReadResult (decState .idle 0 2 0#6 0#32 false 0#32)) .readWhileBusy = true := by decide

/-- P2, line 4: `CLOCK` steps a busy decoder. -/
theorem test_clock :
    nextAnd (exec .clock (decState .idle 2 4 0#6 0#32 false 9000#32))
      (fun t => t.dec.state == .init && t.dec.p == 3 && t.dec.rem == 3) = true := by decide

/-- H3 and H4: reset ends a transmission and wins over every other input. -/
theorem test_reset :
    nextAnd (exec .reset (encState .bitOn 3#5 5#16 true))
      (fun t => t.enc.phase == .idle && !t.enc.irOn && t.enc.pending == 0#32) = true ∧
    nextAnd (clockEdge { Inputs.idle with rst := true, start := true, countIn := 68, encPoll := true, setCode := true, codeIn := 7#32 } []
        (encState .bitOn 3#5 5#16 true)) (fun t => t.dec.rem == 0 && t.enc == Enc.reset) = true := by decide

/-- H1. -/
theorem test_reserved :
    refusedWith (runEvent (.host 0 0x0 []) State.reset) .reservedHostOp = true ∧
    refusedWith (runEvent (.host 0 0xC [1]) State.reset) .reservedHostOp = true ∧
    refusedWith (runEvent (.host 0 0xD []) State.reset) .reservedHostOp = true ∧
    refusedWith (runEvent (.host 0 0xE [1]) State.reset) .reservedHostOp = true := by decide

/-- V33 and H5. -/
theorem test_borrowed_view :
    refusedWith (runEvent (.write 0 5 1#32) (decState .idle 0 68 0#6 0#32 false 0#32)) .borrowedViewWritten = true ∧
    nextAnd (runEvent (.write 0 68 1#32) (decState .idle 0 68 0#6 0#32 false 0#32)) (fun t => edgeAt t 68 == 1#32) = true ∧
    refusedWith (runEvent (.clear 0) (decState .idle 0 68 0#6 0#32 false 0#32)) .bufferClearedUnquiesced = true := by decide

/-- R236: a second block on the same clock has its own registers, its decoder may share the buffer, and a host operation reaches it by its number.
A write into the view it has borrowed is refused (20_memory.md R63), and so is an event for a block that does not exist. -/
theorem test_second_block :
    nextAnd (runEvent (.instantiate 20#32 3 0) State.reset) (fun s =>
      nextAnd (runEvent (.host 1 0x6 [68]) s) (fun t =>
        t.dec == Dec.reset && t.peers.map (fun b => (b.dec.rem, b.dbn.debounceTime, b.dbn.buttonId, b.buf)) == [(68, 20#32, 3, 0)] &&
        refusedWith (runEvent (.write 0 67 1#32) t) .borrowedViewWritten &&
        refusedWith (runEvent (.host 2 0x6 [68]) t) .noSuchInstance)) = true := by decide

/-- Writing what an unlisted entry reads as removes the entry. -/
theorem test_write_keeps_canonical_form :
    writeEntry (writeEntry [(1, 5#32), (4, 6#32)] 2 9#32) 4 0#32 = [(1, 5#32), (2, 9#32)] := by decide

/-- The reason codes of 60_exceptions.md R224. -/
theorem test_reason_codes :
    [Refusal.badTable, .parseWhileBusy, .countTooLarge, .readWhileBusy, .setCodeWhileBusy, .borrowedViewWritten,
      .bufferClearedUnquiesced, .reservedHostOp].map Refusal.reasonCode =
        [some 1, some 2, some 3, some 4, some 5, some 6, some 7, some 8] ∧
    (Fault.unreachable .dec).reasonCode = some 16 := by decide

/-! ## Witnesses

For each obligation with hypotheses, one concrete state and operands that meet them all together; for one with several clauses, each clause, at the ends
of its range. -/

/-- Does the outcome answer a next state? -/
def isNext (o : Host.Outcome State Fault Refusal) : Bool := nextAnd o (fun _ => true)

theorem exists_of_isNext {o : Host.Outcome State Fault Refusal} (h : isNext o = true) : ∃ t, o = .next t := by
  cases o with
  | next t => exact ⟨t, rfl⟩
  | fault r => cases h
  | refused r => cases h

/-- The edge buffer whose deltas, from timestamp `t` at index `i` on, are the given ones. -/
def cellsFrom (i : Nat) (t : W32) : List W32 → List EdgeCell
  | [] => [(i, t)]
  | d :: ds => (i, t) :: cellsFrom (i + 1) (t + d) ds

/-- The deltas of a frame of `c` as a capture of the encoder's envelope gives them, rounded to whole ticks. -/
def frameDeltas (c : W32) : List W32 :=
  [9000#32, 4500#32] ++ (List.range 32).flatMap (fun k => [563#32, if codeBit c k then 1688#32 else 563#32]) ++ [563#32]

/-- The reset state with a buffer of the given deltas, starting at timestamp 1000. -/
def bufferState (ds : List W32) : State :=
  { State.reset with bufs := [{ cells := cellsFrom 0 1000#32 ds, count := ds.length + 1, capEnabled := false }] }

/-- A frame of `0x00FF1AE5` in the buffer. -/
def frameState : State := bufferState (frameDeltas 0x00FF1AE5#32)

/-- A frame at the windows' midpoints, one delta set to a value of its own. -/
def midFrame (i : Nat) (d : W32) : State :=
  bufferState ((List.range 67).map fun j =>
    if j = i then d else windowMid Config.default (frameWindow 0x00FF1AE5#32 j))

/-- A state with the invariant whose encoder has a code to send. -/
def sendState : State := { frameState with enc := { Enc.reset with pending := 0x00FF1AE5#32 } }

/-- What the invariant asks of a block whose units stand as after reset but for the pending code and the decoder. -/
theorem blockInv_of_parts {c : Config} {b : Block} (hc : c = Config.default) (hd : DecInv 256 b.dec)
    (he : b.enc.faulted = false ∧ b.enc.phase = .idle ∧ b.enc.cnt = 0#16 ∧ b.enc.irOn = false)
    (hg : b.eng = Eng.unconstructed) : BlockInv c b where
  decoder := by rw [hc]; exact hd
  encoder := ⟨he.1, by simp [he.2.1], fun h => absurd he.2.1 h, fun h => absurd he.2.1 h, fun _ => ⟨he.2.2.1, he.2.2.2⟩,
    by rw [he.2.1, he.2.2.2]; rfl⟩
  engine := by rw [hg]; constructor <;> decide

/-- What the invariant asks of a state with such a block 0. -/
theorem inv_of_parts {s : State} (hc : s.cfg = Config.default) (hd : DecInv 256 s.dec)
    (he : s.enc.faulted = false ∧ s.enc.phase = .idle ∧ s.enc.cnt = 0#16 ∧ s.enc.irOn = false) (hg : s.eng = Eng.unconstructed)
    (hp : ∀ b ∈ s.peers, BlockInv s.cfg b) (hb : ∀ b ∈ s.blocks, b.buf < s.bufs.length)
    (hw : ∀ e ∈ s.bufs, wfCells e.cells = true ∧ (∀ x ∈ e.cells, x.1 < 256) ∧ e.count ≤ 256) : s.Inv where
  config := by rw [hc]; decide
  block := blockInv_of_parts hc hd he hg
  others := hp
  given := hb
  buffers e h := by rw [hc]; exact ⟨(hw e h).1, (hw e h).2.1, (hw e h).2.2⟩

/-- With no further block, an edge completes for each of them. -/
theorem peersRun_none {xs : List Inputs} {s : State} (h : s.peers = []) : peersRun xs s := by
  intro k b hk
  rw [h] at hk
  cases hk

/-- With one, where it completes for that one. -/
theorem peersRun_one {x : Inputs} {s : State} {c : Block} (h : s.peers = [c]) (hx : edgeRuns x (s.withBlock c)) :
    peersRun [x] s := by
  intro k b hk
  rw [h] at hk
  cases k with
  | zero => cases hk; exact hx
  | succ k => cases hk

theorem decInv_reset : DecInv 256 Dec.reset := by constructor <;> decide

theorem inv_frameState : frameState.Inv :=
  inv_of_parts rfl decInv_reset ⟨rfl, rfl, rfl, rfl⟩ rfl (fun _ h => nomatch h) (by decide) (by decide)

theorem inv_sendState : sendState.Inv :=
  inv_of_parts rfl decInv_reset ⟨rfl, rfl, rfl, rfl⟩ rfl (fun _ h => nomatch h) (by decide) (by decide)

/-- A decoder in the middle of a parse of the frame. -/
def busyState : State :=
  { frameState with
    dec := { state := .sp, p := 3, rem := 65, bits := 32#6, code := 0#32, rep := false, done := false, faulted := false } }

theorem inv_busyState : busyState.Inv :=
  inv_of_parts rfl (by constructor <;> decide) ⟨rfl, rfl, rfl, rfl⟩ rfl (fun _ h => nomatch h) (by decide) (by decide)

/-- Two blocks: one with a code to send, and one in the middle of a parse of the same buffer. -/
def pairState : State := { sendState with peers := [busyState.block] }

theorem inv_pairState : pairState.Inv :=
  inv_of_parts rfl decInv_reset ⟨rfl, rfl, rfl, rfl⟩ rfl
    (fun b hb => by
      obtain rfl := List.mem_singleton.mp hb
      exact blockInv_of_parts rfl (by constructor <;> decide) ⟨rfl, rfl, rfl, rfl⟩ rfl)
    (by decide) (by decide)

/-- The second block polled. -/
def pollPeer : Inputs := { Inputs.idle with engPoll := true, dbnPoll := true, level := true }

theorem peersRun_pairState : peersRun [pollPeer] pairState := peersRun_one rfl (.inr (by decide))

/-! ### Encodings and steps -/

theorem witness_DecodeOfEncodeIsTheInstruction : (Instr.fsmConstruct demoSizes demoWords 3).wf = true := by decide

theorem witness_HostWordIsItsInstructionsWord : decode ⟨.hostOp, 0x8, [4294967295]⟩ = .ok (.encSetCode 0xFFFFFFFF#32) ∧
    decode ⟨.hostOp, 0xC, [1]⟩ = .ok .reservedC := by decide

theorem witness_SelectorRowsExcludeEachOther :
    (∃ r ∈ decRows, r.hits 0x3FF = true) ∧ (∃ r ∈ dbnRows, r.hits 0x1F = true) ∧ (∃ r ∈ encRows, r.hits 0x163 = true) ∧
    (∃ r ∈ engRows, r.hits 0x3 = true) := by decide

theorem witness_EveryComputedSelectorHasARow : (encState .epiOff 31#5 1#16 false).enc.phase ≠ .reserved := by decide

theorem witness_TableEntryWordRoundTrip :
    (⟨3, 3, 0, 1⟩ : Entry).fromState < 2 ^ demoSizes.stateW ∧ (⟨3, 3, 0, 1⟩ : Entry).guard < 2 ^ demoSizes.gw ∧
    (⟨3, 3, 0, 1⟩ : Entry).toState < 2 ^ demoSizes.stateW ∧ (⟨3, 3, 0, 1⟩ : Entry).action < 2 ^ demoSizes.aw := by decide

/-- Each clause: an empty inbox, block 0 with a word that decodes and one that does not, block 1 where it exists, block 2 where it does not, an
edge. -/
theorem witness_StepRunsTheDecodedOperation :
    State.reset.inbox = [] ∧
    ({ State.reset with inbox := [.host 0 0x6 [4]] } : State).inbox = .host 0 0x6 [4] :: [] ∧
    decode ⟨.hostOp, 0x6, [4]⟩ = .ok (.decParse 4) ∧ decode ⟨.hostOp, 0x6, []⟩ = .error .badOperandCount ∧
    (({ pairState with inbox := [.host 1 0x4 []] } : State).inbox = .host 1 0x4 [] :: [] ∧
      pairState.peers[0]? = some busyState.block ∧ decode ⟨.hostOp, 0x4, []⟩ = .ok .dbResetDuration ∧
      ∃ t, exec .dbResetDuration { pairState.withBlock busyState.block with peers := pairState.peers.set 0 pairState.block } = .next t) ∧
    pairState.peers.length < 2 ∧
    ({ pairState with inbox := [.cycle []] } : State).inbox = .cycle [] :: [] :=
  ⟨rfl, rfl, by decide, by decide, ⟨rfl, rfl, by decide, exists_of_isNext (by decide)⟩, by decide, rfl⟩

/-- Every strobe but the loads of a busy unit at once. -/
def allStrobes : Inputs :=
  { Inputs.idle with
    engPoll := true, g := [true], dbnPoll := true, nowMs := 7#32, level := true, resetDuration := true, encPoll := true,
    tick := true, setCode := true, codeIn := 9#32, start := true, countIn := 68 }

theorem witness_ClockEdgeRunsTheSelectedRows :
    allStrobes.rst = false ∧ decStuck pairState.dec = false ∧ encStuck pairState.enc = false ∧
    ∃ t, clockEdge allStrobes [pollPeer] pairState = .next t :=
  ⟨rfl, by decide, by decide, exists_of_isNext (by decide)⟩

theorem witness_ClockEdgeRefinesTheTransitionTables :
    allStrobes.rst = false ∧ edgeRefusal allStrobes pairState = none ∧ decOut pairState = false ∧
    peersRun [pollPeer] pairState := ⟨rfl, by decide, by decide, peersRun_pairState⟩

/-- Both blocks: the reset of block 0, and of block 1 alone. -/
theorem witness_ResetGivesEveryRegisterItsValue :
    ({ allStrobes with rst := true } : Inputs).rst = true ∧ peersRun [pollPeer] pairState ∧
    pairState.peers[0]? = some busyState.block ∧
    (([{ allStrobes with rst := true }] : List Inputs)[0]?.getD Inputs.idle).rst = true ∧
    ∃ t, clockEdge allStrobes [{ allStrobes with rst := true }] pairState = .next t :=
  ⟨rfl, peersRun_pairState, rfl, rfl, exists_of_isNext (by decide)⟩

/-- A buffer in use, and the first number that is none. -/
theorem witness_TheResetStateHoldsTheResetValues : 0 < State.reset.bufs.length ∧ ¬ 1 < State.reset.bufs.length := by decide

/-! ### Decoder -/

theorem witness_DecoderIdleRows :
    decCheck (decState .idle 0 2 0#6 0#32 false 9200#32) = none ∧ inW (decState .idle 0 2 0#6 0#32 false 9200#32) .ps = true ∧
    decCheck (decState .idle 0 2 0#6 0#32 false 9201#32) = none ∧ inW (decState .idle 0 2 0#6 0#32 false 9201#32) .ps = false := by
  decide

theorem witness_DecoderInitRows :
    decCheck (decState .init 1 2 0#6 0#32 false 4300#32) = none ∧ inW (decState .init 1 2 0#6 0#32 false 4300#32) .pp = true ∧
    decCheck (decState .init 1 2 0#6 0#32 false 1700#32) = none ∧ inW (decState .init 1 2 0#6 0#32 false 1700#32) .pp = false ∧
    inW (decState .init 1 2 0#6 0#32 false 1700#32) .rp = true ∧
    decCheck (decState .init 1 2 0#6 0#32 false 2701#32) = none ∧ inW (decState .init 1 2 0#6 0#32 false 2701#32) .rp = false := by
  decide

theorem witness_DecoderSilenceRows :
    decCheck (decState .ss 2 2 0#6 5#32 false 0#32) = none ∧ decCheck (decState .ss 2 2 1#6 5#32 false 700#32) = none ∧
    inW (decState .ss 2 2 1#6 5#32 false 700#32) .sil = true ∧ decCheck (decState .ss 2 2 1#6 5#32 false 701#32) = none ∧
    inW (decState .ss 2 2 1#6 5#32 false 701#32) .sil = false := by decide

theorem witness_DecoderPulseRows :
    decCheck (decState .sp 3 2 32#6 0#32 false 400#32) = none ∧ inW (decState .sp 3 2 32#6 0#32 false 400#32) .b0 = true ∧
    decCheck (decState .sp 3 2 1#6 5#32 false 1800#32) = none ∧ inW (decState .sp 3 2 1#6 5#32 false 1800#32) .b0 = false ∧
    inW (decState .sp 3 2 1#6 5#32 false 1800#32) .b1 = true ∧
    decCheck (decState .sp 3 2 1#6 5#32 false 1801#32) = none ∧ inW (decState .sp 3 2 1#6 5#32 false 1801#32) .b1 = false := by
  decide

theorem witness_DecoderHaltsWhenNotBusy :
    decCheck (decState .idle 0 1 0#6 0#32 false 0#32) = none ∧ (decState .idle 0 1 0#6 0#32 false 0#32).dec.rem < 2 := by decide

/-- The three combinations of `DEC` and the two of `ENC`, and the record of one, with an edge that is no reset and not refused. -/
theorem witness_UnreachableCombinationsFault :
    32 < (decState .ss 2 2 33#6 0#32 false 0#32).dec.bits.toNat ∧
    edgeRefusal Inputs.idle (decState .ss 2 2 33#6 0#32 false 0#32) = none ∧
    peersRun [] (decState .ss 2 2 33#6 0#32 false 0#32) ∧
    (decState .sp 3 2 0#6 0#32 false 0#32).dec.bits = 0#6 ∧
    ((decState .init 1 2 0#6 1#32 false 0#32).dec.done = false ∧ (decState .init 1 2 0#6 1#32 false 0#32).dec.code ≠ 0#32) ∧
    State.reset.dec.recordFault.faulted = true ∧ State.reset.enc.recordFault.faulted = true ∧
    (encState .reserved 0#5 1#16 false).enc.phase = .reserved ∧
    ((encState .proOn 0#5 0#16 false).enc.phase ≠ .idle ∧ (encState .proOn 0#5 0#16 false).enc.cnt = 0#16 ∧
      edgeRefusal Inputs.idle (encState .proOn 0#5 0#16 false) = none ∧ decOut (encState .proOn 0#5 0#16 false) = false ∧
      peersRun [] (encState .proOn 0#5 0#16 false)) :=
  ⟨by decide, by decide, peersRun_none rfl, by decide, by decide, rfl, rfl, by decide, by decide, by decide, by decide, by decide,
    peersRun_none rfl⟩

/-- The second state differs from the first outside the two entries. -/
theorem witness_DecoderReadsTwoEntriesOfItsView :
    (DecInv busyState.cfg.edgeCap busyState.dec ∧ decBusy busyState = true) ∧
    edgeAt (decState .idle 0 2 0#6 0#32 false 9000#32) 0 =
      edgeAt { decState .idle 0 2 0#6 0#32 false 9000#32 with bufs := [{ cells := [(0, 100#32), (1, 9100#32), (7, 1#32)], count := 8, capEnabled := false }] } 0 ∧
    edgeAt (decState .idle 0 2 0#6 0#32 false 9000#32) 1 =
      edgeAt { decState .idle 0 2 0#6 0#32 false 9000#32 with bufs := [{ cells := [(0, 100#32), (1, 9100#32), (7, 1#32)], count := 8, capEnabled := false }] } 1 ∧
    ∃ t, exec DecRow.idlePrologue.instr (decState .idle 0 2 0#6 0#32 false 9000#32) = .next t :=
  ⟨⟨inv_busyState.decoder, by decide⟩, by decide, by decide, exists_of_isNext (by decide)⟩

theorem witness_CursorStaysInTheView :
    (∃ t, exec (.decParse 68) frameState = .next t) ∧ Instr.clock ≠ .reset ∧ (∀ m, Instr.clock ≠ .decParse m) ∧
    (∃ t, exec .clock busyState = .next t) ∧
    (∃ t, clockEdge { allStrobes with start := false } [] busyState = .next t) ∧ 68 ≤ busyState.cfg.edgeCap ∧
    busyState.dec.p + busyState.dec.rem ≤ 68 ∧
    (busyState.dec.done = false → busyState.dec.p + busyState.dec.rem = 68) ∧ busyState.dec.p ≤ 68 :=
  ⟨exists_of_isNext (by decide), by decide, fun m => (nomatch ·), exists_of_isNext (by decide), exists_of_isNext (by decide),
    by decide, by decide, by decide, by decide⟩

theorem witness_ParseLoadsTheDecoder :
    2 ≤ busyState.dec.rem ∧ frameState.dec.rem < 2 ∧ frameState.cfg.edgeCap < 257 ∧ 256 ≤ frameState.cfg.edgeCap ∧
    unitsOk frameState := ⟨by decide, by decide, by decide, by decide, by decide, by decide, by decide⟩

theorem witness_ReadResultReturnsTheResult :
    2 ≤ (decState .idle 0 2 0#6 0#32 false 0#32).dec.rem ∧ (decState .idle 0 1 0#6 0#32 false 0#32).dec.rem < 2 := by decide

theorem witness_ResultsHoldUntilTheNextParse :
    Instr.encTick ≠ .reset ∧ (∀ n, Instr.encTick ≠ .decParse n) ∧ decBusy sendState = false ∧
    (∃ t, exec .encTick sendState = .next t) ∧ ∃ t, clockEdge { allStrobes with start := false } [] sendState = .next t :=
  ⟨by decide, fun n => (nomatch ·), by decide, exists_of_isNext (by decide), exists_of_isNext (by decide)⟩

theorem witness_ParseEndsWithinTwiceTheCount : busyState.Inv := inv_busyState

theorem windowsDisjoint_default : windowsDisjoint Config.default := by
  intro d
  unfold inWindow
  rw [Bool.and_eq_true, Bool.and_eq_true, Bool.and_eq_true, Bool.and_eq_true]
  simp only [decide_eq_true_iff]
  have h1 : windowHi Config.default .pp = 4700 ∧ windowLo Config.default .pp = 4300 := by decide
  have h2 : windowHi Config.default .rp = 2700 ∧ windowLo Config.default .b1 = 1500 := by decide
  have h3 : windowHi Config.default .b0 = 700 := by decide
  omega

theorem commandFrame_frameState : CommandFrame frameState 0x00FF1AE5#32 := by constructor <;> decide

theorem witness_CommandFrameDecodesToItsCode :
    frameState.Inv ∧ decBusy frameState = false ∧ 68 ≤ frameState.cfg.edgeCap ∧ windowsDisjoint frameState.cfg ∧
    CommandFrame frameState 0x00FF1AE5#32 :=
  ⟨inv_frameState, by decide, by decide, windowsDisjoint_default, commandFrame_frameState⟩

/-- P2's repetition frame, without the noise before it. -/
def repState : State := bufferState [9000#32, 2250#32, 562#32]

theorem witness_RepetitionFrameDecodes :
    repState.Inv ∧ decBusy repState = false ∧ windowsDisjoint repState.cfg ∧
    inWindow repState.cfg .ps (deltaAt repState 0) = true ∧ inWindow repState.cfg .rp (deltaAt repState 1) = true ∧
    4 ≤ repState.cfg.edgeCap :=
  ⟨inv_of_parts rfl decInv_reset ⟨rfl, rfl, rfl, rfl⟩ rfl (fun _ h => nomatch h) (by decide) (by decide), by decide, windowsDisjoint_default,
    by decide, by decide, by decide⟩

theorem captures_frameState : captures frameState 0x00FF1AE5#32 := by unfold captures; decide

theorem witness_DecodingAnEncodedFrameGivesTheCode :
    frameState.cfg = { Config.default with edgeCap := 256, epiOffT := 20#16 } ∧ frameState.Inv ∧ decBusy frameState = false ∧
    68 ≤ 256 ∧ captures frameState 0x00FF1AE5#32 :=
  ⟨rfl, inv_frameState, by decide, by decide, captures_frameState⟩

/-- A delta above its window, in the first place tested, and one below, in the last. -/
theorem witness_PerturbedFrameYieldsNoCode :
    ((midFrame 0 9201#32).Inv ∧ (∀ j, j < 66 → j ≠ 0 →
        deltaAt (midFrame 0 9201#32) j = windowMid (midFrame 0 9201#32).cfg (frameWindow 0x00FF1AE5#32 j)) ∧
      (deltaAt (midFrame 0 9201#32) 0).toNat = windowHi (midFrame 0 9201#32).cfg (frameWindow 0x00FF1AE5#32 0) + 1) ∧
    ((∀ j, j < 66 → j ≠ 65 →
        deltaAt (midFrame 65 1499#32) j = windowMid (midFrame 65 1499#32).cfg (frameWindow 0x00FF1AE5#32 j)) ∧
      (deltaAt (midFrame 65 1499#32) 65).toNat + 1 = windowLo (midFrame 65 1499#32).cfg (frameWindow 0x00FF1AE5#32 65)) :=
  ⟨⟨inv_of_parts rfl decInv_reset ⟨rfl, rfl, rfl, rfl⟩ rfl (fun _ h => nomatch h) (by decide) (by decide), by decide, by decide⟩, by decide, by decide⟩

theorem witness_TickWindowsAreTheMicrosecondWindows : 1 ≤ Config.default.tickDecNs := by decide

/-! ### Debouncer -/

theorem witness_DebouncerHolds :
    ({ dbnState .pressed 0#32 0#32 0#32 0#32 true with inp := Inputs.idle } : State).inp.dbnPoll = false ∧
    (dbnState .released 0#32 0#32 0#32 0#32 false).inp.level = false ∧
    (dbnState .pressedWait 1000#32 1150#32 0#32 1149#32 true).inp.nowMs.toNat <
      (dbnState .pressedWait 1000#32 1150#32 0#32 1149#32 true).dbn.nextTimeout.toNat ∧
    (dbnState .pressed 1000#32 1150#32 0#32 1200#32 true).inp.level = true ∧
    (dbnState .releasedWait 1000#32 2350#32 0#32 2349#32 true).inp.nowMs.toNat <
      (dbnState .releasedWait 1000#32 2350#32 0#32 2349#32 true).dbn.nextTimeout.toNat := by decide

theorem witness_FsmStepStepsTheUnit : unitsOk busyState ∧ unitsOk pairState := ⟨⟨by decide, by decide, by decide⟩, by decide, by decide, by decide⟩

theorem witness_ReadsReturnOutputsAndResetDurationClears :
    unitsOk busyState ∧ unitsOk pairState ∧ decBusy pairState = false :=
  ⟨⟨by decide, by decide, by decide⟩, ⟨by decide, by decide, by decide⟩, by decide⟩

/-- D8, while a parse runs. -/
def pressedState : State :=
  { busyState with dbn := { State.reset.dbn with state := .pressed, tickPressed := 1000#32, nextTimeout := 1150#32 } }

theorem witness_ReleaseWinsOverResetDuration :
    pressedState.Inv ∧ pressedState.dbn.state = .pressed ∧ peersRun [] pressedState :=
  ⟨inv_of_parts rfl (by constructor <;> decide) ⟨rfl, rfl, rfl, rfl⟩ rfl (fun _ h => nomatch h) (by decide) (by decide), rfl,
    peersRun_none rfl⟩

/-- D2 to D5, D7 and D8: holds in between, the last one before the deadline, the earliest elapsed poll, a button still pressed. -/
theorem witness_PressDurationIsPressToRelease :
    frameState.Inv ∧ frameState.dbn.state = .released ∧
    (∀ q ∈ [((1010#32 : W32), true), (1149#32, false)], q.1.toNat < (1000#32).toNat + frameState.dbn.debounceTime.toNat) ∧
    (1000#32).toNat + frameState.dbn.debounceTime.toNat ≤ (1150#32).toNat ∧
    (∀ q ∈ [((2100#32 : W32), true)], q.2 = true) ∧ (1150#32).toNat ≤ (2200#32).toNat :=
  ⟨inv_frameState, by decide, by simp [frameState, bufferState, State.reset, Dbn.fresh], by decide, by simp, by decide⟩

/-- D13. -/
theorem witness_WrappedDeadlineElapsesAtOnce :
    frameState.Inv ∧ frameState.dbn.state = .released ∧
    2 ^ 32 ≤ (0xFFFFFFC0#32).toNat + frameState.dbn.debounceTime.toNat ∧ (0xFFFFFFC0#32).toNat ≤ (0xFFFFFFC1#32).toNat :=
  ⟨inv_frameState, by decide, by decide, by decide⟩

/-! ### Encoder -/

theorem witness_SetCodeLoadsThePendingCode :
    (encState .proOn 0#5 160#16 true).enc.phase ≠ .idle ∧ pairState.enc.phase = .idle ∧ unitsOk pairState ∧
    decBusy pairState = false ∧ peersRun [pollPeer] pairState :=
  ⟨by decide, by decide, ⟨by decide, by decide, by decide⟩, by decide, peersRun_pairState⟩

theorem witness_EncoderEngineAndCountRows :
    encCheck { sendState with inp := { Inputs.idle with encPoll := true } } = none ∧ sendState.enc.pending ≠ 0#32 ∧
    encCheck (encState .proOn 0#5 2#16 true) = none ∧ (encState .proOn 0#5 2#16 true).enc.cnt ≠ 1#16 := by decide

theorem witness_EncoderPrologueAndBitOnRows :
    encCheck (encState .proOn 0#5 1#16 true) = none ∧ encCheck (encState .proOff 0#5 1#16 false) = none ∧
    encCheck (encState .bitOn 31#5 1#16 true) = none := by decide

theorem witness_EncoderBitOffAndEpilogueRows :
    encCheck (encState .bitOff 30#5 1#16 false) = none ∧ (encState .bitOff 30#5 1#16 false).enc.k ≠ 31#5 ∧
    encCheck (encState .bitOff 31#5 1#16 false) = none ∧ encCheck (encState .epiOn 31#5 1#16 true) = none ∧
    encCheck (encState .epiOff 31#5 1#16 false) = none := by decide

theorem witness_StrobesAreClockEdges :
    unitsOk (encState .bitOn 0#5 5#16 true) ∧ unitsOk busyState ∧ busyState.enc.phase = .idle :=
  ⟨⟨by decide, by decide, by decide⟩, ⟨by decide, by decide, by decide⟩, rfl⟩

theorem witness_EncoderIgnoresPollWhileBusyAndTickWhileIdle :
    (encBusy (encState .bitOn 0#5 5#16 true) = true ∧ encCheck (encState .bitOn 0#5 5#16 true) = none ∧
      (∃ t, clockEdge { Inputs.idle with encPoll := true } [] (encState .bitOn 0#5 5#16 true) = .next t) ∧
      (∃ u, clockEdge Inputs.idle [] (encState .bitOn 0#5 5#16 true) = .next u) ∧
      ∃ u, clockEdge { Inputs.idle with tick := true } [] (encState .bitOn 0#5 5#16 true) = .next u) ∧
    (encBusy pairState = false ∧ encCheck pairState = none ∧
      (∃ t, clockEdge { Inputs.idle with tick := true } [pollPeer] pairState = .next t) ∧
      (∃ u, clockEdge Inputs.idle [] pairState = .next u) ∧
      ∃ u, clockEdge { Inputs.idle with encPoll := true } [] pairState = .next u) :=
  ⟨⟨by decide, by decide, exists_of_isNext (by decide), exists_of_isNext (by decide), exists_of_isNext (by decide)⟩,
    by decide, by decide, exists_of_isNext (by decide), exists_of_isNext (by decide), exists_of_isNext (by decide)⟩

/-- A tick in a frame; and the edges next to the one left out: a poll with a load of the code pending, and a poll and a load where none is. -/
theorem witness_EncoderInvariants :
    (encState .bitOn 8#5 10#16 true).cfg.wf = true ∧
    EncInv (encState .bitOn 8#5 10#16 true).cfg (encState .bitOn 8#5 10#16 true).enc ∧
    sendsPending (encState .bitOn 8#5 10#16 true).enc ∧ (∃ t, exec .encTick (encState .bitOn 8#5 10#16 true) = .next t) ∧
    EncInv sendState.cfg sendState.enc ∧ sendsPending sendState.enc ∧
    (∃ t, clockEdge { Inputs.idle with encPoll := true, setCode := true, codeIn := 0x00FF1AE5#32 } [] sendState = .next t) ∧
    ∃ t, clockEdge { Inputs.idle with encPoll := true, setCode := true, codeIn := 5#32 } [] State.reset = .next t :=
  ⟨by decide, by constructor <;> decide, fun _ => rfl, exists_of_isNext (by decide), inv_sendState.encoder,
    fun h => absurd rfl h, exists_of_isNext (by decide), exists_of_isNext (by decide)⟩

theorem witness_CodeZeroIsNeverSent :
    encBusy sendState = false ∧
    nextAnd (clockEdge { Inputs.idle with encPoll := true } [] sendState) (fun t => encBusy t) = true := by decide

theorem witness_FrameIsItsSegments : sendState.Inv ∧ encBusy sendState = false ∧ sendState.enc.pending ≠ 0#32 :=
  ⟨inv_sendState, by decide, by decide⟩

/-! ### Stand-alone engine -/

/-- E9, E10, E11, and an action id out of range where the sizes leave the field room for one. -/
theorem witness_ConstructTakesAWellFormedTable :
    (Instr.fsmConstruct demoSizes demoWords 0).wf = true ∧
    (∀ w ∈ demoWords, (entryOfWord demoSizes w).guard < 3 ∧ (entryOfWord demoSizes w).action < 2) ∧
    (demoWords ++ [0x0B]).length ≠ demoSizes.nEntries ∧
    ((Instr.fsmConstruct demoSizes [0x58] 0).wf = true ∧ 3 ≤ (entryOfWord demoSizes 0x58).guard) ∧
    ((Instr.fsmConstruct ⟨1, 1, 1, 3⟩ [0b00011] 0).wf = true ∧ 3 ≤ (entryOfWord ⟨1, 1, 1, 3⟩ 0b00011).action) := by decide

/-- E2: the second entry fires. -/
theorem witness_EarliestFiringEntryFires :
    (demoState 0 true [false, true]).eng.table = [⟨0, 1, 1, 1⟩] ++ ⟨0, 2, 2, 0⟩ :: [⟨1, 0, 0, 0⟩, ⟨2, 1, 0, 0⟩] ∧
    (∀ x ∈ [(⟨0, 1, 1, 1⟩ : Entry)], ¬ (x.fromState = 0 ∧ guardValue [false, true] x.guard = true)) ∧
    guardValue [false, true] 2 = true ∧ unitsOk (demoState 0 true [false, true]) ∧
    (demoState 0 true [false, true]).inp.engPoll = true :=
  ⟨by decide, by decide, by decide, ⟨by decide, by decide, by decide⟩, by decide⟩

/-- E8 and E7. -/
theorem witness_EngineStaysWithoutAMatch :
    (∀ x ∈ (demoState 3 true [true, true]).eng.table, x.fromState = 3 →
        guardValue (demoState 3 true [true, true]).inp.g x.guard = false) ∧
    (demoState 3 true [true, true]).inp.engPoll = true ∧ (demoState 1 false [true, true]).inp.engPoll = false := by decide

/-! ### Edge buffer and the whole machine -/

theorem witness_EntryReadAfterWrite : wfCells [(1, 5#32), (4, 6#32)] = true := by decide

theorem witness_InstructionsLeaveTheEdgeBuffer :
    (∃ t, exec .clock pairState = .next t) ∧ ∃ t, exec .reset pairState = .next t :=
  ⟨exists_of_isNext (by decide), exists_of_isNext (by decide)⟩

/-- The last entry of the view that block 1 has borrowed, the first one after it, the last entry there is, the first there is not, and an accepted write
and append. -/
theorem witness_BorrowedViewIsStable :
    wfCells (bufferAt pairState 0).cells = true ∧ 0 < pairState.bufs.length ∧
    (∃ b ∈ pairState.blocks, b.buf = 0 ∧ b.dec.busy = true ∧ 67 < b.dec.p + b.dec.rem) ∧
    (∀ b ∈ pairState.blocks, b.buf = 0 → b.dec.busy = true → b.dec.p + b.dec.rem ≤ 68) ∧
    255 < pairState.cfg.edgeCap ∧ pairState.cfg.edgeCap ≤ 256 ∧ (∃ t, runEvent (.write 0 68 1#32) pairState = .next t) ∧
    ∃ t, runEvent (.append 0 1#32) pairState = .next t :=
  ⟨by decide, by decide, by decide, by decide, by decide, by decide, exists_of_isNext (by decide), exists_of_isNext (by decide)⟩

/-- The state with capture enabled, the count set to `n`. -/
def capturing (s : State) (n : Nat) : State := setBuffer s 0 { bufferAt s 0 with capEnabled := true, count := n }

theorem witness_ClearNeedsQuiescence :
    0 < pairState.bufs.length ∧ (∃ b ∈ pairState.blocks, b.buf = 0 ∧ b.dec.busy = true) ∧
    (bufferAt (capturing frameState 68) 0).capEnabled = true ∧ 0 < frameState.bufs.length ∧
    (bufferAt frameState 0).capEnabled = false ∧ (∀ b ∈ frameState.blocks, b.buf = 0 → b.dec.busy = false) := by decide

/-- Capture enabled with the view full: the next entry is the first one outside the view; inside the view; disabled; full. -/
theorem witness_AppendWritesTheNextEntry :
    (wfCells (bufferAt (capturing pairState 68) 0).cells = true ∧ 0 < (capturing pairState 68).bufs.length ∧
      (bufferAt (capturing pairState 68) 0).capEnabled = true ∧
      (bufferAt (capturing pairState 68) 0).count < (capturing pairState 68).cfg.edgeCap ∧
      inBorrowedView (capturing pairState 68) 0 (bufferAt (capturing pairState 68) 0).count = false) ∧
    inBorrowedView (capturing pairState 67) 0 (bufferAt (capturing pairState 67) 0).count = true ∧
    (bufferAt pairState 0).capEnabled = false ∧
    (capturing pairState 256).cfg.edgeCap ≤ (bufferAt (capturing pairState 256) 0).count := by decide

theorem witness_StepKeepsTheInvariant :
    ({ pairState with inbox := [.cycle [allStrobes, pollPeer]] } : State).Inv ∧
    ∃ t, step { pairState with inbox := [.cycle [allStrobes, pollPeer]] } = .next t :=
  ⟨⟨inv_pairState.config, inv_pairState.block, inv_pairState.others, inv_pairState.given, inv_pairState.buffers⟩,
    exists_of_isNext (by decide)⟩

theorem witness_NothingFaultsUnderTheInvariant : pairState.Inv := inv_pairState

theorem witness_ReservedCodesAreRefused : 1 ≤ pairState.peers.length := by decide

/-- Each refusal an instruction can meet. -/
theorem witness_RefusalsComeFromTheirOperations :
    refusedWith (exec (.fsmConstruct demoSizes [] 0) State.reset) .badTable = true ∧
    refusedWith (exec (.decParse 0) busyState) .parseWhileBusy = true ∧
    refusedWith (exec (.decParse 257) frameState) .countTooLarge = true ∧
    refusedWith (exec .decReadResult busyState) .readWhileBusy = true ∧
    refusedWith (exec (.encSetCode 0#32) (encState .epiOff 31#5 1#16 false)) .setCodeWhileBusy = true ∧
    refusedWith (exec .reservedC State.reset) .reservedHostOp = true := by decide

/-- Registers of each unit that change, a record of one that takes no step, and an edge of two blocks. -/
theorem witness_RegistersChangeOnlyByTheirOwnOperations :
    nextAnd (exec (.fsmStep (.dbn 7#32 true)) State.reset) (fun t => t.dbn != State.reset.dbn) = true ∧
    nextAnd (exec .encTick (encState .bitOn 0#5 5#16 true)) (fun t => t.enc != (encState .bitOn 0#5 5#16 true).enc) = true ∧
    nextAnd (exec .clock (encState .bitOn 0#5 0#16 true)) (fun t => t.enc.faulted) = true ∧
    nextAnd (exec .clock busyState) (fun t => t.dec != busyState.dec) = true ∧
    nextAnd (exec .clock (decState .sp 3 2 0#6 0#32 false 550#32)) (fun t => t.dec.faulted) = true ∧
    nextAnd (exec (.fsmStep (.eng [true])) (demoState 0 false [])) (fun t => t.eng.state != 0) = true ∧
    (pulses .clock = true ∧ Instr.clock ≠ .reset ∧ nextAnd (exec .clock pairState) (fun t => t.peers != pairState.peers) = true) ∧
    (pulses .encIsBusy = false ∧ nextAnd (exec .encIsBusy pairState) (fun t => t.peers == pairState.peers) = true) := by
  decide

/-- Two systems of two blocks that agree on one block alone, in another place. -/
theorem witness_BlocksDoNotInteract :
    (∃ t, clockEdge allStrobes [pollPeer] pairState = .next t) ∧
    (∃ t, clockEdge pollPeer [Inputs.idle] { busyState with peers := [frameState.block] } = .next t) ∧
    pairState.cfg = busyState.cfg ∧ pairState.blocks[1]? = some busyState.block ∧
    ({ busyState with peers := [frameState.block] } : State).blocks[0]? = some busyState.block ∧
    bufferAt pairState 0 = bufferAt busyState 0 ∧
    ([allStrobes, pollPeer][1]?.getD Inputs.idle) = ([pollPeer, Inputs.idle][0]?.getD Inputs.idle) :=
  ⟨exists_of_isNext (by decide), exists_of_isNext (by decide), rfl, rfl, rfl, rfl, rfl⟩

/-- Both orders run, for each pair of units, while a parse runs. -/
theorem witness_PollOrderChangesNoRegister :
    busyState.cfg.wf = true ∧
    (∀ x ∈ [(PollInputs.dbn 7#32 true, PollInputs.enc), (.enc, .eng [true]), (.eng [true], .dbn 7#32 true)],
      polledUnit x.1 ≠ polledUnit x.2 ∧
      nextAnd (exec (.fsmStep x.1) busyState) (fun a => isNext (exec (.fsmStep x.2) a)) = true ∧
      nextAnd (exec (.fsmStep x.2) busyState) (fun c => isNext (exec (.fsmStep x.1) c)) = true) := by decide

end Sys2Proof.Tests
end

section
/-! PROOFS. What an edge entry reads as after a write (00_scope.md R12, 20_memory.md R60). -/

namespace Sys2Proof.Machine

@[simp] theorem readEntry_nil (j : Nat) : readEntry [] j = unlistedEntry := rfl

@[simp] theorem readEntry_cons_same (a : Nat) (w : W32) (m : List EdgeCell) : readEntry ((a, w) :: m) a = w :=
  if_pos rfl

theorem readEntry_cons_ne {a j : Nat} (w : W32) (m : List EdgeCell) (h : j ≠ a) :
    readEntry ((a, w) :: m) j = readEntry m j := if_neg (Ne.symm h)

/-- The indices of canonical cells rise, so nothing is listed below the first one. -/
theorem readEntry_below {m : List EdgeCell} {n j : Nat} (hw : wfCells m = true) (hs : startsAt n m) (hj : j < n) :
    readEntry m j = unlistedEntry := by
  induction m generalizing n with
  | nil => exact readEntry_nil j
  | cons x m ih =>
    obtain ⟨a, w⟩ := x
    obtain ⟨-, htail, hwm⟩ := wfCells_cons.mp hw
    have hna : n ≤ a := hs
    rw [readEntry_cons_ne w m (by omega)]
    exact ih hwm htail (by omega)

/-- A write that reaches its place puts the value before the later cells, or lists nothing when the value is what an unlisted entry reads
as. Both read alike, since no later cell has the index. -/
theorem readEntry_listed {m : List EdgeCell} {i : Nat} (j : Nat) (v : W32) (hw : wfCells m = true)
    (hs : startsAt (i + 1) m) :
    readEntry (if v = unlistedEntry then m else (i, v) :: m) j = if j = i then v else readEntry m j := by
  by_cases hj : j = i
  · subst hj
    rw [if_pos rfl]
    split
    · next hv => rw [readEntry_below hw hs (Nat.lt_succ_self j), hv]
    · exact readEntry_cons_same j v m
  · rw [if_neg hj]
    split
    · rfl
    · exact readEntry_cons_ne v m hj

theorem readEntry_writeEntry {m : List EdgeCell} (i j : Nat) (v : W32) (hw : wfCells m = true) :
    readEntry (writeEntry m i v) j = if j = i then v else readEntry m j := by
  induction m with
  | nil => exact readEntry_listed j v hw trivial
  | cons x m ih =>
    obtain ⟨a, w⟩ := x
    obtain ⟨-, htail, hwm⟩ := wfCells_cons.mp hw
    unfold writeEntry
    split
    · next hlt => exact readEntry_listed j v hw hlt
    · split
      · next heq =>
        subst heq
        rw [readEntry_listed j v hwm htail]
        split
        · rfl
        · next hj => rw [readEntry_cons_ne w m hj]
      · next hne =>
        by_cases hj : j = a
        · subst hj
          rw [readEntry_cons_same, readEntry_cons_same, if_neg (Ne.symm hne)]
        · rw [readEntry_cons_ne w _ hj, readEntry_cons_ne w m hj, ih hwm]

/-- Settles O48: the rule for a read after a write, by induction on the listed cells. -/
theorem entryReadAfterWrite : Obligations.EntryReadAfterWrite := by
  intro m i j v hw
  exact readEntry_writeEntry i j v hw

end Sys2Proof.Machine
end

section
/-! PROOFS. The reset values of the units (10_state.md R38 to R41): what each of them satisfies, and what a further block is given when it
is instantiated (60_exceptions.md R236). -/

namespace Sys2Proof.Machine

/-! ## The invariants right after reset -/

/-- Nothing is latched, so the view is empty and fits a buffer of any size. -/
theorem decInv_reset (cap : Nat) : DecInv cap Dec.reset where
  running := rfl
  view := Nat.zero_le cap
  fits := ⟨Nat.two_pow_pos _, Nat.two_pow_pos _⟩
  bitsLe := by decide
  evenAtFalling _ := rfl
  oddAtRising h := by simp [Dec.reset] at h
  clean _ _ := ⟨rfl, rfl, rfl⟩
  pulse h := nomatch h
  repetition h := nomatch h
  codeFits h := by simp [Dec.reset] at h
  completed h := nomatch h

theorem encInv_reset (c : Config) : EncInv c Enc.reset where
  running := rfl
  phaseLegal h := nomatch h
  counting h := absurd rfl h
  sending h := absurd rfl h
  resting _ := ⟨rfl, rfl⟩
  envelope := rfl

theorem engInv_unconstructed : EngInv Eng.unconstructed where
  sizesLegal := rfl
  tableLength := rfl
  idsInRange _ h := nomatch h
  tagsInRange _ h := nomatch h
  stateInRange := Nat.two_pow_pos _
  initInRange := Nat.two_pow_pos _

theorem edgeInv_empty (cap : Nat) : EdgeInv cap EdgeBuffer.empty where
  canonical := rfl
  inRange _ h := nomatch h
  countLe := Nat.zero_le cap

/-- Settles O53: the one block and the one buffer of the reset state have their invariants for any configuration, and the default
configuration is legal. -/
theorem resetStateHasTheInvariant : Obligations.ResetStateHasTheInvariant where
  config := by decide
  block := ⟨decInv_reset _, encInv_reset _, engInv_unconstructed⟩
  others _ h := nomatch h
  given b h := by
    obtain rfl : b = State.reset.block := List.mem_singleton.mp h
    exact Nat.zero_lt_one
  buffers e h := by
    obtain rfl : e = EdgeBuffer.empty := List.mem_singleton.mp h
    exact edgeInv_empty _

/-! ## A block just instantiated -/

/-- The buffer an instantiation may add is empty, as a buffer that does not exist reads. -/
theorem bufferAt_instantiate (debounceMs : W32) (buttonId j : Nat) (s : State) (k : Nat) :
    bufferAt (instantiate debounceMs buttonId j s) k = bufferAt s k := by
  simp only [bufferAt, instantiate]
  split
  · rfl
  · simp only [List.getD_eq_getElem?_getD]
    rcases Nat.lt_trichotomy k s.bufs.length with hk | rfl | hk
    · rw [List.getElem?_append_left hk]
    · simp
    · rw [List.getElem?_eq_none (by simpa using hk), List.getElem?_eq_none hk.le]

/-- The buffer number given to the new block's decoder is in use afterwards. -/
theorem instantiate_buffer_exists (debounceMs : W32) (buttonId j : Nat) (s : State) :
    (if j < s.bufs.length then j else s.bufs.length) < (instantiate debounceMs buttonId j s).bufs.length := by
  simp only [instantiate]
  split
  · assumption
  · simp

/-- Settles O11: the units of `State.reset` and those of the instantiated block are the same reset values, but for the debouncer's
constants; the buffers are read through `bufferAt_instantiate`. -/
theorem theResetStateHoldsTheResetValues : Obligations.TheResetStateHoldsTheResetValues := by
  refine ⟨by decide, fun s debounceMs buttonId j => ?_⟩
  refine ⟨instantiate debounceMs buttonId j s, _, rfl, rfl, rfl, rfl, rfl, rfl, rfl, ?_, fun hj => if_pos hj, ?_⟩
  · exact instantiate_buffer_exists debounceMs buttonId j s
  · exact bufferAt_instantiate debounceMs buttonId j s

end Sys2Proof.Machine
end

section
/-! PROOFS. Which instructions change which registers (10_state.md R34): each strobe comes from one instruction, an edge without a unit's
strobes leaves its registers, and a row writes its own unit alone. -/

namespace Sys2Proof.Machine

/-! ## The instruction behind a strobe (30_encoding.md R96) -/

/-- Every strobe of `x` names the instruction `i` as the one that asserts it. -/
structure StrobesOf (i : Instr) (x : Inputs) : Prop where
  rst : x.rst = true → i = .reset
  engPoll : x.engPoll = true → ∃ g, i = .fsmStep (.eng g)
  dbnPoll : x.dbnPoll = true → ∃ now lvl, i = .fsmStep (.dbn now lvl)
  resetDuration : x.resetDuration = true → i = .dbResetDuration
  encPoll : x.encPoll = true → i = .fsmStep .enc
  tick : x.tick = true → i = .encTick
  setCode : x.setCode = true → ∃ v, i = .encSetCode v
  start : x.start = true → ∃ n, i = .decParse n

theorem strobesOf_pollPorts (p : PollInputs) : StrobesOf (.fsmStep p) (pollPorts p) := by
  cases p <;> constructor <;> simp [pollPorts, Inputs.idle]

theorem strobesOf_portsOf {i : Instr} {x : Inputs} (h : portsOf i = some x) : StrobesOf i x := by
  obtain ⟨p, rfl, rfl⟩ | ⟨rfl, rfl⟩ | ⟨n, rfl, rfl⟩ | ⟨v, rfl, rfl⟩ | ⟨rfl, rfl⟩ | ⟨rfl, rfl⟩ | ⟨rfl, rfl⟩ := portsOf_eq_some h
  · exact strobesOf_pollPorts p
  all_goals constructor <;> simp [Inputs.idle]

/-- The instructions with ports are those that pulse a strobe. -/
theorem pulses_eq_isSome_portsOf (i : Instr) : pulses i = (portsOf i).isSome := by cases i <;> rfl

@[simp] theorem pulses_decRow (r : DecRow) : pulses r.instr = false := by cases r <;> rfl
@[simp] theorem pulses_dbnRow (r : DbnRow) : pulses r.instr = false := by cases r <;> rfl
@[simp] theorem pulses_encRow (r : EncRow) : pulses r.instr = false := by cases r <;> rfl
@[simp] theorem pulses_engRow (r : EngRow) : pulses r.instr = false := by cases r <;> rfl

/-! ## What an edge leaves of a unit whose strobes are not asserted -/

section Edge

variable {x : Inputs} {s : State}

/-- No edge writes the engine's constants. -/
theorem blockNext_eng_constants (x : Inputs) (s : State) :
    (blockNext x s).eng.table = s.eng.table ∧ (blockNext x s).eng.sizes = s.eng.sizes ∧
      (blockNext x s).eng.init = s.eng.init := by
  unfold blockNext engAdvance
  split
  · exact ⟨rfl, rfl, rfl⟩
  · dsimp only
    split
    · split <;> exact ⟨rfl, rfl, rfl⟩
    · exact ⟨rfl, rfl, rfl⟩

theorem blockNext_eng_of_no_poll (hr : x.rst = false) (hp : x.engPoll = false) : (blockNext x s).eng = s.eng := by
  simp [blockNext, engAdvance, hr, hp]

theorem blockNext_dbn_of_no_strobe (hr : x.rst = false) (hp : x.dbnPoll = false) (hd : x.resetDuration = false) :
    (blockNext x s).dbn = s.dbn := by
  simp [blockNext, dbnAdvance, dbnConsume_eq, hr, hp, hd]

/-- The encoder without a strobe records a fault or keeps its registers. -/
theorem blockNext_enc_of_no_strobe (hr : x.rst = false) (hp : x.encPoll = false) (ht : x.tick = false)
    (hc : x.setCode = false) :
    (blockNext x s).enc = if encStuck s.enc then s.enc.recordFault else s.enc := by
  simp [blockNext, encAdvance, hr, hp, ht, hc]

theorem blockNext_dec_of_no_start (hr : x.rst = false) (hs : x.start = false) : (blockNext x s).dec = decAdvance s := by
  simp [blockNext, hr, hs]

end Edge

/-! ## What a row writes -/

section Rows

variable {s t : State}

theorem runDecRow_frame {r : DecRow} (h : runDecRow r s = .next t) : ∃ d, t = { s with dec := d } := by
  obtain ⟨-, rfl | ⟨-, rfl⟩⟩ := runDecRow_next h
  · exact ⟨t.dec, rfl⟩
  · exact ⟨_, rfl⟩

theorem runDbnRow_frame {r : DbnRow} (h : runDbnRow r s = .next t) : ∃ d, t = { s with dbn := d } := by
  obtain rfl | rfl := runDbnRow_next h
  · exact ⟨t.dbn, rfl⟩
  · exact ⟨_, rfl⟩

theorem runEncRow_frame {r : EncRow} (h : runEncRow r s = .next t) : ∃ e, t = { s with enc := e } := by
  obtain ⟨-, rfl | rfl⟩ := runEncRow_next h
  · exact ⟨t.enc, rfl⟩
  · exact ⟨_, rfl⟩

theorem runEngRow_frame {r : EngRow} (h : runEngRow r s = .next t) :
    ∃ st a, t = { s with eng := { s.eng with state := st }, act := a } := by
  obtain rfl | rfl | ⟨e, -, rfl⟩ := runEngRow_next h
  · exact ⟨t.eng.state, t.act, rfl⟩
  · exact ⟨s.eng.state, 0, rfl⟩
  · exact ⟨e.toState, e.action, rfl⟩

end Rows

/-! ## The registers an instruction that is a clock edge can change -/

section EdgeInstr

variable {i : Instr} {x : Inputs} {s : State}

theorem eng_state_changed_by_edge (hx : StrobesOf i x) (hc : (blockNext x s).eng.state ≠ s.eng.state) :
    i = .reset ∨ ∃ g, i = .fsmStep (.eng g) := by
  cases hr : x.rst
  case true => exact .inl (hx.rst hr)
  cases hp : x.engPoll
  case true => exact .inr (hx.engPoll hp)
  exact absurd (congrArg Eng.state (blockNext_eng_of_no_poll hr hp)) hc

theorem dbn_changed_by_edge (hx : StrobesOf i x) (hc : (blockNext x s).dbn ≠ s.dbn) :
    i = .reset ∨ i = .dbResetDuration ∨ ∃ now lvl, i = .fsmStep (.dbn now lvl) := by
  cases hr : x.rst
  case true => exact .inl (hx.rst hr)
  cases hd : x.resetDuration
  case true => exact .inr (.inl (hx.resetDuration hd))
  cases hp : x.dbnPoll
  case true => exact .inr (.inr (hx.dbnPoll hp))
  exact absurd (blockNext_dbn_of_no_strobe hr hp hd) hc

theorem enc_changed_by_edge (hx : StrobesOf i x) (hc : (blockNext x s).enc ≠ s.enc) :
    i = .reset ∨ i = .fsmStep .enc ∨ i = .encTick ∨ (∃ v, i = .encSetCode v) ∨
      (encStuck s.enc = true ∧ (blockNext x s).enc = s.enc.recordFault) := by
  cases hr : x.rst
  case true => exact .inl (hx.rst hr)
  cases hp : x.encPoll
  case true => exact .inr (.inl (hx.encPoll hp))
  cases ht : x.tick
  case true => exact .inr (.inr (.inl (hx.tick ht)))
  cases hv : x.setCode
  case true => exact .inr (.inr (.inr (.inl (hx.setCode hv))))
  have he : (blockNext x s).enc = if encStuck s.enc then s.enc.recordFault else s.enc :=
    blockNext_enc_of_no_strobe hr hp ht hv
  cases hk : encStuck s.enc
  case false => exact absurd (by simpa [hk] using he) hc
  exact .inr (.inr (.inr (.inr ⟨rfl, by simpa [hk] using he⟩)))

theorem dec_changed_by_edge (hx : StrobesOf i x) (hc : (blockNext x s).dec ≠ s.dec) :
    i = .reset ∨ (∃ n, i = .decParse n) ∨ (decStuck s.dec = false ∧ decBusy s = true) ∨
      (decStuck s.dec = true ∧ (blockNext x s).dec = s.dec.recordFault) := by
  cases hr : x.rst
  case true => exact .inl (hx.rst hr)
  cases hs : x.start
  case true => exact .inr (.inl (hx.start hs))
  have hd : (blockNext x s).dec = decAdvance s := blockNext_dec_of_no_start hr hs
  unfold decAdvance at hd
  cases hk : decStuck s.dec
  case true => exact .inr (.inr (.inr ⟨rfl, by simpa [hk] using hd⟩))
  cases hb : decBusy s
  case true => exact .inr (.inr (.inl ⟨rfl, rfl⟩))
  exact absurd (by simpa [hk, hb] using hd) hc

/-- The edge of a host operation: block 0 takes its edge, and each other block one without strobes unless it is a reset. -/
theorem hostEdge_effect {t : State} (h : hostEdge x s = .next t) :
    ∃ ps, t = { blockNext x s with peers := ps } ∧ (x.rst = false → ps = peersTick s) := by
  obtain ⟨hr, rfl⟩ | ⟨-, -, -, -, rfl⟩ := hostEdge_next.mp h
  · exact ⟨_, rfl, fun hn => absurd hr (by simp [hn])⟩
  · exact ⟨_, rfl, fun _ => rfl⟩

end EdgeInstr

/-- Settles O58: by what the instruction was. A clock edge is read through the strobes it asserts; a row, a construction and a read write
what they write and leave the rest as it is. -/
theorem registersChangeOnlyByTheirOwnOperations : Obligations.RegistersChangeOnlyByTheirOwnOperations := by
  intro i s t h
  obtain ⟨x, hx, he⟩ | ⟨r, rfl, hr⟩ | ⟨r, rfl, hr⟩ | ⟨r, rfl, hr⟩ | ⟨r, rfl, hr⟩ | ⟨z, ws, s0, rfl, -, rfl⟩ |
    ⟨hi, r, rfl⟩ := exec_cases h
  · have hs : StrobesOf i x := strobesOf_portsOf hx
    have hp : pulses i = true := by rw [pulses_eq_isSome_portsOf, hx]; rfl
    obtain ⟨ps, rfl, hps⟩ := hostEdge_effect he
    refine ⟨fun _ => blockNext_eng_constants x s, fun hc => ?_, fun hc => ?_, fun hc => ?_, fun hc => ?_,
      fun hn => absurd hp (by simp [hn]), fun _ hi => hps (Bool.eq_false_iff.mpr fun hr => hi (hs.rst hr))⟩
    · exact (eng_state_changed_by_edge hs hc).imp_right .inl
    · obtain hi | hi | hi := dbn_changed_by_edge hs hc
      · exact .inl hi
      · exact .inr (.inl hi)
      · exact .inr (.inr (.inl hi))
    · obtain hi | hi | hi | hi | ⟨hk, hf⟩ := enc_changed_by_edge hs hc
      · exact .inl hi
      · exact .inr (.inl hi)
      · exact .inr (.inr (.inl hi))
      · exact .inr (.inr (.inr (.inl hi)))
      · exact .inr (.inr (.inr (.inr (.inr ⟨hp, hk, hf⟩))))
    · obtain hi | hi | ⟨hk, hb⟩ | ⟨hk, hf⟩ := dec_changed_by_edge hs hc
      · exact .inl hi
      · exact .inr (.inl hi)
      · exact .inr (.inr (.inr (.inl ⟨hp, hk, hb⟩)))
      · exact .inr (.inr (.inr (.inr ⟨hp, hk, hf⟩)))
  · obtain ⟨d, rfl⟩ := runDecRow_frame hr
    exact ⟨fun _ => ⟨rfl, rfl, rfl⟩, absurd rfl, absurd rfl, absurd rfl, fun _ => .inr (.inr (.inl ⟨r, rfl⟩)),
      fun _ => rfl, fun hp => absurd hp (by simp)⟩
  · obtain ⟨d, rfl⟩ := runDbnRow_frame hr
    exact ⟨fun _ => ⟨rfl, rfl, rfl⟩, absurd rfl, fun _ => .inr (.inr (.inr ⟨r, rfl⟩)), absurd rfl, absurd rfl,
      fun _ => rfl, fun hp => absurd hp (by simp)⟩
  · obtain ⟨e, rfl⟩ := runEncRow_frame hr
    exact ⟨fun _ => ⟨rfl, rfl, rfl⟩, absurd rfl, absurd rfl, fun _ => .inr (.inr (.inr (.inr (.inl ⟨r, rfl⟩)))),
      absurd rfl, fun _ => rfl, fun hp => absurd hp (by simp)⟩
  · obtain ⟨st, a, rfl⟩ := runEngRow_frame hr
    exact ⟨fun _ => ⟨rfl, rfl, rfl⟩, fun _ => .inr (.inr (.inl ⟨r, rfl⟩)), absurd rfl, absurd rfl, absurd rfl,
      fun _ => rfl, fun hp => absurd hp (by simp)⟩
  · exact ⟨fun hn => absurd rfl (hn z ws s0), fun _ => .inr (.inr (.inr ⟨z, ws, s0, rfl⟩)), absurd rfl, absurd rfl,
      absurd rfl, fun _ => rfl, nofun⟩
  · have hn : pulses i = false := by obtain rfl | rfl | ⟨rfl, -⟩ | rfl := hi <;> rfl
    exact ⟨fun _ => ⟨rfl, rfl, rfl⟩, absurd rfl, absurd rfl, absurd rfl, absurd rfl, fun _ => rfl,
      fun hp => absurd hp (by simp [hn])⟩

end Sys2Proof.Machine
end

section
/-! PROOFS. What a decoder row reads of the edge buffer (20_memory.md R62, 42_nec_decoder.md R151): the two entries its delta is made of. -/

namespace Sys2Proof.Machine

section DecoderReads

variable {s s' : State}

/-- The guards read the two entries at the cursor through their delta alone. -/
theorem inW_eq_of_entries (hc : s'.cfg = s.cfg) (hd : s'.dec = s.dec) (h0 : edgeAt s' s.dec.p = edgeAt s s.dec.p)
    (h1 : edgeAt s' (s.dec.p + 1) = edgeAt s (s.dec.p + 1)) (x : Window) : inW s' x = inW s x := by
  have hdelta : delta s' = delta s := by rw [delta, delta, hd, h0, h1]
  rw [inW, inW, hdelta, hc]

/-- What a row does to the decoder, once its condition and its writes are given, depends on the decoder and the configuration alone. -/
theorem decRowStep_dec_congr {cond : Bool} {w : Dec → Dec} {t : State} (hc : s'.cfg = s.cfg) (hd : s'.dec = s.dec)
    (h : decRowStep cond w s = .next t) : ∃ t', decRowStep cond w s' = .next t' ∧ t'.dec = t.dec := by
  obtain ⟨hn, rfl⟩ := decRowStep_next h
  refine ⟨_, decRowStep_ok ((decCheck_congr hc hd).trans hn), ?_⟩
  have hb : decBusy s' = decBusy s := congrArg Dec.busy hd
  rw [hb]
  split
  · exact congrArg w hd
  · exact hd

/-- `DEC_HALT` as a row without writes. -/
theorem execDecHalt_eq (s : State) : execDecHalt s = decRowStep false id s := by
  cases hc : decCheck s with
  | some f => simp only [execDecHalt, decRowStep, hc]
  | none => simp only [execDecHalt, hc, decRowStep_ok hc, Bool.and_false, Bool.false_eq_true, if_false]

theorem runDecRow_dec_congr {r : DecRow} {t : State} (hc : s'.cfg = s.cfg) (hd : s'.dec = s.dec)
    (hin : ∀ x, inW s' x = inW s x) (h : runDecRow r s = .next t) : ∃ t', runDecRow r s' = .next t' ∧ t'.dec = t.dec := by
  cases r
  all_goals
    simp only [runDecRow, execDecHalt_eq, execDecIdlePrologue, execDecIdleNoise, execDecInitCommand, execDecInitRepetition,
      execDecInitNoise, execDecSsComplete, execDecSsSilence, execDecSsNoise, execDecSpBit0, execDecSpBit1, execDecSpNoise,
      hc, hd, hin] at h ⊢
    exact decRowStep_dec_congr hc hd h

end DecoderReads

/-- Settles O18: a busy decoder has two edges left in its view, and a row's condition and writes are functions of the decoder, the
configuration and the windows its delta falls in. -/
theorem decoderReadsTwoEntriesOfItsView : Obligations.DecoderReadsTwoEntriesOfItsView := by
  refine ⟨fun s hinv hbusy => ?_, fun s s' t r hd hc h0 h1 h => ?_⟩
  · have hrem : 2 ≤ s.dec.rem := of_decide_eq_true hbusy
    exact ⟨by rw [viewEnd]; omega, hinv.view⟩
  · rw [exec_decRow] at h ⊢
    exact runDecRow_dec_congr hc hd (inW_eq_of_entries hc hd h0 h1) h

end Sys2Proof.Machine
end

section
/-! PROOFS. What no instruction writes (20_memory.md R64, 10_state.md R23): the edge buffers, the configuration, and the constants of each
block. -/

namespace Sys2Proof.Machine

/-- The constants of a block: the buffer its decoder is given, and its debouncer's (10_state.md R23). -/
def Block.constants (b : Block) : Nat × W32 × Nat := (b.buf, b.dbn.debounceTime, b.dbn.buttonId)

/-- The edge buffers, the configuration and the constants of every block are in `t` what they are in `s`. -/
structure ConstantsKept (s t : State) : Prop where
  bufs : t.bufs = s.bufs
  cfg : t.cfg = s.cfg
  block : t.block.constants = s.block.constants
  peers : t.peers.map Block.constants = s.peers.map Block.constants

/-! ## The debouncer's constants at a step and at an edge -/

theorem dbnEngineStep_constants (s : State) :
    (dbnEngineStep s).debounceTime = s.dbn.debounceTime ∧ (dbnEngineStep s).buttonId = s.dbn.buttonId := by
  rw [dbnEngineStep_eq]
  cases s.dbn.state
  all_goals
    dsimp only
    split <;> exact ⟨rfl, rfl⟩

theorem dbnConsume_constants (s : State) :
    (dbnConsume s).dbn.debounceTime = s.dbn.debounceTime ∧ (dbnConsume s).dbn.buttonId = s.dbn.buttonId := by
  unfold dbnConsume
  split <;> exact ⟨rfl, rfl⟩

theorem dbnAdvance_constants (s : State) :
    (dbnAdvance s).debounceTime = s.dbn.debounceTime ∧ (dbnAdvance s).buttonId = s.dbn.buttonId := by
  unfold dbnAdvance
  split
  · exact dbnEngineStep_constants s
  · exact ⟨rfl, rfl⟩

/-- A `reset_duration` strobe and the step of the same edge, and a reset too, leave the debouncer's constants. -/
theorem blockNext_constants (x : Inputs) (s : State) : (blockNext x s).block.constants = s.block.constants := by
  unfold blockNext
  split
  · rfl
  · obtain ⟨hstep, hstepId⟩ := dbnAdvance_constants (dbnConsume { s with inp := x })
    obtain ⟨hclear, hclearId⟩ := dbnConsume_constants { s with inp := x }
    simp [Block.constants, hstep, hstepId, hclear, hclearId]

theorem peersReset_constants (s : State) : (peersReset s).map Block.constants = s.peers.map Block.constants := by
  rw [peersReset, List.map_map]
  rfl

theorem peersTick_constants (s : State) : (peersTick s).map Block.constants = s.peers.map Block.constants := by
  rw [peersTick, List.map_map]
  rfl

/-! ## Every instruction -/

theorem hostEdge_constantsKept {x : Inputs} {s t : State} (h : hostEdge x s = .next t) : ConstantsKept s t := by
  obtain ⟨hcfg, -, hbufs, -⟩ := blockNext_frame x s
  obtain ⟨-, rfl⟩ | ⟨-, -, -, -, rfl⟩ := hostEdge_next.mp h
  · exact ⟨hbufs, hcfg, blockNext_constants x s, peersReset_constants s⟩
  · exact ⟨hbufs, hcfg, blockNext_constants x s, peersTick_constants s⟩

theorem runDbnRow_constantsKept {r : DbnRow} {s t : State} (h : runDbnRow r s = .next t) : ConstantsKept s t := by
  obtain rfl | rfl := runDbnRow_next h
  · exact ⟨rfl, rfl, rfl, rfl⟩
  · obtain ⟨htime, hid⟩ := dbnEngineStep_constants s
    exact ⟨rfl, rfl, by simp [Block.constants, State.block, htime, hid], rfl⟩

theorem exec_constantsKept {i : Instr} {s t : State} (h : exec i s = .next t) : ConstantsKept s t := by
  obtain ⟨x, -, he⟩ | ⟨r, -, hr⟩ | ⟨r, -, hr⟩ | ⟨r, -, hr⟩ | ⟨r, -, hr⟩ | ⟨z, ws, s0, -, -, rfl⟩ | ⟨-, r, rfl⟩ :=
    exec_cases h
  · exact hostEdge_constantsKept he
  · obtain ⟨d, rfl⟩ := runDecRow_frame hr
    exact ⟨rfl, rfl, rfl, rfl⟩
  · exact runDbnRow_constantsKept hr
  · obtain ⟨e, rfl⟩ := runEncRow_frame hr
    exact ⟨rfl, rfl, rfl, rfl⟩
  · obtain ⟨st, a, rfl⟩ := runEngRow_frame hr
    exact ⟨rfl, rfl, rfl, rfl⟩
  · exact ⟨rfl, rfl, rfl, rfl⟩
  · exact ⟨rfl, rfl, rfl, rfl⟩

/-- Settles O49: by what the instruction was. An edge keeps the constants of every block, and a row, a construction and a read write
none of them; the entries are read through the buffers and the buffer number. -/
theorem instructionsLeaveTheEdgeBuffer : Obligations.InstructionsLeaveTheEdgeBuffer := by
  intro i s t h
  obtain ⟨hbufs, hcfg, hblock, hpeers⟩ := exec_constantsKept h
  obtain ⟨hbuf, htime, hid⟩ : t.buf = s.buf ∧ t.dbn.debounceTime = s.dbn.debounceTime ∧ t.dbn.buttonId = s.dbn.buttonId := by
    simpa [Block.constants] using hblock
  have hentry (j : Nat) : edgeAt t j = edgeAt s j := by rw [edgeAt, edgeAt, edge_congr hbuf hbufs]
  exact ⟨hbufs, hbuf, hentry, hcfg, htime, hid, hpeers⟩

end Sys2Proof.Machine
end

section
/-! PROOFS. The capture agent's write and append (20_memory.md R63, R66, R67, R72, 60_exceptions.md R223): when each is taken, refused or a
fault, and what it leaves of the borrowed views. -/

namespace Sys2Proof.Machine

section CaptureAgent

variable {s t : State} {j i : Nat} {v : W32}

/-! ## The buffers of a state -/

theorem bufferAt_setBuffer_same (h : j < s.bufs.length) (e : EdgeBuffer) : bufferAt (setBuffer s j e) j = e :=
  (bufferAt_setBuffer h e j).trans (if_pos rfl)

theorem bufferAt_setBuffer_ne {k : Nat} (h : j < s.bufs.length) (e : EdgeBuffer) (hk : k ≠ j) :
    bufferAt (setBuffer s j e) k = bufferAt s k :=
  (bufferAt_setBuffer h e k).trans (if_neg hk)

/-- Showing one more entry changes no cells. -/
theorem bufferAt_bumpCount_cells (h : j < s.bufs.length) (k : Nat) :
    (bufferAt (bumpCount j s) k).cells = (bufferAt s k).cells := by
  by_cases hk : k = j
  · subst hk
    rw [bumpCount, bufferAt_setBuffer_same h]
  · rw [bumpCount, bufferAt_setBuffer_ne h _ hk]

theorem bumpCount_setBuffer (h : j < s.bufs.length) (e : EdgeBuffer) :
    bumpCount j (setBuffer s j e) = setBuffer s j { e with count := e.count + 1 } := by
  rw [bumpCount, bufferAt_setBuffer_same h]
  simp [setBuffer]

/-! ## An entry after a write -/

theorem readEntry_writeEntry_same {m : List EdgeCell} (hw : wfCells m = true) : readEntry (writeEntry m i v) i = v :=
  (readEntry_writeEntry i i v hw).trans (if_pos rfl)

theorem readEntry_writeEntry_ne {m : List EdgeCell} {n : Nat} (hw : wfCells m = true) (hn : n ≠ i) :
    readEntry (writeEntry m i v) n = readEntry m n :=
  (readEntry_writeEntry i n v hw).trans (if_neg hn)

/-! ## The borrowed views -/

theorem inBorrowedView_eq_true :
    inBorrowedView s j i = true ↔ ∃ b ∈ s.blocks, b.buf = j ∧ b.dec.busy = true ∧ i < b.dec.p + b.dec.rem := by
  simp [inBorrowedView, and_assoc]

theorem inBorrowedView_eq_false :
    inBorrowedView s j i = false ↔ ∀ b ∈ s.blocks, b.buf = j → b.dec.busy = true → b.dec.p + b.dec.rem ≤ i := by
  rw [← Bool.not_eq_true, inBorrowedView_eq_true]
  push Not
  rfl

/-! ## The outcomes of a write and of an append -/

theorem agentWrite_no_entry (h : s.cfg.edgeCap ≤ i) : agentWrite j i v s = .fault (.noSuchEntry i) := if_pos h

theorem agentWrite_in_view (hi : i < s.cfg.edgeCap) (hb : inBorrowedView s j i = true) :
    agentWrite j i v s = .refused .borrowedViewWritten := by
  rw [agentWrite, if_neg (Nat.not_le.mpr hi), if_pos hb]

theorem agentWrite_taken (hi : i < s.cfg.edgeCap) (hb : inBorrowedView s j i = false) :
    agentWrite j i v s = .next (setBuffer s j { bufferAt s j with cells := writeEntry (bufferAt s j).cells i v }) := by
  rw [agentWrite, if_neg (Nat.not_le.mpr hi), if_neg (by simp [hb])]

/-- A disabled or full buffer takes no entry. -/
theorem agentAppend_idle (h : (bufferAt s j).capEnabled = false ∨ s.cfg.edgeCap ≤ (bufferAt s j).count) :
    agentAppend j v s = .next s :=
  if_pos (by simpa using h)

/-- An enabled buffer with room left is written at its count, and the write shown. -/
theorem agentAppend_enabled (he : (bufferAt s j).capEnabled = true) (hn : (bufferAt s j).count < s.cfg.edgeCap) :
    agentAppend j v s = andThen (agentWrite j (bufferAt s j).count v s) fun s' => .next (bumpCount j s') :=
  if_neg (by simp [he, hn])

theorem agentAppend_taken (hj : j < s.bufs.length) (he : (bufferAt s j).capEnabled = true)
    (hn : (bufferAt s j).count < s.cfg.edgeCap) (hb : inBorrowedView s j (bufferAt s j).count = false) :
    agentAppend j v s = .next (setBuffer s j { bufferAt s j with
      cells := writeEntry (bufferAt s j).cells (bufferAt s j).count v
      count := (bufferAt s j).count + 1 }) := by
  rw [agentAppend_enabled he hn, agentWrite_taken hn hb, andThen_next, bumpCount_setBuffer hj]

theorem agentAppend_in_view (he : (bufferAt s j).capEnabled = true) (hn : (bufferAt s j).count < s.cfg.edgeCap)
    (hb : inBorrowedView s j (bufferAt s j).count = true) : agentAppend j v s = .refused .borrowedViewWritten := by
  rw [agentAppend_enabled he hn, agentWrite_in_view hn hb, andThen_refused]

/-! ## The entries of the borrowed views -/

/-- Every entry of every borrowed view reads in `t` as it does in `s` (20_memory.md R63). -/
def ViewsKept (s t : State) : Prop :=
  ∀ b ∈ s.blocks, b.dec.busy = true → ∀ n, n < b.dec.p + b.dec.rem →
    readEntry (bufferAt t b.buf).cells n = readEntry (bufferAt s b.buf).cells n

/-- The entry a taken write sets is in no view of a decoder that is given the buffer, and the other buffers are not written. -/
theorem agentWrite_viewsKept (hw : wfCells (bufferAt s j).cells = true) (hj : j < s.bufs.length)
    (h : agentWrite j i v s = .next t) : ViewsKept s t := by
  intro b hb hbusy n hn
  obtain ⟨-, hout, rfl⟩ := agentWrite_next h
  by_cases hbuf : b.buf = j
  · have hend : b.dec.p + b.dec.rem ≤ i := inBorrowedView_eq_false.mp hout b hb hbuf hbusy
    rw [hbuf, bufferAt_setBuffer_same hj, readEntry_writeEntry_ne hw (by omega)]
  · rw [bufferAt_setBuffer_ne hj _ hbuf]

theorem agentAppend_viewsKept (hw : wfCells (bufferAt s j).cells = true) (hj : j < s.bufs.length)
    (h : agentAppend j v s = .next t) : ViewsKept s t := by
  obtain ⟨rfl, -⟩ | ⟨-, -, u, hu, rfl⟩ := agentAppend_next h
  · exact fun _ _ _ _ _ => rfl
  · have hju : j < u.bufs.length := by
      obtain ⟨-, -, rfl⟩ := agentWrite_next hu
      simpa using hj
    intro b hb hbusy n hn
    rw [bufferAt_bumpCount_cells hju]
    exact agentWrite_viewsKept hw hj hu b hb hbusy n hn

end CaptureAgent

/-! ## The obligations -/

/-- Settles O50: the three outcomes of a write by where its entry lies; and a taken write or append sets an entry outside every view. -/
theorem borrowedViewIsStable : Obligations.BorrowedViewIsStable := by
  intro s j i v hw hj
  have hwrite : runEvent (.write j i v) s = agentWrite j i v s := onBuffer_ok hj _
  have happend : runEvent (.append j v) s = agentAppend j v s := onBuffer_ok hj _
  rw [hwrite, happend]
  refine ⟨fun hi hb => agentWrite_in_view hi (inBorrowedView_eq_true.mpr hb), agentWrite_no_entry, fun hi hb => ?_,
    fun t h => h.elim (agentWrite_viewsKept hw hj) (agentAppend_viewsKept hw hj)⟩
  refine ⟨_, agentWrite_taken hi (inBorrowedView_eq_false.mpr hb), ?_⟩
  rw [bufferAt_setBuffer_same hj]
  exact ⟨readEntry_writeEntry_same hw, fun n hn => readEntry_writeEntry_ne hw hn, rfl, rfl,
    fun k hk => bufferAt_setBuffer_ne hj _ hk, rfl⟩

/-- Settles O52: a taken append is a write at the count with the count raised; the other two outcomes leave at the tests before it. -/
theorem appendWritesTheNextEntry : Obligations.AppendWritesTheNextEntry := by
  intro s j v hw hj
  have happend : runEvent (.append j v) s = agentAppend j v s := onBuffer_ok hj _
  rw [happend]
  refine ⟨fun he hn hb => ?_, agentAppend_in_view, agentAppend_idle⟩
  refine ⟨_, agentAppend_taken hj he hn hb, ?_⟩
  rw [bufferAt_setBuffer_same hj]
  exact ⟨rfl, readEntry_writeEntry_same hw, fun n hne => readEntry_writeEntry_ne hw hne, he,
    fun k hk => bufferAt_setBuffer_ne hj _ hk, rfl⟩

end Sys2Proof.Machine
end

section
/-! PROOFS. Words of the opcode table (30_encoding.md R92 to R97): decoding what `encode` gives, and the word a decoded host operation came
from. The operands are taken one shape at a time: a bit, a list of bits, 32 bits, none, and the two lists with a layout of their own. -/

namespace Sys2Proof

/-! ## Operands -/

@[simp] theorem decodeBit_encodeBit (b : Bool) : decodeBit (encodeBit b) = .ok b := by cases b <;> rfl

theorem encodeBit_of_decodeBit {a : Nat} {b : Bool} (h : decodeBit a = .ok b) : encodeBit b = a := by
  match a, h with
  | 0, h => cases h; rfl
  | 1, h => cases h; rfl

/-- A list of bits decodes where its head and its tail do. -/
theorem decodeBits_cons_eq_ok {a : Nat} {as : List Nat} {bs : List Bool} :
    decodeBits (a :: as) = .ok bs ↔ ∃ b bs', decodeBit a = .ok b ∧ decodeBits as = .ok bs' ∧ bs = b :: bs' := by
  cases ha : decodeBit a <;> cases has : decodeBits as <;> simp [decodeBits, ha, has, eq_comm]

@[simp] theorem decodeBits_map_encodeBit (bs : List Bool) : decodeBits (bs.map encodeBit) = .ok bs := by
  induction bs with
  | nil => rfl
  | cons b bs ih => exact decodeBits_cons_eq_ok.mpr ⟨b, bs, decodeBit_encodeBit b, ih, rfl⟩

theorem map_encodeBit_of_decodeBits {as : List Nat} {bs : List Bool} (h : decodeBits as = .ok bs) :
    bs.map encodeBit = as := by
  induction as generalizing bs with
  | nil => cases h; rfl
  | cons a as ih =>
    obtain ⟨b, bs', hb, hbs, rfl⟩ := decodeBits_cons_eq_ok.mp h
    rw [List.map_cons, encodeBit_of_decodeBit hb, ih hbs]

@[simp] theorem decodeW32_toNat (v : W32) : decodeW32 v.toNat = .ok v := by
  rw [decodeW32, if_pos v.isLt, BitVec.ofNat_toNat, BitVec.setWidth_eq]

theorem toNat_of_decodeW32 {a : Nat} {v : W32} (h : decodeW32 a = .ok v) : v.toNat = a := by
  unfold decodeW32 at h
  split at h
  · next hlt => cases h; exact (BitVec.toNat_ofNat a 32).trans (Nat.mod_eq_of_lt hlt)
  · cases h

theorem decodeNullary_eq_ok {i j : Instr} {args : List Nat} : decodeNullary i args = .ok j ↔ args = [] ∧ j = i := by
  cases args <;> simp [decodeNullary, eq_comm]

@[simp] theorem decodeStep_encodeStep (p : PollInputs) : decodeStep (encodeStep p) = .ok (.fsmStep p) := by
  cases p with
  | eng g => rw [encodeStep, decodeStep, decodeBits_map_encodeBit]; rfl
  | dbn now lvl => simp only [encodeStep, decodeStep, decodeW32_toNat, decodeBit_encodeBit]
  | enc => rfl

theorem encodeStep_of_decodeStep {args : List Nat} {i : Instr} (h : decodeStep args = .ok i) :
    ∃ p, i = .fsmStep p ∧ encodeStep p = args := by
  unfold decodeStep at h
  split at h
  case h_1 gs =>
    cases hg : decodeBits gs with
    | error e => rw [hg] at h; cases h
    | ok g =>
      rw [hg] at h
      cases h
      exact ⟨.eng g, rfl, by rw [encodeStep, map_encodeBit_of_decodeBits hg]⟩
  case h_2 now lvl =>
    split at h
    case h_1 t b ht hb =>
      cases h
      exact ⟨.dbn t b, rfl, by rw [encodeStep, toNat_of_decodeW32 ht, encodeBit_of_decodeBit hb]⟩
    all_goals cases h
  case h_3 => cases h; exact ⟨.enc, rfl, rfl⟩
  all_goals cases h

/-- Three sizes stand in the word less 1; a legal one is at least 1, so it comes back. -/
theorem decodeConstruct_operands {z : EngSizes} {ws : List Nat} {s0 : Nat} (h : (Instr.fsmConstruct z ws s0).wf = true) :
    decodeConstruct ((z.stateW - 1) :: z.nEntries :: (z.nGuards - 1) :: (z.nActions - 1) :: s0 :: ws) =
      .ok (.fsmConstruct z ws s0) := by
  obtain ⟨⟨⟨hw, hg⟩, ha⟩, -⟩ : ((1 ≤ z.stateW ∧ 1 ≤ z.nGuards) ∧ 1 ≤ z.nActions) ∧ _ := by
    simpa only [Instr.wf, EngSizes.wf, Bool.and_eq_true, decide_eq_true_eq, and_assoc] using h
  simp only [decodeConstruct, Nat.sub_add_cancel hw, Nat.sub_add_cancel hg, Nat.sub_add_cancel ha, h, if_true]

theorem operands_of_decodeConstruct {args : List Nat} {i : Instr} (h : decodeConstruct args = .ok i) :
    i.wf = true ∧ encode i = ⟨.hostOp, 0x1, args⟩ := by
  unfold decodeConstruct at h
  split at h
  · dsimp only at h
    split at h
    · next hwf => cases h; exact ⟨hwf, rfl⟩
    · cases h
  · cases h

/-! ## Words -/

/-- A number of 16 or more is no host-operation code, and `decodeHost` rejects it by the same name as the width test. -/
theorem decode_hostOp (code : Nat) (args : List Nat) : decode ⟨.hostOp, code, args⟩ = decodeHost code args := by
  unfold decode
  split
  · rfl
  · next hc =>
    have h16 : 16 ≤ code := Nat.not_lt.mp hc
    obtain ⟨n, rfl⟩ := Nat.exists_eq_add_of_le' h16
    rfl

/-- Settles O1: a word without operands decodes by its table; the operands of the others come back one by one. -/
theorem decodeOfEncodeIsTheInstruction : Obligations.DecodeOfEncodeIsTheInstruction := by
  intro i h
  cases i
  case fsmConstruct z ws s0 => exact (decode_hostOp _ _).trans (decodeConstruct_operands h)
  case fsmStep p => exact (decode_hostOp _ _).trans (decodeStep_encodeStep p)
  case encSetCode v =>
    rw [encode, decode_hostOp, decodeHost, decodeW32_toNat]
    rfl
  all_goals rfl

/-- An operation without operands is the word of its code with none. -/
theorem word_of_decodeNullary {i j : Instr} {code : Nat} {args : List Nat} (hwf : i.wf = true)
    (hi : encode i = ⟨.hostOp, code, []⟩) (h : decodeNullary i args = .ok j) :
    j.wf = true ∧ encode j = ⟨.hostOp, code, args⟩ := by
  obtain ⟨rfl, rfl⟩ := decodeNullary_eq_ok.mp h
  exact ⟨hwf, hi⟩

/-- Settles O2: by the code, each with the operands its operation takes. -/
theorem hostWordIsItsInstructionsWord : Obligations.HostWordIsItsInstructionsWord := by
  intro code args i h
  rw [decode_hostOp] at h
  match code, h with
  | 0x0, h | 0xC, h | 0xD, h | 0xE, h => cases h; exact ⟨rfl, rfl⟩
  | 0x1, h => exact operands_of_decodeConstruct h
  | 0x2, h =>
    obtain ⟨p, rfl, rfl⟩ := encodeStep_of_decodeStep h
    exact ⟨rfl, rfl⟩
  | 0x6, h =>
    match args, h with
    | [n], h => cases h; exact ⟨rfl, rfl⟩
  | 0x8, h =>
    match args, h with
    | [a], h =>
      replace h : (decodeW32 a).map Instr.encSetCode = .ok i := h
      cases hv : decodeW32 a with
      | error e => rw [hv] at h; cases h
      | ok v =>
        rw [hv] at h
        cases h
        exact ⟨rfl, by rw [encode, toNat_of_decodeW32 hv]; rfl⟩
  | 0x3, h | 0x4, h | 0x5, h | 0x7, h | 0x9, h | 0xA, h | 0xB, h | 0xF, h => exact word_of_decodeNullary rfl rfl h

/-- Settles O5: seven words and the three tables of the fixed units, by evaluation. -/
theorem wordsOfTheTableDecode : Obligations.WordsOfTheTableDecode := by
  unfold Obligations.WordsOfTheTableDecode
  decide

end Sys2Proof
end

section
/-! PROOFS. The selector tables (30_encoding.md R91 to R95): rows that exclude each other, and a row for every selector a unit computes. -/

namespace Sys2Proof

/-- Two rows that match one selector agree on the bits both of them test. -/
theorem SelRow.patterns_agree {α : Type} {r r' : SelRow α} {w : Nat} (h : r.hits w = true) (h' : r'.hits w = true) :
    r.pattern &&& r'.mask = r'.pattern &&& r.mask := by
  have hr : w &&& r.mask = r.pattern := eq_of_beq h
  have hr' : w &&& r'.mask = r'.pattern := eq_of_beq h'
  rw [← hr, ← hr', Nat.and_right_comm]

/-- A table excludes two matches where any two rows that agree on the bits both test are the same row. -/
theorem SelRow.eq_of_hits {α : Type} {rows : List (SelRow α)} {w : Nat}
    (hrows : ∀ r ∈ rows, ∀ r' ∈ rows, r.pattern &&& r'.mask = r'.pattern &&& r.mask → r = r') :
    ∀ r ∈ rows, ∀ r' ∈ rows, r.hits w = true → r'.hits w = true → r = r' :=
  fun r hr r' hr' h h' => hrows r hr r' hr' (SelRow.patterns_agree h h')

/-- Settles O3: of any two rows of a table, some bit that both test has different values. -/
theorem selectorRowsExcludeEachOther : Obligations.SelectorRowsExcludeEachOther := by
  intro w
  exact ⟨SelRow.eq_of_hits (by decide), SelRow.eq_of_hits (by decide), SelRow.eq_of_hits (by decide),
    SelRow.eq_of_hits (by decide)⟩

end Sys2Proof

namespace Sys2Proof.Machine

theorem busyRow_eq_some (tick ce : Bool) (r : EncRow) : ∃ r', busyRow tick ce (some r) = some r' := by
  cases tick <;> cases ce <;> exact ⟨_, rfl⟩

/-- Every phase but the reserved one has a row for its end. -/
theorem encRowOf_eq_some {ph : EncPhase} (h : ph ≠ .reserved) (poll tick pz ce lb : Bool) :
    ∃ r, encRowOf poll tick ph pz ce lb = some r := by
  cases ph
  case idle => exact ⟨_, rfl⟩
  case reserved => exact absurd rfl h
  all_goals exact busyRow_eq_some tick ce _

/-- Settles O4: the row is the one the selector's fields name. -/
theorem everyComputedSelectorHasARow : Obligations.EveryComputedSelectorHasARow := by
  intro s
  refine ⟨⟨_, decodeDec_decSelector s⟩, ⟨_, decodeDbn_dbnSelector s⟩, ⟨_, decodeEng_engSelector s⟩, fun h => ?_⟩
  rw [decodeEnc_encSelector]
  exact encRowOf_eq_some h ..

end Sys2Proof.Machine
end

section
/-! PROOFS. Table-entry words (30_encoding.md R83): a word is its fields one after another, and a field is read back past those below it. -/

namespace Sys2Proof

section Fields

variable {a b m n : Nat}

/-- A field of `m` bits with one of `n` bits below it has `m + n` bits. -/
theorem append_field_lt (ha : a < 2 ^ m) (hb : b < 2 ^ n) : a * 2 ^ n + b < 2 ^ (m + n) :=
  calc a * 2 ^ n + b < (a + 1) * 2 ^ n := by rw [Nat.add_mul, Nat.one_mul]; exact Nat.add_lt_add_left hb _
    _ ≤ 2 ^ m * 2 ^ n := Nat.mul_le_mul_right _ ha
    _ = 2 ^ (m + n) := (Nat.pow_add 2 m n).symm

theorem bitField_whole (hb : b < 2 ^ n) : bitField b 0 n = b := Nat.mod_eq_of_lt hb

theorem bitField_lowest (hb : b < 2 ^ n) : bitField (a * 2 ^ n + b) 0 n = b := by
  rw [bitField, Nat.shiftRight_zero, Nat.mul_add_mod', Nat.mod_eq_of_lt hb]

/-- A field above the lowest one is the field of what stands above it. -/
theorem bitField_above_lowest {lo p : Nat} (hb : b < 2 ^ n) (hp : p = n + lo) (k : Nat) :
    bitField (a * 2 ^ n + b) p k = bitField a lo k := by
  have hshift : (a * 2 ^ n + b) >>> n = a := by
    rw [Nat.shiftRight_eq_div_pow, Nat.mul_comm, Nat.mul_add_div (Nat.two_pow_pos n), Nat.div_eq_of_lt hb, Nat.add_zero]
  rw [bitField, bitField, hp, Nat.shiftRight_add, hshift]

end Fields

/-- Settles O6: each field fits its width, so it neither reaches into the one above it nor past the word. -/
theorem tableEntryWordRoundTrip : Obligations.TableEntryWordRoundTrip := by
  intro z e hfrom hguard hto haction
  constructor
  · have hwidth : z.entryW = z.stateW + z.gw + z.stateW + z.aw := by rw [EngSizes.entryW]; omega
    rw [hwidth]
    exact append_field_lt (append_field_lt (append_field_lt hfrom hguard) hto) haction
  · have hf : bitField (wordOfEntry z e) (z.stateW + z.gw + z.aw) z.stateW = e.fromState := by
      rw [wordOfEntry, bitField_above_lowest haction (Nat.add_comm _ z.aw), bitField_above_lowest hto rfl,
        bitField_above_lowest hguard (Nat.add_zero z.gw).symm, bitField_whole hfrom]
    have hg : bitField (wordOfEntry z e) (z.stateW + z.aw) z.gw = e.guard := by
      rw [wordOfEntry, bitField_above_lowest haction (Nat.add_comm _ z.aw),
        bitField_above_lowest hto (Nat.add_zero z.stateW).symm, bitField_lowest hguard]
    have ht : bitField (wordOfEntry z e) z.aw z.stateW = e.toState := by
      rw [wordOfEntry, bitField_above_lowest haction (Nat.add_zero z.aw).symm, bitField_lowest hto]
    have ha : bitField (wordOfEntry z e) 0 z.aw = e.action := bitField_lowest haction
    rw [entryOfWord, hf, hg, ht, ha]

end Sys2Proof
end

section
/-! PROOFS. The windows (30_encoding.md R86, R87): bounds in ticks against bounds in microseconds. -/

namespace Sys2Proof.Machine

theorem windowLo_le_iff {c : Config} {x : Window} {n : Nat} (ht : 1 ≤ c.tickDecNs) :
    windowLo c x ≤ n ↔ (microWindow c x).loUs * 1000 ≤ n * c.tickDecNs := by
  rw [windowLo, Nat.div_le_iff_le_mul_add_pred ht, Nat.mul_comm c.tickDecNs,
    Nat.add_le_add_iff_right]

theorem le_windowHi_iff {c : Config} {x : Window} {n : Nat} (ht : 1 ≤ c.tickDecNs) :
    n ≤ windowHi c x ↔ n * c.tickDecNs ≤ (microWindow c x).hiUs * 1000 :=
  Nat.le_div_iff_mul_le ht

theorem inWindow_eq_true {c : Config} {x : Window} {d : W32} :
    inWindow c x d = true ↔ windowLo c x ≤ d.toNat ∧ d.toNat ≤ windowHi c x := by
  simp [inWindow]

/-- Two windows that do not meet hold no delta both. -/
theorem not_inWindow_both {c : Config} {x y : Window} (h : windowHi c y < windowLo c x) (d : W32) :
    ¬ (inWindow c x d = true ∧ inWindow c y d = true) := by
  rw [inWindow_eq_true, inWindow_eq_true]
  omega

theorem windowsDisjoint_default : windowsDisjoint Config.default := fun d =>
  ⟨not_inWindow_both (by decide) d, fun h => not_inWindow_both (by decide) d h.symm⟩

/-- Settles O28: rounding the lower bound up and the upper bound down keeps exactly the deltas between them. -/
theorem tickWindowsAreTheMicrosecondWindows : Obligations.TickWindowsAreTheMicrosecondWindows := by
  refine ⟨fun c x d ht => ?_, by decide, windowsDisjoint_default⟩
  rw [inWindow_eq_true, windowLo_le_iff ht, le_windowHi_iff ht]

end Sys2Proof.Machine
end

section
/-! PROOFS. A step runs the next event (30_encoding.md R96, R97, 60_exceptions.md R236): a host operation on the block it names. -/

namespace Sys2Proof.Machine

/-! ## A host operation from its word -/

theorem runHost_of_decode {code : Nat} {args : List Nat} {i : Instr} (h : decode ⟨.hostOp, code, args⟩ = .ok i) (s : State) :
    runHost code args s = exec i s := by
  simp only [runHost, h]

theorem runHost_of_error {code : Nat} {args : List Nat} {e : DecodeError} (h : decode ⟨.hostOp, code, args⟩ = .error e)
    (s : State) : runHost code args s = .refused (.undecodable e) := by
  simp only [runHost, h]

theorem runHost_reserved {code : Nat} (h : code = 0x0 ∨ code = 0xC ∨ code = 0xD ∨ code = 0xE) (args : List Nat) (s : State) :
    runHost code args s = .refused .reservedHostOp := by
  obtain rfl | rfl | rfl | rfl := h <;> rfl

/-! ## An operation on a block -/

section OnBlock

variable {f : State → Host.Outcome State Fault Refusal} {k : Nat} {s u v t : State}

theorem exchange_succ {b : Block} (hb : s.peers[k]? = some b) :
    exchange (k + 1) s = some { s.withBlock b with peers := s.peers.set k s.block } := by
  simp only [exchange, hb]

/-- Block 0 stands in its place already. -/
theorem onBlock_zero (f : State → Host.Outcome State Fault Refusal) (s : State) : onBlock 0 f s = f s := by
  have hput : onBlock 0 f s = andThen (f s) .next := rfl
  rw [hput]
  cases f s <;> rfl

theorem onBlock_next (hu : exchange k s = some u) (hf : f u = .next v) (ht : exchange k v = some t) :
    onBlock k f s = .next t := by
  simp only [onBlock, hu, hf, andThen_next, ht]

theorem onBlock_fault {r : Fault} (hu : exchange k s = some u) (hf : f u = .fault r) : onBlock k f s = .fault r := by
  simp only [onBlock, hu, hf, andThen_fault]

theorem onBlock_refused {r : Refusal} (hu : exchange k s = some u) (hf : f u = .refused r) :
    onBlock k f s = .refused r := by
  simp only [onBlock, hu, hf, andThen_refused]

theorem onBlock_no_block (h : s.peers.length < k) : onBlock k f s = .refused .noSuchInstance := by
  simp only [onBlock, exchange_eq_none h]

end OnBlock

/-- No instruction adds or removes a block. -/
theorem exec_peers_length {i : Instr} {s t : State} (h : exec i s = .next t) : t.peers.length = s.peers.length := by
  simpa using congrArg List.length (exec_constantsKept h).peers

theorem step_of_inbox {s : State} {ev : Event} {rest : List Event} (h : s.inbox = ev :: rest) :
    step s = runEvent ev { s with inbox := rest } := by
  unfold step
  rw [h]

/-- Settles O7: a host operation is `onBlock` of its instruction; the block exchanged for block 0 is still there when the instruction has
run, so it can be put back. -/
theorem stepRunsTheDecodedOperation : Obligations.StepRunsTheDecodedOperation := by
  intro s
  refine ⟨fun h => ?_, fun ev rest => step_of_inbox, fun code args rest h => ?_, fun k code args rest b i h hb hi u hu => ?_,
    fun k code args rest h hk => ?_, fun xs rest => step_of_inbox⟩
  · unfold step
    rw [h]
  · have hstep : step s = runHost code args { s with inbox := rest } := (step_of_inbox h).trans (onBlock_zero _ _)
    rw [hstep]
    exact ⟨fun i hi => runHost_of_decode hi _, fun e he => runHost_of_error he _⟩
  · rw [step_of_inbox h, ← runHost_of_decode hi u]
    have hex : exchange (k + 1) { s with inbox := rest } = some u := hu ▸ exchange_succ hb
    refine ⟨fun t ht => ?_, fun f => onBlock_fault hex, fun r => onBlock_refused hex⟩
    have hk : k < t.peers.length := by
      have hks : k < s.peers.length := (List.getElem?_eq_some_iff.mp hb).1
      rw [runHost_of_decode hi] at ht
      rw [exec_peers_length ht, hu]
      simpa using hks
    have hc : t.peers[k]? = some t.peers[k] := List.getElem?_eq_getElem hk
    exact ⟨t.peers[k], hc, onBlock_next hex ht (exchange_succ hc)⟩
  · rw [step_of_inbox h]
    exact onBlock_no_block hk

/-- Settles O57: the word of a reserved code decodes with any operands, and the operation it stands for is refused on any block. -/
theorem reservedCodesAreRefused : Obligations.ReservedCodesAreRefused := by
  intro s
  refine ⟨rfl, rfl, rfl, rfl, fun k code args hk hcode => ?_⟩
  obtain ⟨u, hu⟩ := exchange_eq_some hk
  exact onBlock_refused hu (runHost_reserved hcode args u)

end Sys2Proof.Machine
end

section
/-! PROOFS. The unreachable combinations (30_encoding.md R98): a unit that stands in one takes no row and no step, and the others take
theirs. -/

namespace Sys2Proof.Machine

/-! ## A stuck unit -/

theorem decStuck_iff {d : Dec} :
    decStuck d = true ↔ d.faulted = true ∨ 32 < d.bits.toNat ∨ (d.state = .sp ∧ d.bits = 0#6) ∨
      ((d.state = .idle ∨ d.state = .init) ∧ d.done = false ∧ d.code ≠ 0#32) := by
  simp [decStuck, decUnreachable, or_assoc, and_assoc]

theorem encStuck_iff {e : Enc} :
    encStuck e = true ↔ e.faulted = true ∨ e.phase = .reserved ∨ (e.phase ≠ .idle ∧ e.cnt = 0#16) := by
  simp [encStuck, encUnreachable]

section Stuck

variable {s : State}

theorem decCheck_of_stuck (h : decStuck s.dec = true) : decCheck s = some (.unreachable .dec) := if_pos h

theorem encCheck_of_stuck (h : encStuck s.enc = true) : encCheck s = some (.unreachable .enc) := if_pos h

theorem decAdvance_of_stuck (h : decStuck s.dec = true) : decAdvance s = s.dec.recordFault := if_pos h

theorem encAdvance_of_stuck (h : encStuck s.enc = true) : encAdvance s = s.enc.recordFault := if_pos h

theorem decRowStep_fault {f : Fault} (h : decCheck s = some f) (cond : Bool) (w : Dec → Dec) :
    decRowStep cond w s = .fault f := by
  simp only [decRowStep, h]

theorem encRowStep_fault {f : Fault} (h : encCheck s = some f) (cond : Bool) (w : Enc → Enc) :
    encRowStep cond w s = .fault f := by
  simp only [encRowStep, h]

/-- Every row of the decoder makes the unit's check first. -/
theorem runDecRow_fault {f : Fault} (h : decCheck s = some f) (r : DecRow) : runDecRow r s = .fault f := by
  cases r
  all_goals
    simp only [runDecRow, execDecHalt_eq, execDecIdlePrologue, execDecIdleNoise, execDecInitCommand, execDecInitRepetition,
      execDecInitNoise, execDecSsComplete, execDecSsSilence, execDecSsNoise, execDecSpBit0, execDecSpBit1, execDecSpNoise,
      decRowStep_fault h]

/-- Every row of the encoder makes the unit's check first. -/
theorem runEncRow_fault {f : Fault} (h : encCheck s = some f) (r : EncRow) : runEncRow r s = .fault f := by
  cases r
  all_goals
    simp only [runEncRow, execEncNoPoll, execEncSend, execEncNothing, execEncWait, execEncCount, execEncProOnEnd,
      execEncProOffEnd, execEncBitOnEnd, execEncBitOffNext, execEncBitOffLast, execEncEpiOnEnd, execEncEpiOffEnd,
      encRowStep_fault h]

/-! ## An edge and a reset -/

/-- An edge that is neither refused nor stopped by a decoder completes. -/
theorem clockEdge_ok {x : Inputs} {xs : List Inputs} (hx : edgeRefusal x s = none) (ho : decOut s = false)
    (hp : peersRun xs s) : clockEdge x xs s = .next { blockNext x s with peers := peersNext xs s } :=
  clockEdge_next.mpr ⟨.inr ⟨hx, ho⟩, hp, rfl⟩

theorem exec_reset (s : State) :
    exec .reset s = .next { blockNext { Inputs.idle with rst := true } s with peers := peersReset s } :=
  (exec_ports rfl s).trans (hostEdge_next.mpr (.inl ⟨rfl, rfl⟩))

end Stuck

section NoReset

variable {x : Inputs} {s : State}

theorem blockNext_dec (hr : x.rst = false) :
    (blockNext x s).dec = if x.start then (decAdvance s).load s.cfg x.countIn else decAdvance s := by
  simp [blockNext, hr]

theorem blockNext_dbn (hr : x.rst = false) : (blockNext x s).dbn = dbnAdvance (dbnConsume { s with inp := x }) := by
  simp [blockNext, hr]

theorem blockNext_enc (hr : x.rst = false) :
    (blockNext x s).enc =
      if x.setCode then { encAdvance { s with inp := x } with pending := x.codeIn } else encAdvance { s with inp := x } := by
  simp [blockNext, hr]

theorem blockNext_enc_of_no_setCode (hr : x.rst = false) (hs : x.setCode = false) :
    (blockNext x s).enc = encAdvance { s with inp := x } := by
  simp [blockNext, hr, hs]

theorem blockNext_eng (hr : x.rst = false) : (blockNext x s).eng = (engAdvance { s with inp := x }).1 := by
  simp [blockNext, hr]

/-- A load of the decoder keeps the record. -/
theorem blockNext_dec_faulted (hr : x.rst = false) (h : decStuck s.dec = true) : (blockNext x s).dec.faulted = true := by
  rw [blockNext_dec hr, decAdvance_of_stuck h]
  split <;> rfl

/-- A load of the encoder keeps the record. -/
theorem blockNext_enc_faulted (hr : x.rst = false) (h : encStuck s.enc = true) : (blockNext x s).enc.faulted = true := by
  have hk : encAdvance { s with inp := x } = s.enc.recordFault := encAdvance_of_stuck h
  rw [blockNext_enc hr, hk]
  split <;> rfl

end NoReset

/-- Settles O17: a stuck unit fails the check of its rows, at an edge it records the fault in place of a step, and a reset loads the record
with the unit's registers. -/
theorem unreachableCombinationsFault : Obligations.UnreachableCombinationsFault := by
  refine ⟨fun s h => ?_, fun s h => ?_⟩
  · have hstuck : decStuck s.dec = true := decStuck_iff.mpr h
    refine ⟨fun r => ?_, fun x xs hr hx hp => ?_, _, exec_reset s, rfl⟩
    · rw [exec_decRow]
      exact runDecRow_fault (decCheck_of_stuck hstuck) r
    · refine ⟨_, clockEdge_ok hx (decOut_of_stuck hstuck) hp, blockNext_dec_faulted hr hstuck, fun hs => ?_,
        blockNext_dbn hr, blockNext_enc_of_no_setCode hr, blockNext_eng hr, rfl⟩
      exact (blockNext_dec_of_no_start hr hs).trans (decAdvance_of_stuck hstuck)
  · have hstuck : encStuck s.enc = true := encStuck_iff.mpr h
    refine ⟨fun r => ?_, fun x xs hr hx ho hp => ?_, _, exec_reset s, rfl⟩
    · rw [exec_encRow]
      exact runEncRow_fault (encCheck_of_stuck hstuck) r
    · refine ⟨_, clockEdge_ok hx ho hp, blockNext_enc_faulted hr hstuck, fun hs => ?_, blockNext_dbn hr, fun hs => ?_,
        blockNext_eng hr, rfl⟩
      · exact (blockNext_enc_of_no_setCode hr hs).trans (encAdvance_of_stuck hstuck)
      · exact (blockNext_dec_of_no_start hr hs).trans (decAdvance_congr rfl rfl rfl)

end Sys2Proof.Machine
end

section
/-! PROOFS. The selector rows refine the ordered transition tables (40_fsm_engine.md R111, 60_exceptions.md R226): an edge without reset as the
tables give it, and a poll as an edge with the strobe of one unit (40_fsm_engine.md R117, R118). -/

namespace Sys2Proof.Machine

/-- Settles O9: an edge that runs completes and leaves `blockNext` of block 0 and `peersNext` of the others, which are the tables' steps with
the loads; and the port values are none of what the decoder's step reads. -/
theorem clockEdgeRefinesTheTransitionTables : Obligations.ClockEdgeRefinesTheTransitionTables := by
  intro x xs s hr hx ho hp
  have hdec : decAdvance { s with inp := x } = decAdvance s := decAdvance_congr rfl rfl rfl
  rw [clockEdge_ok hx ho hp, hdec, blockNext, if_neg (by simp [hr])]

/-! ## The unit that is not polled, and the one that is -/

section Poll

variable {x : Inputs} {s : State}

theorem dbnConsume_of_no_strobe (hd : x.resetDuration = false) : dbnConsume { s with inp := x } = { s with inp := x } :=
  if_neg (by simp [hd])

theorem dbnAdvance_of_no_poll (hp : x.dbnPoll = false) : dbnAdvance { s with inp := x } = s.dbn := if_neg (by simp [hp])

theorem dbnAdvance_of_poll (hp : x.dbnPoll = true) :
    dbnAdvance { s with inp := x } = dbnEngineStep { s with inp := x } := if_pos hp

theorem encAdvance_of_no_strobe (hk : encStuck s.enc = false) (hp : x.encPoll = false) (ht : x.tick = false) :
    encAdvance { s with inp := x } = s.enc := by
  simp [encAdvance, hk, hp, ht]

/-- A busy encoder ignores the poll (43_nec_encoder.md R192). -/
theorem encAdvance_of_poll (hk : encStuck s.enc = false) (hp : x.encPoll = true) (ht : x.tick = false) :
    encAdvance { s with inp := x } = if encBusy s then s.enc else encEngineStep s := by
  have hstep : encEngineStep { s with inp := x } = encEngineStep s := encEngineStep_congr rfl rfl
  simp [encAdvance, encBusy, hk, hp, ht, hstep]

theorem engAdvance_of_no_poll (hp : x.engPoll = false) : engAdvance { s with inp := x } = (s.eng, 0) :=
  if_neg (by simp [hp])

/-- A polled engine goes to the target of the entry that fires and asserts its action; without one it stays and asserts none. -/
theorem engAdvance_of_poll (hp : x.engPoll = true) :
    engAdvance { s with inp := x } =
      ({ s.eng with state :=
          ((engineSelect s.eng.table s.eng.state (guardValue x.g)).map Entry.toState).getD s.eng.state },
        ((engineSelect s.eng.table s.eng.state (guardValue x.g)).map Entry.action).getD 0) := by
  simp only [engAdvance, engFired, hp, if_true]
  cases engineSelect s.eng.table s.eng.state (guardValue x.g) <;> rfl

end Poll

/-! ## `FSM_STEP` -/

section FsmStep

variable (p : PollInputs) (s : State)

@[simp] theorem pollPorts_rst : (pollPorts p).rst = false := by cases p <;> rfl
@[simp] theorem pollPorts_start : (pollPorts p).start = false := by cases p <;> rfl
@[simp] theorem pollPorts_setCode : (pollPorts p).setCode = false := by cases p <;> rfl
@[simp] theorem pollPorts_resetDuration : (pollPorts p).resetDuration = false := by cases p <;> rfl

/-- A poll loads no register, so each unit takes its step and nothing else. -/
theorem blockNext_pollPorts :
    blockNext (pollPorts p) s =
      { s with
        inp := pollPorts p
        dec := decAdvance s
        dbn := dbnAdvance { s with inp := pollPorts p }
        enc := encAdvance { s with inp := pollPorts p }
        eng := (engAdvance { s with inp := pollPorts p }).1
        act := (engAdvance { s with inp := pollPorts p }).2 } := by
  simp [blockNext, dbnConsume_of_no_strobe]

variable {s}

theorem encStuck_of_unitsOk (hs : unitsOk s) : encStuck s.enc = false := by
  obtain ⟨-, henc, -⟩ := hs
  exact encCheck_eq_none.mp henc

/-- A poll is refused by no unit. -/
theorem exec_fsmStep (hs : unitsOk s) :
    exec (.fsmStep p) s = .next { blockNext (pollPorts p) s with peers := peersTick s } := by
  obtain ⟨hdec, -, hpeers⟩ := hs
  have hx : edgeRefusal (pollPorts p) s = none := edgeRefusal_idle (pollPorts_start p) (pollPorts_setCode p) s
  exact (exec_ports rfl s).trans
    (hostEdge_next.mpr (.inr ⟨pollPorts_rst p, hx, (decCheck_eq_none.mp hdec).2, hpeers, rfl⟩))

theorem exec_fsmStep_dbn (hs : unitsOk s) (now : W32) (lvl : Bool) :
    exec (.fsmStep (.dbn now lvl)) s = .next
      { s with
        inp := pollPorts (.dbn now lvl)
        dec := decAdvance s
        dbn := dbnEngineStep { s with inp := pollPorts (.dbn now lvl) }
        act := 0
        peers := peersTick s } := by
  have hk : encStuck s.enc = false := encStuck_of_unitsOk hs
  rw [exec_fsmStep _ hs, blockNext_pollPorts, dbnAdvance_of_poll (x := pollPorts (.dbn now lvl)) rfl,
    encAdvance_of_no_strobe (x := pollPorts (.dbn now lvl)) hk rfl rfl,
    engAdvance_of_no_poll (x := pollPorts (.dbn now lvl)) rfl]

theorem exec_fsmStep_enc (hs : unitsOk s) :
    exec (.fsmStep .enc) s = .next
      { s with
        inp := pollPorts .enc
        dec := decAdvance s
        enc := if encBusy s then s.enc else encEngineStep s
        act := 0
        peers := peersTick s } := by
  have hk : encStuck s.enc = false := encStuck_of_unitsOk hs
  rw [exec_fsmStep _ hs, blockNext_pollPorts, dbnAdvance_of_no_poll (x := pollPorts .enc) rfl,
    encAdvance_of_poll (x := pollPorts .enc) hk rfl rfl, engAdvance_of_no_poll (x := pollPorts .enc) rfl]

theorem exec_fsmStep_eng (hs : unitsOk s) (g : List Bool) :
    exec (.fsmStep (.eng g)) s = .next
      { s with
        inp := pollPorts (.eng g)
        dec := decAdvance s
        eng := { s.eng with state :=
          ((engineSelect s.eng.table s.eng.state (guardValue g)).map Entry.toState).getD s.eng.state }
        act := ((engineSelect s.eng.table s.eng.state (guardValue g)).map Entry.action).getD 0
        peers := peersTick s } := by
  have hk : encStuck s.enc = false := encStuck_of_unitsOk hs
  rw [exec_fsmStep _ hs, blockNext_pollPorts, dbnAdvance_of_no_poll (x := pollPorts (.eng g)) rfl,
    encAdvance_of_no_strobe (x := pollPorts (.eng g)) hk rfl rfl, engAdvance_of_poll (x := pollPorts (.eng g)) rfl]
  rfl

end FsmStep

/-- Settles O31: the polled unit's step is its engine's, and the step of each of the others but the decoder's changes no register. -/
theorem fsmStepStepsTheUnit : Obligations.FsmStepStepsTheUnit := by
  intro s hs
  exact ⟨exec_fsmStep_dbn hs, exec_fsmStep_enc hs, exec_fsmStep_eng hs⟩

end Sys2Proof.Machine
end

section
/-! PROOFS. The stand-alone engine (40_fsm_engine.md R110 to R117): which entry fires, what its rows do, and which tables it takes. -/

namespace Sys2Proof.Machine

/-! ## The entry that fires (R111, R112) -/

theorem entryFires_eq_true {st : Nat} {g : Nat → Bool} {e : Entry} :
    entryFires st g e = true ↔ e.fromState = st ∧ g e.guard = true := by
  simp [entryFires]

/-- An entry that fires is selected where no entry before it fires. -/
theorem engineSelect_of_earliest {table before after : List Entry} {e : Entry} {st : Nat} {g : Nat → Bool}
    (ht : table = before ++ e :: after) (hb : ∀ x ∈ before, ¬ (x.fromState = st ∧ g x.guard = true))
    (he : e.fromState = st ∧ g e.guard = true) : engineSelect table st g = some e := by
  refine List.find?_eq_some_iff_append.mpr ⟨entryFires_eq_true.mpr he, before, after, ht, fun x hx => ?_⟩
  rw [Bool.not_eq_true', ← Bool.not_eq_true, entryFires_eq_true]
  exact hb x hx

theorem engineSelect_eq_none {table : List Entry} {st : Nat} {g : Nat → Bool} :
    engineSelect table st g = none ↔ ∀ x ∈ table, ¬ (x.fromState = st ∧ g x.guard = true) := by
  simp only [engineSelect, List.find?_eq_none, entryFires_eq_true]

/-! ## The rows -/

section Rows

variable {s : State}

theorem execEngFire_of_fired {e : Entry} (hp : s.inp.engPoll = true) (hf : engFired s = some e) :
    execEngFire s = .next { s with eng := { s.eng with state := e.toState }, act := e.action } := by
  simp only [execEngFire, hp, hf]

theorem execEngNoMatch_of_none (hp : s.inp.engPoll = true) (hf : engFired s = none) :
    execEngNoMatch s = .next { s with act := 0 } := by
  simp [execEngNoMatch, hp, hf]

theorem execEngNoPoll_of_no_poll (hp : s.inp.engPoll = false) : execEngNoPoll s = .next { s with act := 0 } := by
  simp [execEngNoPoll, hp]

end Rows

/-- Settles O46: the earliest firing entry is the one selected, and both the poll and the row go to the target of the entry selected. -/
theorem earliestFiringEntryFires : Obligations.EarliestFiringEntryFires := by
  intro s g before after e ht hb hst hg
  have hsel : engineSelect s.eng.table s.eng.state (guardValue g) = some e := engineSelect_of_earliest ht hb ⟨hst, hg⟩
  refine ⟨fun hs => ⟨_, exec_fsmStep_eng hs g, ?_⟩, fun hp hi => ?_⟩
  · rw [hsel]
    rfl
  · subst hi
    exact ⟨_, execEngFire_of_fired hp hsel, rfl, rfl⟩

/-- Settles O47: no entry is selected, so the selector's row is the one named, and it writes the action strobe alone. -/
theorem engineStaysWithoutAMatch : Obligations.EngineStaysWithoutAMatch := by
  intro s
  refine ⟨fun hg hp => ?_, fun hp => ?_⟩
  · have hnone : engFired s = none :=
      engineSelect_eq_none.mpr fun x hx ⟨hst, ht⟩ => absurd ht (by simp [hg x hx hst])
    refine ⟨⟨_, execEngNoMatch_of_none hp hnone, rfl⟩, ?_⟩
    rw [decodeEng_engSelector, hp, hnone]
    rfl
  · refine ⟨⟨_, execEngNoPoll_of_no_poll hp, rfl⟩, ?_⟩
    rw [decodeEng_engSelector, hp]
    rfl

/-! ## Construction (R110) -/

theorem tableOk_iff {z : EngSizes} {ws : List Nat} :
    tableOk z ws = true ↔ ws.length = z.nEntries ∧
      ∀ w ∈ ws, w < 2 ^ z.entryW ∧ (entryOfWord z w).guard < z.nGuards ∧ (entryOfWord z w).action < z.nActions := by
  simp [tableOk, entryInRange]

theorem words_fit_of_wf {z : EngSizes} {ws : List Nat} {s0 : Nat} (h : (Instr.fsmConstruct z ws s0).wf = true) :
    ∀ w ∈ ws, w < 2 ^ z.entryW := by
  simp only [Instr.wf, Bool.and_eq_true, List.all_eq_true, decide_eq_true_eq] at h
  obtain ⟨⟨-, hfit⟩, -⟩ := h
  exact hfit

/-- Settles O45: the words of a well-formed instruction fit the entry, so its table is taken exactly where the length and the ids are in
range. -/
theorem constructTakesAWellFormedTable : Obligations.ConstructTakesAWellFormedTable := by
  intro s z ws s0 hwf
  refine ⟨fun hbad => ?_, fun hlen hids => ?_⟩
  · refine if_neg fun hok => ?_
    obtain ⟨hlen, hwords⟩ := tableOk_iff.mp hok
    obtain hne | ⟨w, hw, hid⟩ := hbad
    · exact hne hlen
    · obtain ⟨-, hguard, haction⟩ := hwords w hw
      omega
  · have hok : tableOk z ws = true := tableOk_iff.mpr ⟨hlen, fun w hw => ⟨words_fit_of_wf hwf w hw, hids w hw⟩⟩
    exact ⟨_, if_pos hok, rfl, rfl⟩

end Sys2Proof.Machine
end

section
/-! PROOFS. The debouncer's rows (41_button_debouncer.md R133 to R140, R146): when each writes, what it writes, and which row a condition
selects. -/

namespace Sys2Proof.Machine

section DebouncerRows

variable {s : State}

/-- The deadline has passed where it is not above the time, both unsigned (R132). -/
theorem debounceElapsed_eq_true : debounceElapsed s = true ↔ s.dbn.nextTimeout.toNat ≤ s.inp.nowMs.toNat := by
  simp [debounceElapsed, BitVec.le_def]

theorem debounceElapsed_eq_false : debounceElapsed s = false ↔ s.inp.nowMs.toNat < s.dbn.nextTimeout.toNat := by
  rw [← Bool.not_eq_true, debounceElapsed_eq_true, Nat.not_le]

/-- A row's step, with its condition as a proposition and the registers it writes as a value. -/
theorem dbnRowStep_eq {cond : Bool} {w : Dbn → Dbn} {p : Prop} [Decidable p] {d : Dbn}
    (hp : (s.inp.dbnPoll && cond) = true ↔ p) (hd : w s.dbn = d) :
    dbnRowStep cond w s = .next (if p then { s with dbn := d } else s) := by
  rw [dbnRowStep, hd]
  exact congrArg _ (if_congr hp rfl rfl)

/-- A difference of the clock modulo 2^32. -/
theorem sub_eq_ofNat (a b : W32) : a - b = BitVec.ofNat 32 (a.toNat + 2 ^ 32 - b.toNat) := by
  rw [BitVec.sub_def]
  congr 1
  omega

end DebouncerRows

/-- Settles O29: each row is a `dbnRowStep`, and its sums and differences of words are those of numbers modulo 2^32. -/
theorem debouncerTransitions : Obligations.DebouncerTransitions := by
  intro s
  refine ⟨?press, ?pwElapsed, ?release, ?rwElapsed⟩
  case press =>
    show execDbPress s = _
    exact dbnRowStep_eq (by simp) (by rw [BitVec.add_def])
  case pwElapsed =>
    show execDbPwElapsed s = _
    exact dbnRowStep_eq (by simp [debounceElapsed_eq_true]) rfl
  case release =>
    show execDbRelease s = _
    exact dbnRowStep_eq (by simp) (by rw [sub_eq_ofNat, BitVec.add_def])
  case rwElapsed =>
    show execDbRwElapsed s = _
    exact dbnRowStep_eq (by simp [debounceElapsed_eq_true]) rfl

/-- Settles O30: the rows have no writes, and the row selected is the one the selector's fields name. -/
theorem debouncerHolds : Obligations.DebouncerHolds := by
  intro s
  simp only [decodeDbn_dbnSelector, ← debounceElapsed_eq_false]
  refine ⟨⟨rfl, fun hp => ?_⟩, ⟨rfl, fun hp hs hl => ?_⟩, ⟨rfl, fun hp hs he => ?_⟩, ⟨rfl, fun hp hs hl => ?_⟩,
    rfl, fun hp hs he => ?_⟩
  · rw [hp]; rfl
  · rw [hp, hs, hl]; rfl
  · rw [hp, hs, he]; rfl
  · rw [hp, hs, hl]; rfl
  · rw [hp, hs, he]; rfl

end Sys2Proof.Machine
end

section
/-! PROOFS. The reads and `DB_RESET_DURATION` (41_button_debouncer.md R141 to R143, 43_nec_encoder.md R205). -/

namespace Sys2Proof.Machine

section ResetDuration

variable {s : State}

theorem decAdvance_of_not_busy (hk : decStuck s.dec = false) (hb : decBusy s = false) : decAdvance s = s.dec := by
  simp [decAdvance, hk, hb]

theorem dbnConsume_of_strobe (h : s.inp.resetDuration = true) : dbnConsume s = { s with dbn := s.dbn.clearDuration } :=
  if_pos h

/-- The strobe clears the duration; no other unit is polled, loaded or refused. -/
theorem exec_dbResetDuration (hs : unitsOk s) :
    exec .dbResetDuration s = .next
      { s with
        inp := { Inputs.idle with resetDuration := true }
        dec := decAdvance s
        dbn := s.dbn.clearDuration
        act := 0
        peers := peersTick s } := by
  have hk : encStuck s.enc = false := encStuck_of_unitsOk hs
  obtain ⟨hdec, -, hpeers⟩ := hs
  refine (exec_ports rfl s).trans
    (hostEdge_next.mpr (.inr ⟨rfl, edgeRefusal_idle rfl rfl s, (decCheck_eq_none.mp hdec).2, hpeers, ?_⟩))
  rw [blockNext, dbnConsume_of_strobe rfl, encAdvance_of_no_strobe hk rfl rfl, engAdvance_of_no_poll rfl]
  rfl

end ResetDuration

/-- Settles O32: a read writes the reply alone, and the edge of `DB_RESET_DURATION` writes what `exec_dbResetDuration` says. -/
theorem readsReturnOutputsAndResetDurationClears : Obligations.ReadsReturnOutputsAndResetDurationClears := by
  intro s
  refine ⟨rfl, ?_, ?_, fun hs => ⟨_, exec_dbResetDuration hs, rfl, fun hb => ?_, rfl⟩⟩
  · simp only [ne_eq, decide_not]
    rfl
  · simp only [ne_eq, decide_not]
    rfl
  · obtain ⟨hdec, -, -⟩ := hs
    exact decAdvance_of_not_busy (decCheck_eq_none.mp hdec).1 hb

end Sys2Proof.Machine
end

section
/-! PROOFS. One clock edge after another (42_nec_decoder.md R166): the view of every decoder stays inside the edge buffer, so no decoder
stops an edge. -/

namespace Sys2Proof.Machine

/-- The view of every block's decoder lies inside the edge buffer. -/
def ViewsInside (s : State) : Prop := ∀ b ∈ s.blocks, b.dec.p + b.dec.rem ≤ s.cfg.edgeCap

section ViewsInside

variable {s t : State}

theorem viewsInside_iff :
    ViewsInside s ↔
      s.dec.p + s.dec.rem ≤ s.cfg.edgeCap ∧ ∀ b ∈ s.peers, b.dec.p + b.dec.rem ≤ s.cfg.edgeCap :=
  List.forall_mem_cons

theorem State.Inv.viewsInside (h : s.Inv) : ViewsInside s :=
  viewsInside_iff.mpr ⟨h.decoder.view, fun b hb => (h.others b hb).decoder.view⟩

/-- A busy decoder has two entries left, so the next one it reads is inside its view. -/
theorem decOut_of_view (h : s.dec.p + s.dec.rem ≤ s.cfg.edgeCap) : decOut s = false := by
  rw [← Bool.not_eq_true]
  intro ho
  simp only [decOut, decBusy, Dec.busy, Bool.and_eq_true, decide_eq_true_eq] at ho
  omega

/-- A step moves the cursor by what it takes from the remaining count, or ends the parse: the view's end does not rise. -/
theorem decAdvance_view_le (h : s.dec.p + s.dec.rem ≤ s.cfg.edgeCap) :
    (decAdvance s).p + (decAdvance s).rem ≤ s.dec.p + s.dec.rem := by
  unfold decAdvance
  split
  · exact le_rfl
  split
  case isFalse => exact le_rfl
  next hb =>
    have hrem : 2 ≤ s.dec.rem := of_decide_eq_true hb
    rw [decEngineStep_nat hb h]
    cases s.dec.state
    all_goals
      dsimp only
      repeat' split
      all_goals
        dsimp only
        omega

/-- After an edge that starts no parse the views are still inside. -/
theorem ViewsInside.after_edge (h : ViewsInside s) (hcfg : t.cfg = s.cfg) (hdec : t.dec = decAdvance s)
    (hpeers : t.peers = peersTick s) : ViewsInside t := by
  obtain ⟨hblock, hothers⟩ := viewsInside_iff.mp h
  rw [viewsInside_iff, hcfg, hdec, hpeers]
  refine ⟨(decAdvance_view_le hblock).trans hblock, fun b hb => ?_⟩
  obtain ⟨c, hc, rfl⟩ := List.mem_map.mp hb
  exact (decAdvance_view_le (s := s.withBlock c) (hothers c hc)).trans (hothers c hc)

/-- An edge of a host operation that loads no register of the decoder or the encoder completes, and so does the next one. -/
theorem hostEdge_of_viewsInside {x : Inputs} (h : ViewsInside s) (hr : x.rst = false) (hs : x.start = false)
    (hc : x.setCode = false) :
    ∃ t, hostEdge x s = .next t ∧ ViewsInside t ∧ t.dbn = dbnAdvance (dbnConsume { s with inp := x }) := by
  obtain ⟨hblock, hothers⟩ := viewsInside_iff.mp h
  have hpeers : ∀ b ∈ s.peers, decOut (s.withBlock b) = false :=
    fun b hb => decOut_of_view (s := s.withBlock b) (hothers b hb)
  obtain ⟨hcfg, -⟩ := blockNext_frame x s
  exact ⟨_, hostEdge_next.mpr (.inr ⟨hr, edgeRefusal_idle hs hc s, decOut_of_view hblock, hpeers, rfl⟩),
    h.after_edge hcfg (blockNext_dec_of_no_start hr hs) rfl, blockNext_dbn hr⟩

end ViewsInside

end Sys2Proof.Machine
end

section
/-! PROOFS. Polls of the debouncer (41_button_debouncer.md R133 to R139, R144, R145): the registers after each, and after many. -/

namespace Sys2Proof.Machine

/-! ## One poll -/

/-- The registers a poll leaves of the debouncer `d`. The step reads nothing else of a state (`dbnEngineStep_eq_poll`). -/
def Dbn.poll (d : Dbn) (now : W32) (lvl : Bool) : Dbn :=
  dbnEngineStep { State.reset with dbn := d, inp := pollPorts (.dbn now lvl) }

theorem dbnEngineStep_eq_poll (s : State) : dbnEngineStep s = s.dbn.poll s.inp.nowMs s.inp.level := by
  simp [Dbn.poll, dbnEngineStep_eq, debounceElapsed, pollPorts]

theorem dbnAdvance_eq_poll {s : State} (h : s.inp.dbnPoll = true) : dbnAdvance s = s.dbn.poll s.inp.nowMs s.inp.level :=
  (if_pos h).trans (dbnEngineStep_eq_poll s)

section Poll

variable {d : Dbn} {now : W32} {lvl : Bool}

theorem poll_of_press (hs : d.state = .released) :
    d.poll now true =
      { d with tickPressed := now, nextTimeout := now + d.debounceTime, state := .pressedWait } := by
  simp [Dbn.poll, dbnEngineStep_eq, pollPorts, hs]

theorem poll_of_early (hs : d.state = .pressedWait) (h : now.toNat < d.nextTimeout.toNat) : d.poll now lvl = d := by
  simp [Dbn.poll, dbnEngineStep_eq, debounceElapsed, pollPorts, BitVec.le_def, hs, h]

theorem poll_of_elapsed (hs : d.state = .pressedWait) (h : d.nextTimeout.toNat ≤ now.toNat) :
    d.poll now lvl = { d with state := .pressed } := by
  simp [Dbn.poll, dbnEngineStep_eq, debounceElapsed, pollPorts, BitVec.le_def, hs, h]

theorem poll_of_held (hs : d.state = .pressed) : d.poll now true = d := by
  simp [Dbn.poll, dbnEngineStep_eq, pollPorts, hs]

theorem poll_of_release (hs : d.state = .pressed) :
    d.poll now false =
      { d with
        duration := now - d.tickPressed
        nextTimeout := now + d.debounceTime
        state := .releasedWait } := by
  simp [Dbn.poll, dbnEngineStep_eq, pollPorts, hs]

end Poll

section Exec

variable {s : State}

/-- A poll reads what the `reset_duration` strobe of the same edge has left (R144). -/
theorem blockNext_dbn_of_poll {x : Inputs} (hr : x.rst = false) (hp : x.dbnPoll = true) :
    (blockNext x s).dbn = (dbnConsume { s with inp := x }).dbn.poll x.nowMs x.level := by
  rw [blockNext_dbn hr, dbnAdvance_eq_poll (by rw [dbnConsume_inp, hp]), dbnConsume_inp]

theorem exec_dbResetDuration_dbn (h : ViewsInside s) :
    ∃ t, exec .dbResetDuration s = .next t ∧ ViewsInside t ∧ t.dbn = s.dbn.clearDuration :=
  hostEdge_of_viewsInside (x := { Inputs.idle with resetDuration := true }) h rfl rfl rfl

theorem exec_dbnPoll (h : ViewsInside s) (now : W32) (lvl : Bool) :
    ∃ t, exec (.fsmStep (.dbn now lvl)) s = .next t ∧ ViewsInside t ∧ t.dbn = s.dbn.poll now lvl := by
  obtain ⟨t, ht, hv, hd⟩ := hostEdge_of_viewsInside (x := pollPorts (.dbn now lvl)) h rfl rfl rfl
  exact ⟨t, ht, hv, hd.trans (dbnAdvance_eq_poll rfl)⟩

end Exec

/-- Settles O33: at the one edge the strobe has cleared the duration before the poll reads the registers, as the edge of
`DB_RESET_DURATION` has before the next one. -/
theorem releaseWinsOverResetDuration : Obligations.ReleaseWinsOverResetDuration := by
  intro s now xs hinv hstate hpeers
  obtain ⟨u, hu, hvu, hdu⟩ := exec_dbResetDuration_dbn hinv.viewsInside
  obtain ⟨v, hv, -, hdv⟩ := exec_dbnPoll hvu now false
  rw [hdu] at hdv
  have hpressed : s.dbn.clearDuration.state = .pressed := hstate
  refine ⟨_, u, v, clockEdge_ok (edgeRefusal_idle rfl rfl s) (decOut_of_inv hinv.decoder) hpeers, hu, hv, ?_, ?_⟩
  all_goals
    dsimp only
    rw [blockNext_dbn_of_poll rfl rfl, dbnConsume_of_strobe rfl]
  · exact hdv.symm
  · rw [poll_of_release hpressed]
    rfl

/-! ## Many polls -/

/-- The registers that polls one after another leave of the debouncer `d`. -/
def Dbn.polls (d : Dbn) (ps : List (W32 × Bool)) : Dbn := ps.foldl (fun e q => e.poll q.1 q.2) d

section Polls

variable {d : Dbn} {ps : List (W32 × Bool)}

theorem polls_cons (q : W32 × Bool) : d.polls (q :: ps) = (d.poll q.1 q.2).polls ps := rfl

theorem polls_append (qs : List (W32 × Bool)) : d.polls (ps ++ qs) = (d.polls ps).polls qs := List.foldl_append

theorem polls_of_holds (h : ∀ q ∈ ps, d.poll q.1 q.2 = d) : d.polls ps = d := by
  induction ps with
  | nil => rfl
  | cons q ps ih =>
    obtain ⟨hq, hps⟩ := List.forall_mem_cons.mp h
    rw [polls_cons, hq, ih hps]

end Polls

/-- Polls of the debouncer all complete. -/
theorem execPolls_eq_next {s : State} (h : ViewsInside s) (ps : List (W32 × Bool)) :
    ∃ t, execPolls ps s = .next t ∧ ViewsInside t ∧ t.dbn = s.dbn.polls ps := by
  induction ps generalizing s with
  | nil => exact ⟨s, rfl, h, rfl⟩
  | cons q ps ih =>
    obtain ⟨now, lvl⟩ := q
    obtain ⟨u, hu, hvu, hdu⟩ := exec_dbnPoll h now lvl
    obtain ⟨t, ht, hvt, hdt⟩ := ih hvu
    refine ⟨t, ?_, hvt, ?_⟩
    · rw [execPolls, hu, andThen_next, ht]
    · rw [hdt, hdu, polls_cons]

/-- From a press to the last poll that finds the button pressed (R145): the press arms the deadline, the polls before it change nothing, the
one at or after it ends the wait, and the rest change nothing. -/
theorem polls_of_press {d : Dbn} {t1 t2 : W32} {lvl : Bool} {hold1 hold2 : List (W32 × Bool)} (hs : d.state = .released)
    (h1 : ∀ q ∈ hold1, q.1.toNat < t1.toNat + d.debounceTime.toNat) (ht : t1.toNat + d.debounceTime.toNat ≤ t2.toNat)
    (h2 : ∀ q ∈ hold2, q.2 = true) :
    d.polls ((t1, true) :: (hold1 ++ (t2, lvl) :: hold2)) =
      { d with tickPressed := t1, nextTimeout := t1 + d.debounceTime, state := .pressed } := by
  have hdeadline : (t1 + d.debounceTime).toNat = t1.toNat + d.debounceTime.toNat :=
    BitVec.toNat_add_of_lt (ht.trans_lt t2.isLt)
  rw [polls_cons, poll_of_press hs, polls_append]
  rw [polls_of_holds (ps := hold1), polls_cons, poll_of_elapsed rfl, polls_of_holds]
  · rintro ⟨now, lvl⟩ hq
    obtain rfl : lvl = true := h2 _ hq
    exact poll_of_held rfl
  · exact hdeadline.trans_le ht
  · exact fun q hq => poll_of_early rfl ((h1 q hq).trans_eq hdeadline.symm)

/-- Settles O34: the polls up to the release leave the time of the press in its register, and the release subtracts it from its own. -/
theorem pressDurationIsPressToRelease : Obligations.PressDurationIsPressToRelease := by
  intro s t1 t2 t3 lvl hold1 hold2 hinv hs h1 ht h2 ht3
  obtain ⟨u, hu, hvu, hdu⟩ := execPolls_eq_next hinv.viewsInside ((t1, true) :: (hold1 ++ (t2, lvl) :: hold2))
  obtain ⟨v, hv, -, hdv⟩ := exec_dbnPoll hvu t3 false
  rw [polls_of_press hs h1 ht h2] at hdu
  rw [hdu, poll_of_release rfl] at hdv
  have hpress : t1 ≤ t3 := BitVec.le_def.mpr (by omega)
  have hdur : v.dbn.duration.toNat = t3.toNat - t1.toNat := by
    rw [hdv]
    exact BitVec.toNat_sub_of_le hpress
  exact ⟨u, v, hu, by rw [hdu], by rw [hdu], hv, by rw [hdv], hdur, by omega⟩

end Sys2Proof.Machine
end

section
/-! PROOFS. The invariants of the units (42_nec_decoder.md R166 to R169, 43_nec_encoder.md R206, 40_fsm_engine.md R110) at one step, one load
and one edge of a block. -/

namespace Sys2Proof.Machine

/-! ## The code shifted by one bit (42_nec_decoder.md R162, R163) -/

theorem shiftLeft_one_eq (c : W32) : c <<< 1 = BitVec.ofNat 32 (2 * c.toNat) := by
  apply BitVec.eq_of_toNat_eq
  rw [BitVec.toNat_shiftLeft, BitVec.toNat_ofNat, Nat.shiftLeft_eq, Nat.pow_one, Nat.mul_comm]

/-- The bit appended fills the place the shift leaves 0. -/
theorem shiftLeft_one_or_one_eq (c : W32) : c <<< 1 ||| 1#32 = BitVec.ofNat 32 (2 * c.toNat + 1) := by
  have hdisjoint : c <<< 1 &&& 1#32 = 0#32 := by
    ext i hi
    simp
    omega
  rw [← BitVec.add_eq_or_of_and_eq_zero _ _ hdisjoint, shiftLeft_one_eq, ← BitVec.ofNat_add]

/-- One more bit received leaves one bit less to come. -/
theorem shifted_code_fits {bits : BitVec 6} {code n : Nat} (hc : code < 2 ^ (32 - bits.toNat)) (hn : n ≤ 2 * code + 1)
    (hpos : bits ≠ 0#6) (hle : bits.toNat ≤ 32) : (BitVec.ofNat 32 n).toNat < 2 ^ (32 - (bits - 1#6).toNat) := by
  have hb : (bits - 1#6).toNat = bits.toNat - 1 := by bv_omega
  have hexp : 32 - (bits.toNat - 1) = (32 - bits.toNat) + 1 := by bv_omega
  have hmod : (BitVec.ofNat 32 n).toNat ≤ n := Nat.mod_le n (2 ^ 32)
  rw [hb, hexp, Nat.pow_succ]
  omega

/-! ## The decoder -/

section Decoder

variable {cap p rem : Nat} {d : Dec} {s : State}

/-- A view inside the buffer fits the registers. -/
theorem indices_fit (h : p + rem ≤ cap) : p < 2 ^ clog2 (cap + 1) ∧ rem < 2 ^ clog2 (cap + 1) := by
  have := lt_two_pow_clog2 cap
  omega

theorem DecInv.not_done_of_busy (h : DecInv cap d) (hb : d.busy = true) : d.done = false := by
  have hrem : 2 ≤ d.rem := of_decide_eq_true hb
  rw [← Bool.not_eq_true]
  intro hd
  have := (h.completed hd).1
  omega

/-- What noise leaves of a parse: the decoder waits for a prologue again. -/
theorem DecInv.aborted (h : DecInv cap d) (hd : d.done = false) (hv : p + rem ≤ cap) (hp : p % 2 = 0) :
    DecInv cap { d with code := 0#32, bits := 0#6, rep := false, p := p, rem := rem, state := .idle } where
  running := h.running
  view := hv
  fits := indices_fit hv
  bitsLe := Nat.zero_le 32
  evenAtFalling _ := hp
  oddAtRising hs := by simp at hs
  clean _ _ := ⟨rfl, rfl, rfl⟩
  pulse hs := nomatch hs
  repetition hs := nomatch hs
  codeFits hs := by simp at hs
  completed hc := absurd hc (by simp [hd])

/-- The end of a parse. -/
theorem DecInv.ended (h : DecInv cap d) (hp : d.p % 2 = 0) :
    DecInv cap { d with done := true, rem := 0, state := .idle } where
  running := h.running
  view := (Nat.le_add_right d.p d.rem).trans h.view
  fits := ⟨h.fits.1, Nat.two_pow_pos _⟩
  bitsLe := h.bitsLe
  evenAtFalling _ := hp
  oddAtRising hs := by simp at hs
  clean hc := nomatch hc
  pulse hs := nomatch hs
  repetition hs := nomatch hs
  codeFits hs := by simp at hs
  completed _ := ⟨rfl, rfl⟩

/-- A skip in IDLE moves the cursor alone. -/
theorem DecInv.skipped (h : DecInv cap d) (hs : d.state = .idle) (hd : d.done = false) (hv : p + rem ≤ cap) (hp : p % 2 = 0) :
    DecInv cap { d with p := p, rem := rem, state := .idle } where
  running := h.running
  view := hv
  fits := indices_fit hv
  bitsLe := h.bitsLe
  evenAtFalling _ := hp
  oddAtRising hs := by simp at hs
  clean _ _ := h.clean hd (.inl hs)
  pulse hs := nomatch hs
  repetition hs := nomatch hs
  codeFits hs := by simp at hs
  completed hc := absurd hc (by simp [hd])

/-- The prologue's silence in IDLE. -/
theorem DecInv.prologue (h : DecInv cap d) (hs : d.state = .idle) (hd : d.done = false) (hv : p + rem ≤ cap) (hp : p % 2 = 1) :
    DecInv cap { d with p := p, rem := rem, state := .init } where
  running := h.running
  view := hv
  fits := indices_fit hv
  bitsLe := h.bitsLe
  evenAtFalling hs := by simp at hs
  oddAtRising _ := hp
  clean _ _ := h.clean hd (.inl hs)
  pulse hs := nomatch hs
  repetition hs := nomatch hs
  codeFits hs := by simp at hs
  completed hc := absurd hc (by simp [hd])

/-- Into SYMBOL_SILENCE, with `bits` bits still to come and `code` received. -/
theorem DecInv.symbol {bits : BitVec 6} {code : W32} {rep : Bool} (h : DecInv cap d) (hd : d.done = false)
    (hv : p + rem ≤ cap) (hp : p % 2 = 0) (hbits : bits.toNat ≤ 32) (hrep : rep = true → bits = 0#6)
    (hcode : code.toNat < 2 ^ (32 - bits.toNat)) :
    DecInv cap { d with rep := rep, code := code, bits := bits, p := p, rem := rem, state := .ss } where
  running := h.running
  view := hv
  fits := indices_fit hv
  bitsLe := hbits
  evenAtFalling _ := hp
  oddAtRising hs := by simp at hs
  clean _ hs := by simp at hs
  pulse hs := nomatch hs
  repetition _ := hrep
  codeFits _ := hcode
  completed hc := absurd hc (by simp [hd])

/-- From SYMBOL_SILENCE into SYMBOL_PULSE. -/
theorem DecInv.silence (h : DecInv cap d) (hs : d.state = .ss) (hd : d.done = false) (hbits : d.bits ≠ 0#6)
    (hv : p + rem ≤ cap) (hp : p % 2 = 1) : DecInv cap { d with p := p, rem := rem, state := .sp } where
  running := h.running
  view := hv
  fits := indices_fit hv
  bitsLe := h.bitsLe
  evenAtFalling hs := by simp at hs
  oddAtRising _ := hp
  clean _ hs := by simp at hs
  pulse _ := ⟨hbits, Bool.eq_false_iff.mpr fun hr => hbits (h.repetition hs hr)⟩
  repetition hs := nomatch hs
  codeFits _ := h.codeFits (.inl hs)
  completed hc := absurd hc (by simp [hd])

/-- The engine's step of a busy decoder, by the row it takes. -/
theorem decInv_engineStep (h : DecInv s.cfg.edgeCap s.dec) (hb : decBusy s = true) :
    DecInv s.cfg.edgeCap (decEngineStep s) := by
  have hrem : 2 ≤ s.dec.rem := of_decide_eq_true hb
  have hview := h.view
  have hdone : s.dec.done = false := h.not_done_of_busy hb
  have heven := h.evenAtFalling
  have hodd := h.oddAtRising
  rw [decEngineStep_nat hb hview]
  cases hs : s.dec.state with
  | idle =>
    have hp : s.dec.p % 2 = 0 := heven (.inl hs)
    dsimp only
    split
    · exact h.prologue hs hdone (by omega) (by omega)
    · exact h.skipped hs hdone (by omega) (by omega)
  | init =>
    have hp : s.dec.p % 2 = 1 := hodd (.inl hs)
    obtain ⟨hcode, -, hrep⟩ := h.clean hdone (.inr hs)
    dsimp only
    split
    · exact h.symbol hdone (by omega) (by omega) le_rfl (by simp [hrep]) (by simp [hcode])
    · split
      · exact h.symbol hdone (by omega) (by omega) (Nat.zero_le 32) (fun _ => rfl) s.dec.code.isLt
      · exact h.aborted hdone (by omega) (by omega)
  | ss =>
    have hp : s.dec.p % 2 = 0 := heven (.inr hs)
    dsimp only
    split
    · exact h.ended hp
    · next hbits =>
      split
      · exact h.silence hs hdone (by simpa using hbits) (by omega) (by omega)
      · exact h.aborted hdone hview hp
  | sp =>
    have hp : s.dec.p % 2 = 1 := hodd (.inr hs)
    obtain ⟨hbits, hrep⟩ := h.pulse hs
    have hle := h.bitsLe
    have hfits := h.codeFits (.inr hs)
    have hless : (s.dec.bits - 1#6).toNat ≤ 32 := by bv_omega
    dsimp only
    split
    · exact h.symbol hdone (by omega) (by omega) hless (by simp [hrep])
        (shiftLeft_one_eq _ ▸ shifted_code_fits hfits (by omega) hbits hle)
    · split
      · exact h.symbol hdone (by omega) (by omega) hless (by simp [hrep])
          (shiftLeft_one_or_one_eq _ ▸ shifted_code_fits hfits le_rfl hbits hle)
      · exact h.aborted hdone (by omega) (by omega)

theorem decInv_advance (h : DecInv s.cfg.edgeCap s.dec) : DecInv s.cfg.edgeCap (decAdvance s) := by
  rw [decAdvance, if_neg (by simp [decStuck_of_inv h])]
  split
  · next hb => exact decInv_engineStep h hb
  · exact h

/-- A count that is not refused (R170) is a view inside the buffer. -/
theorem decInv_load {c : Config} {n : Nat} (hd : d.faulted = false) (hn : n ≤ c.edgeCap) :
    DecInv c.edgeCap (d.load c n) := by
  have hload : d.load c n = { Dec.reset with p := 0, rem := n, state := .idle } := by
    simp [Dec.load, hd, toIdx_of_le hn, Dec.reset]
  rw [hload]
  exact (decInv_reset c.edgeCap).skipped rfl rfl (by omega) rfl

end Decoder

/-! ## The encoder -/

section Encoder

variable {c : Config} {e : Enc} {s : State}

theorem onT_ne_zero (hc : c.wf = true) (b : Bool) : onT c b ≠ 0#16 := by
  cases b <;> simp_all [onT, Config.wf]

theorem offT_ne_zero (hc : c.wf = true) (b : Bool) : offT c b ≠ 0#16 := by
  cases b <;> simp_all [offT, Config.wf]

/-- Every phase of a frame is at least one tick long (30_encoding.md R89). -/
theorem loadedCount_ne_zero (hc : c.wf = true) (hi : e.phase ≠ .idle) (hr : e.phase ≠ .reserved) :
    loadedCount c e ≠ 0#16 := by
  unfold loadedCount
  split
  case h_1 | h_2 | h_5 | h_6 => simp_all [Config.wf]
  case h_3 => exact onT_ne_zero hc _
  case h_4 => exact offT_ne_zero hc _
  case h_7 h => exact absurd h hi
  case h_8 h => exact absurd h hr

/-- On entry to a phase. -/
theorem encInv_entered (hc : c.wf = true) (hf : e.faulted = false) (hi : e.phase ≠ .idle) (hr : e.phase ≠ .reserved)
    (hcnt : e.cnt = loadedCount c e) (hsh : e.shreg ≠ 0#32) (hon : e.irOn = phaseOn e.phase) : EncInv c e where
  running := hf
  phaseLegal := hr
  counting _ := by
    have := loadedCount_ne_zero hc hi hr
    rw [hcnt]
    exact ⟨by bv_omega, le_rfl⟩
  sending _ := hsh
  resting h := absurd h hi
  envelope := hon

theorem encInv_transmit (hc : c.wf = true) (h : EncInv c e) (hp : e.pending ≠ 0#32) : EncInv c (e.transmit c) :=
  encInv_entered hc h.running nofun nofun rfl hp rfl

/-- The count is not at its last tick, so one less is still at least 1. -/
theorem encInv_counted (h : EncInv c e) (hb : e.phase ≠ .idle) (h1 : e.cnt ≠ 1#16) :
    EncInv c { e with cnt := e.cnt - 1#16 } where
  running := h.running
  phaseLegal := h.phaseLegal
  counting _ := by
    have hloaded : loadedCount c { e with cnt := e.cnt - 1#16 } = loadedCount c e := rfl
    have := h.counting hb
    rw [hloaded]
    dsimp only
    bv_omega
  sending := h.sending
  resting hi := absurd hi hb
  envelope := h.envelope

/-- A burst tick of a busy encoder: a count, or the entry to the next phase, or the end of the frame. -/
theorem encInv_tickStep (hc : c.wf = true) (h : EncInv c e) (hb : e.phase ≠ .idle) : EncInv c (encTickStep c e) := by
  have hsh := h.sending hb
  unfold encTickStep
  split
  · next h1 => exact encInv_counted h hb (by simpa using h1)
  · split
    case h_1 | h_2 | h_3 | h_5 => exact encInv_entered hc h.running nofun nofun rfl hsh rfl
    case h_4 =>
      split
      · exact encInv_entered hc h.running nofun nofun rfl hsh rfl
      · next hk =>
        have hnext : (e.k + 1#5).toNat = e.k.toNat + 1 := by
          have : e.k ≠ 31#5 := by simpa using hk
          bv_omega
        exact encInv_entered hc h.running nofun nofun (by simp [loadedCount, hnext]) hsh rfl
    case h_6 hp =>
      have hoff : e.irOn = false := by rw [h.envelope, hp]; rfl
      exact ⟨h.running, nofun, absurd rfl, absurd rfl, fun _ => ⟨rfl, hoff⟩, hoff⟩
    case h_7 | h_8 => exact h

theorem encInv_advance (hc : s.cfg.wf = true) (h : EncInv s.cfg s.enc) : EncInv s.cfg (encAdvance s) := by
  rw [encAdvance, if_neg (by simp [encStuck_of_inv h])]
  split
  · next hb =>
    split
    · exact encInv_tickStep hc h (by simpa [encBusy] using hb)
    · exact h
  · split
    · rw [encEngineStep_eq]
      split
      · next hp => exact encInv_transmit hc h (by simpa using hp)
      · exact h
    · exact h

/-- The pending code is no part of the invariants. -/
theorem encInv_load (h : EncInv c e) (v : W32) : EncInv c { e with pending := v } :=
  ⟨h.running, h.phaseLegal, h.counting, h.sending, h.resting, h.envelope⟩

end Encoder

/-! ## The stand-alone engine -/

section Engine

variable {e : Eng} {s : State}

theorem engInv_fired (h : EngInv s.eng) {x : Entry} (hx : engFired s = some x) :
    EngInv { s.eng with state := x.toState } where
  sizesLegal := h.sizesLegal
  tableLength := h.tableLength
  idsInRange := h.idsInRange
  tagsInRange := h.tagsInRange
  stateInRange := (h.tagsInRange x (List.mem_of_find?_eq_some hx)).2
  initInRange := h.initInRange

theorem engInv_advance (h : EngInv s.eng) : EngInv (engAdvance s).1 := by
  unfold engAdvance
  split
  · split
    · next x hx => exact engInv_fired h hx
    · exact h
  · exact h

theorem engInv_afterReset (h : EngInv e) : EngInv e.afterReset :=
  ⟨h.sizesLegal, h.tableLength, h.idsInRange, h.tagsInRange, h.initInRange, h.initInRange⟩

theorem bitField_lt (w lo n : Nat) : bitField w lo n < 2 ^ n := Nat.mod_lt _ (Nat.two_pow_pos n)

/-- A table that construction takes, from a well-formed instruction. -/
theorem engInv_constructed {z : EngSizes} {ws : List Nat} {s0 : Nat} (hwf : (Instr.fsmConstruct z ws s0).wf = true)
    (hok : tableOk z ws = true) : EngInv { sizes := z, state := s0, init := s0, table := ws.map (entryOfWord z) } := by
  obtain ⟨hlen, hids⟩ := tableOk_iff.mp hok
  simp only [Instr.wf, Bool.and_eq_true, decide_eq_true_eq] at hwf
  obtain ⟨⟨hsizes, -⟩, hinit⟩ := hwf
  refine ⟨hsizes, by simpa using hlen, ?_, ?_, hinit, hinit⟩
  all_goals
    intro x hx
    obtain ⟨w, hw, rfl⟩ := List.mem_map.mp hx
  · exact (hids w hw).2
  · exact ⟨bitField_lt .., bitField_lt ..⟩

end Engine

/-! ## One edge of a block -/

/-- An edge that is not refused loads a count that fits the buffer (R170). -/
theorem count_le_of_not_refused {x : Inputs} {s : State} (h : edgeRefusal x s = none) (hs : x.start = true) :
    x.countIn ≤ s.cfg.edgeCap := by
  by_contra hn
  unfold edgeRefusal at h
  split at h
  · cases h
  · rw [if_pos (by simp [hs]; omega)] at h
    cases h

theorem blockInv_edge {x : Inputs} {s : State} (hc : s.cfg.wf = true) (h : BlockInv s.cfg s.block) (hx : edgeRuns x s) :
    BlockInv s.cfg (blockNext x s).block := by
  obtain ⟨hdec, henc, heng⟩ := h
  cases hr : x.rst
  case true =>
    rw [blockNext, if_pos hr]
    exact ⟨decInv_reset _, encInv_reset _, engInv_afterReset heng⟩
  case false =>
    have hx : edgeRefusal x s = none := (hx.resolve_left (by simp [hr])).1
    have hadv : DecInv s.cfg.edgeCap (decAdvance s) := decInv_advance hdec
    have henc' : EncInv s.cfg (encAdvance { s with inp := x }) := encInv_advance (s := { s with inp := x }) hc henc
    refine ⟨?_, ?_, ?_⟩
    · rw [block_dec, blockNext_dec hr]
      split
      · next hs => exact decInv_load hadv.running (count_le_of_not_refused hx hs)
      · exact hadv
    · rw [block_enc, blockNext_enc hr]
      split
      · exact encInv_load henc' _
      · exact henc'
    · rw [block_eng, blockNext_eng hr]
      exact engInv_advance (s := { s with inp := x }) heng

end Sys2Proof.Machine
end

section
/-! PROOFS. The invariant of the machine at every step: a clock edge, an instruction on any block, an action of the capture agent, the
instantiation of a block. -/

namespace Sys2Proof.Machine

section Invariant

variable {s t u : State}

/-! ## Blocks and buffers of a state with the invariant -/

/-- What the invariant says of one block, the buffer its decoder is given among it. -/
def BlockOk (s : State) (b : Block) : Prop := BlockInv s.cfg b ∧ b.buf < s.bufs.length

theorem State.Inv.blockOk (h : s.Inv) : BlockOk s s.block := ⟨h.block, h.given _ List.mem_cons_self⟩

theorem State.Inv.peerOk (h : s.Inv) {b : Block} (hb : b ∈ s.peers) : BlockOk s b :=
  ⟨h.others b hb, h.given b (List.mem_cons_of_mem _ hb)⟩

/-- The invariant as what it says of the configuration, of each block and of each buffer. -/
theorem inv_iff :
    s.Inv ↔ s.cfg.wf = true ∧ BlockOk s s.block ∧ (∀ b ∈ s.peers, BlockOk s b) ∧
      ∀ e ∈ s.bufs, EdgeInv s.cfg.edgeCap e := by
  constructor
  · exact fun h => ⟨h.config, h.blockOk, fun b hb => h.peerOk hb, h.buffers⟩
  · rintro ⟨hc, ⟨hblock, hbuf⟩, hpeers, hbufs⟩
    refine ⟨hc, hblock, fun b hb => (hpeers b hb).1, fun b hb => ?_, hbufs⟩
    obtain rfl | hb := List.mem_cons.mp hb
    · exact hbuf
    · exact (hpeers b hb).2

/-- Other blocks in a state with the invariant, and the same buffers. -/
theorem State.Inv.with_blocks (h : s.Inv) (hcfg : t.cfg = s.cfg) (hbufs : t.bufs = s.bufs) (hblock : BlockOk s t.block)
    (hpeers : ∀ b ∈ t.peers, BlockOk s b) : t.Inv := by
  have hok (b : Block) (hb : BlockOk s b) : BlockOk t b := by rwa [BlockOk, hcfg, hbufs]
  refine inv_iff.mpr ⟨hcfg ▸ h.config, hok _ hblock, fun b hb => hok b (hpeers b hb), ?_⟩
  rw [hcfg, hbufs]
  exact h.buffers

/-- Other units in block 0 of a state with the invariant. -/
theorem State.Inv.with_units (h : s.Inv) {dec : Dec} {dbn : Dbn} {enc : Enc} {eng : Eng} (hdec : DecInv s.cfg.edgeCap dec)
    (henc : EncInv s.cfg enc) (heng : EngInv eng) (act : Nat) :
    State.Inv { s with dec := dec, dbn := dbn, enc := enc, eng := eng, act := act } :=
  h.with_blocks rfl rfl ⟨⟨hdec, henc, heng⟩, h.blockOk.2⟩ fun _ hb => h.peerOk hb

/-- Another buffer in a state with the invariant. -/
theorem State.Inv.with_buffer (h : s.Inv) {j : Nat} {e : EdgeBuffer} (he : EdgeInv s.cfg.edgeCap e) : (setBuffer s j e).Inv := by
  have hlen : (setBuffer s j e).bufs.length = s.bufs.length := List.length_set
  have hok (b : Block) (hb : BlockOk s b) : BlockOk (setBuffer s j e) b := by rwa [BlockOk, hlen]
  refine inv_iff.mpr ⟨h.config, hok _ h.blockOk, fun b hb => hok b (h.peerOk hb), fun x hx => ?_⟩
  obtain hx | rfl := List.mem_or_eq_of_mem_set hx
  · exact h.buffers x hx
  · exact he

/-- A buffer that does not exist reads as the empty one. -/
theorem State.Inv.bufferOk (h : s.Inv) (j : Nat) : EdgeInv s.cfg.edgeCap (bufferAt s j) := by
  rw [bufferAt, List.getD_eq_getElem?_getD]
  cases hj : s.bufs[j]? with
  | none => exact edgeInv_empty _
  | some e => exact h.buffers e (List.mem_of_getElem? hj)

/-! ## A clock edge -/

theorem blockOk_edge {x : Inputs} (hc : s.cfg.wf = true) (h : BlockOk s s.block) (hx : edgeRuns x s) :
    BlockOk s (blockNext x s).block := by
  obtain ⟨-, hbuf, -⟩ := blockNext_frame x s
  exact ⟨blockInv_edge hc h.1 hx, by rw [block_buf, hbuf]; exact h.2⟩

theorem inv_clockEdge {x : Inputs} {xs : List Inputs} (h : s.Inv) (he : clockEdge x xs s = .next t) : t.Inv := by
  obtain ⟨hx, hpeers, rfl⟩ := clockEdge_next.mp he
  obtain ⟨hcfg, -, hbufs, -⟩ := blockNext_frame x s
  refine h.with_blocks hcfg hbufs (blockOk_edge h.config h.blockOk hx) fun b hb => ?_
  obtain ⟨k, hk, rfl⟩ := List.mem_mapIdx.mp hb
  have hpeer : BlockOk s s.peers[k] := h.peerOk (List.getElem_mem hk)
  exact blockOk_edge (s := s.withBlock s.peers[k]) h.config hpeer (hpeers k _ (List.getElem?_eq_getElem hk))

/-! ## An instruction -/

/-- An edge has the invariants of every unit, a row those of its own, and a construction that of the engine. -/
theorem inv_exec {i : Instr} (hi : i.wf = true) (h : s.Inv) (he : exec i s = .next t) : t.Inv := by
  obtain ⟨x, -, hx⟩ | ⟨r, -, hr⟩ | ⟨r, -, hr⟩ | ⟨r, -, hr⟩ | ⟨r, -, hr⟩ | ⟨z, ws, s0, rfl, hok, rfl⟩ | ⟨-, r, rfl⟩ :=
    exec_cases he
  · exact inv_clockEdge h hx
  · obtain ⟨-, rfl | ⟨hb, rfl⟩⟩ := runDecRow_next hr
    · exact h
    · exact h.with_units (decInv_engineStep h.decoder hb) h.encoder h.engine s.act
  · obtain ⟨d, rfl⟩ := runDbnRow_frame hr
    exact h.with_units h.decoder h.encoder h.engine s.act
  · obtain ⟨-, rfl | rfl⟩ := runEncRow_next hr
    · exact h
    · exact h.with_units h.decoder (encInv_advance h.config h.encoder) h.engine s.act
  · obtain rfl | rfl | ⟨e, hf, rfl⟩ := runEngRow_next hr
    · exact h
    · exact h.with_units h.decoder h.encoder h.engine 0
    · exact h.with_units h.decoder h.encoder (engInv_fired h.engine hf) e.action
  · exact h.with_units h.decoder h.encoder (engInv_constructed hi hok) 0
  · exact h.with_blocks rfl rfl h.blockOk fun _ hb => h.peerOk hb

theorem inv_runHost {code : Nat} {args : List Nat} (h : s.Inv) (he : runHost code args s = .next t) : t.Inv := by
  cases hd : decode ⟨.hostOp, code, args⟩ with
  | error e => rw [runHost_of_error hd] at he; cases he
  | ok i =>
    rw [runHost_of_decode hd] at he
    exact inv_exec (hostWordIsItsInstructionsWord code args i hd).1 h he

theorem inv_exchange {k : Nat} (h : s.Inv) (he : exchange k s = some u) : u.Inv := by
  cases k with
  | zero => cases he; exact h
  | succ k =>
    cases hb : s.peers[k]? with
    | none => simp [exchange, hb] at he
    | some b =>
      rw [exchange_succ hb] at he
      cases he
      refine h.with_blocks rfl rfl (h.peerOk (List.mem_of_getElem? hb)) fun c hc => ?_
      obtain hc | rfl := List.mem_or_eq_of_mem_set hc
      · exact h.peerOk hc
      · exact h.blockOk

theorem inv_onBlock {k : Nat} {f : State → Host.Outcome State Fault Refusal} (hf : ∀ {v w : State}, v.Inv → f v = .next w → w.Inv)
    (h : s.Inv) (he : onBlock k f s = .next t) : t.Inv := by
  unfold onBlock at he
  split at he
  · cases he
  next v hv =>
    obtain ⟨w, hw, ht⟩ := andThen_eq_next.mp he
    split at ht
    · next t' ht' => cases ht; exact inv_exchange (hf (inv_exchange h hv) hw) ht'
    · cases ht

/-! ## The capture agent and the instantiation of a block -/

theorem edgeInv_write {cap i n : Nat} {b : EdgeBuffer} (h : EdgeInv cap b) (hi : i < cap) (hn : n ≤ cap) (v : W32) :
    EdgeInv cap { b with cells := writeEntry b.cells i v, count := n } where
  canonical := writeEntry_wf h.canonical
  inRange x hx := by
    obtain hx | rfl := mem_writeEntry hx
    · exact h.inRange x hx
    · exact hi
  countLe := hn

theorem inv_agentWrite {j i : Nat} {v : W32} (h : s.Inv) (he : agentWrite j i v s = .next t) : t.Inv := by
  obtain ⟨hi, -, rfl⟩ := agentWrite_next he
  exact h.with_buffer (edgeInv_write (h.bufferOk j) hi (h.bufferOk j).countLe v)

theorem inv_agentAppend {j : Nat} {v : W32} (hj : j < s.bufs.length) (h : s.Inv) (he : agentAppend j v s = .next t) : t.Inv := by
  obtain ⟨rfl, -⟩ | ⟨-, hn, u, hu, rfl⟩ := agentAppend_next he
  · exact h
  · obtain ⟨hi, -, rfl⟩ := agentWrite_next hu
    rw [bumpCount_setBuffer hj]
    exact h.with_buffer (edgeInv_write (h.bufferOk j) hi hn v)

theorem inv_agentClear {j : Nat} (h : s.Inv) (he : agentClear j s = .next t) : t.Inv := by
  obtain ⟨-, -, rfl⟩ := agentClear_next he
  exact h.with_buffer ⟨rfl, nofun, Nat.zero_le _⟩

theorem inv_agentEnable {j : Nat} {b : Bool} (h : s.Inv) (he : agentEnable j b s = .next t) : t.Inv := by
  cases he
  exact h.with_buffer ⟨(h.bufferOk j).canonical, (h.bufferOk j).inRange, (h.bufferOk j).countLe⟩

theorem inv_instantiate (debounceMs : W32) (buttonId j : Nat) (h : s.Inv) : (instantiate debounceMs buttonId j s).Inv := by
  have hlen : s.bufs.length ≤ (instantiate debounceMs buttonId j s).bufs.length := by
    simp only [instantiate]
    split <;> simp
  have hok (b : Block) (hb : BlockOk s b) : BlockOk (instantiate debounceMs buttonId j s) b := ⟨hb.1, hb.2.trans_le hlen⟩
  refine inv_iff.mpr ⟨h.config, hok _ h.blockOk, fun b hb => ?_, fun e he => ?_⟩
  · obtain hb | hb := List.mem_append.mp hb
    · exact hok b (h.peerOk hb)
    · obtain rfl := List.mem_singleton.mp hb
      exact ⟨⟨decInv_reset _, encInv_reset _, engInv_unconstructed⟩, instantiate_buffer_exists debounceMs buttonId j s⟩
  · simp only [instantiate] at he
    split at he
    · exact h.buffers e he
    · obtain he | he := List.mem_append.mp he
      · exact h.buffers e he
      · obtain rfl := List.mem_singleton.mp he
        exact edgeInv_empty _

/-! ## Every step -/

theorem inv_runEvent {ev : Event} (h : s.Inv) (he : runEvent ev s = .next t) : t.Inv := by
  cases ev with
  | host k code args => exact inv_onBlock inv_runHost h he
  | cycle xs => exact inv_clockEdge h he
  | append j v => exact inv_agentAppend (onBuffer_next he).1 h (onBuffer_next he).2
  | write j i v => exact inv_agentWrite h (onBuffer_next he).2
  | clear j => exact inv_agentClear h (onBuffer_next he).2
  | enableCapture j b => exact inv_agentEnable h (onBuffer_next he).2
  | instantiate debounceMs buttonId j => cases he; exact inv_instantiate debounceMs buttonId j h

end Invariant

/-- Settles O54: by the event; the one taken from the inbox is no part of the invariant. -/
theorem stepKeepsTheInvariant : Obligations.StepKeepsTheInvariant := by
  intro s t h he
  unfold step at he
  split at he
  · exact inv_exec rfl h he
  · next ev rest _ =>
    have hrest : State.Inv { s with inbox := rest } := h.with_blocks rfl rfl h.blockOk fun _ hb => h.peerOk hb
    exact inv_runEvent hrest he

end Sys2Proof.Machine
end

section
/-! PROOFS. The strobes as clock edges (42_nec_decoder.md R153, 43_nec_encoder.md R191, R197), and what the operations between two parses do
to the decoder (42_nec_decoder.md R166, R177). -/

namespace Sys2Proof.Machine

/-! ## One strobe at an edge -/

section Strobes

variable {x : Inputs} {s : State}

/-- An idle encoder ignores the tick (43_nec_encoder.md R192). -/
theorem encAdvance_of_tick (hk : encStuck s.enc = false) (hp : x.encPoll = false) (ht : x.tick = true) :
    encAdvance { s with inp := x } = if encBusy s then encTickStep s.cfg s.enc else s.enc := by
  simp [encAdvance, encBusy, hk, hp, ht]

theorem hostEdge_of_unitsOk (hs : unitsOk s) (hr : x.rst = false) (hx : edgeRefusal x s = none) :
    hostEdge x s = .next { blockNext x s with peers := peersTick s } := by
  obtain ⟨hdec, -, hpeers⟩ := hs
  exact hostEdge_next.mpr (.inr ⟨hr, hx, (decCheck_eq_none.mp hdec).2, hpeers, rfl⟩)

theorem exec_encTick (hs : unitsOk s) :
    exec .encTick s = .next
      { s with
        inp := { Inputs.idle with tick := true }
        dec := decAdvance s
        enc := if encBusy s then encTickStep s.cfg s.enc else s.enc
        act := 0
        peers := peersTick s } := by
  have hk : encStuck s.enc = false := encStuck_of_unitsOk hs
  rw [exec_ports (i := .encTick) rfl, hostEdge_of_unitsOk hs rfl (edgeRefusal_idle rfl rfl s), blockNext, if_neg (by decide),
    encAdvance_of_tick hk rfl rfl]
  rfl

theorem exec_clock (hs : unitsOk s) :
    exec .clock s = .next { s with inp := Inputs.idle, dec := decAdvance s, act := 0, peers := peersTick s } := by
  have hk : encStuck s.enc = false := encStuck_of_unitsOk hs
  rw [exec_ports (i := .clock) rfl, hostEdge_of_unitsOk hs rfl (edgeRefusal_idle rfl rfl s), blockNext, if_neg (by decide),
    encAdvance_of_no_strobe hk rfl rfl]
  rfl

theorem exec_encSetCode (hs : unitsOk s) (hi : s.enc.phase = .idle) (v : W32) :
    exec (.encSetCode v) s = .next
      { s with
        inp := { Inputs.idle with setCode := true, codeIn := v }
        dec := decAdvance s
        enc := { s.enc with pending := v }
        act := 0
        peers := peersTick s } := by
  have hk : encStuck s.enc = false := encStuck_of_unitsOk hs
  have hx : edgeRefusal { Inputs.idle with setCode := true, codeIn := v } s = none := by
    simp [edgeRefusal, Inputs.idle, encBusy, hi]
  rw [exec_ports (i := .encSetCode v) rfl, hostEdge_of_unitsOk hs rfl hx, blockNext, if_neg nofun,
    encAdvance_of_no_strobe hk rfl rfl]
  rfl

end Strobes

/-- Settles O40: each strobe is an edge of its own, at which the units it does not name keep their registers. -/
theorem strobesAreClockEdges : Obligations.StrobesAreClockEdges := by
  intro s hs
  exact ⟨exec_encTick hs, exec_clock hs, fun v hi => exec_encSetCode hs hi v, exec_dbResetDuration hs⟩

/-! ## The decoder between two parses -/

section BetweenParses

variable {s t : State}

theorem decAdvance_cases (s : State) :
    decAdvance s = s.dec ∨ decAdvance s = s.dec.recordFault ∨ (decBusy s = true ∧ decAdvance s = decEngineStep s) := by
  unfold decAdvance
  split
  · exact .inr (.inl rfl)
  · split
    · next hb => exact .inr (.inr ⟨hb, rfl⟩)
    · exact .inl rfl

/-- An instruction or an edge that neither loads nor resets the decoder leaves its registers, records a fault, or is the step of a busy
decoder. -/
theorem dec_cases
    (h : (∃ i : Instr, i ≠ .reset ∧ (∀ n, i ≠ .decParse n) ∧ exec i s = .next t) ∨
      (∃ x xs, x.rst = false ∧ x.start = false ∧ clockEdge x xs s = .next t)) :
    t.dec = s.dec ∨ t.dec = s.dec.recordFault ∨ (decBusy s = true ∧ t.dec = decEngineStep s) := by
  have hedge : ∀ {x xs}, x.rst = false → x.start = false → clockEdge x xs s = .next t → t.dec = decAdvance s := by
    intro x xs hr hs he
    obtain ⟨-, -, rfl⟩ := clockEdge_next.mp he
    exact blockNext_dec_of_no_start hr hs
  obtain ⟨i, hreset, hparse, he⟩ | ⟨x, xs, hr, hs, he⟩ := h
  · obtain ⟨x, hx, he⟩ | ⟨r, -, hr⟩ | ⟨r, -, hr⟩ | ⟨r, -, hr⟩ | ⟨r, -, hr⟩ | ⟨z, ws, s0, -, -, rfl⟩ | ⟨-, r, rfl⟩ :=
      exec_cases he
    · have hi : StrobesOf i x := strobesOf_portsOf hx
      have hr : x.rst = false := Bool.eq_false_iff.mpr fun hr => hreset (hi.rst hr)
      have hs : x.start = false := Bool.eq_false_iff.mpr fun hs => (hi.start hs).elim hparse
      exact hedge hr hs he ▸ decAdvance_cases s
    · obtain ⟨-, rfl | ⟨hb, rfl⟩⟩ := runDecRow_next hr
      · exact .inl rfl
      · exact .inr (.inr ⟨hb, rfl⟩)
    · obtain ⟨d, rfl⟩ := runDbnRow_frame hr
      exact .inl rfl
    · obtain ⟨e, rfl⟩ := runEncRow_frame hr
      exact .inl rfl
    · obtain ⟨st, a, rfl⟩ := runEngRow_frame hr
      exact .inl rfl
    · exact .inl rfl
    · exact .inl rfl
  · exact hedge hr hs he ▸ decAdvance_cases s

/-- A step takes from the remaining count what it adds to the cursor, unless it ends the parse. -/
theorem decEngineStep_view (hb : decBusy s = true) (hv : s.dec.p + s.dec.rem ≤ s.cfg.edgeCap) :
    (decEngineStep s).p + (decEngineStep s).rem ≤ s.dec.p + s.dec.rem ∧
      ((decEngineStep s).done = false →
        s.dec.done = false ∧ (decEngineStep s).p + (decEngineStep s).rem = s.dec.p + s.dec.rem) := by
  have hrem : 2 ≤ s.dec.rem := of_decide_eq_true hb
  rw [decEngineStep_nat hb hv]
  cases s.dec.state
  case ss =>
    dsimp only
    split
    · exact ⟨by simp, nofun⟩
    · split
      · exact ⟨by dsimp only; omega, fun hd => ⟨hd, by dsimp only; omega⟩⟩
      · exact ⟨le_rfl, fun hd => ⟨hd, rfl⟩⟩
  all_goals
    dsimp only
    repeat' split
    all_goals exact ⟨by dsimp only; omega, fun hd => ⟨hd, by dsimp only; omega⟩⟩

/-- A count that is not refused is loaded as it is. -/
theorem dec_of_exec_decParse {n : Nat} (h : exec (.decParse n) s = .next t) :
    n ≤ s.cfg.edgeCap ∧ t.dec = { Dec.reset with rem := n, faulted := (decAdvance s).faulted } := by
  rw [exec_ports (i := .decParse n) rfl] at h
  obtain ⟨hr, -⟩ | ⟨hr, hx, -, -, rfl⟩ := hostEdge_next.mp h
  · cases hr
  · have hn : n ≤ s.cfg.edgeCap := count_le_of_not_refused hx rfl
    refine ⟨hn, ?_⟩
    dsimp only
    rw [blockNext_dec hr, if_pos rfl, Dec.load, toIdx_of_le hn]

end BetweenParses

/-- Settles O19: a parse loads `p` = 0 and `rem` = n, and the only other change is a step, which moves `p` by what it takes from `rem` or ends
the parse. -/
theorem cursorStaysInTheView : Obligations.CursorStaysInTheView := by
  intro n s t
  refine ⟨fun h => ?_, fun h hn hview heq hp => ?_⟩
  · obtain ⟨-, hd⟩ := dec_of_exec_decParse h
    simp [hd, Dec.reset]
  · obtain hd | hd | ⟨hb, hd⟩ := dec_cases h <;> rw [hd]
    · exact ⟨hview, heq, hp⟩
    · exact ⟨hview, heq, hp⟩
    · obtain ⟨hle, hrunning⟩ := decEngineStep_view hb (hview.trans hn)
      refine ⟨hle.trans hview, fun hdone => ?_, by omega⟩
      obtain ⟨hold, hsum⟩ := hrunning hdone
      exact hsum.trans (heq hold)

/-- Settles O22: a decoder that is not busy takes no step, and a recorded fault is no register. -/
theorem resultsHoldUntilTheNextParse : Obligations.ResultsHoldUntilTheNextParse := by
  intro s t hb h
  have hd : t.dec = s.dec ∨ t.dec = s.dec.recordFault :=
    (dec_cases h).imp_right fun h => h.resolve_right fun ⟨hbusy, _⟩ => absurd hbusy (by simp [hb])
  rw [codeOut, codeOut, repOut, repOut, doneOut, doneOut]
  obtain hd | hd := hd <;> rw [hd] <;> exact ⟨rfl, rfl, rfl, rfl⟩

end Sys2Proof.Machine
end

section
/-! PROOFS. The decoder's rows (42_nec_decoder.md R154 to R165), the load of a parse (R170) and the read of its result (R175). -/

namespace Sys2Proof.Machine

/-! ## The rows -/

section DecoderRows

variable {s : State}

/-- A row's step, with its condition as a proposition and the registers it writes, where it writes them, as a value. -/
theorem decRowStep_eq {cond : Bool} {w : Dec → Dec} {p : Prop} [Decidable p] {d : Dec} (hn : decCheck s = none)
    (hp : (decBusy s && cond) = true ↔ p) (hd : decBusy s = true → w s.dec = d) :
    decRowStep cond w s = .next (if p then { s with dec := d } else s) := by
  rw [decRowStep_ok hn]
  refine congrArg _ ?_
  by_cases h : p
  · have hc := hp.mpr h
    rw [if_pos h, if_pos hc, hd (Bool.and_eq_true_iff.mp hc).1]
  · rw [if_neg h, if_neg (mt hp.mp h)]

/-- A busy decoder has the edges left that a row takes, so nothing goes below 0. -/
theorem idxSub_of_busy (hb : decBusy s = true) {k : Nat} (hk : k ≤ 2) :
    idxSub s.cfg s.dec.rem k = (s.dec.rem - k) % 2 ^ s.cfg.idxW :=
  idxSub_of_le (hk.trans (of_decide_eq_true hb))

end DecoderRows

/-- Settles O12: each row is a `decRowStep` under the rule's condition. -/
theorem decoderIdleRows : Obligations.DecoderIdleRows := by
  intro s hn
  refine ⟨?prologue, ?noise⟩
  case prologue =>
    show execDecIdlePrologue s = _
    exact decRowStep_eq hn (by simp) fun hb => by rw [idxSub_of_busy hb one_le_two]; rfl
  case noise =>
    show execDecIdleNoise s = _
    exact decRowStep_eq hn (by simp) fun hb => by rw [idxSub_of_busy hb le_rfl]; rfl

/-- Settles O13: each row is a `decRowStep` under the rule's condition. -/
theorem decoderInitRows : Obligations.DecoderInitRows := by
  intro s hn
  refine ⟨?command, ?repetition, ?noise⟩
  case command =>
    show execDecInitCommand s = _
    exact decRowStep_eq hn (by simp) fun hb => by rw [idxSub_of_busy hb one_le_two]; rfl
  case repetition =>
    show execDecInitRepetition s = _
    exact decRowStep_eq hn (by simp [and_assoc]) fun hb => by rw [idxSub_of_busy hb one_le_two]; rfl
  case noise =>
    show execDecInitNoise s = _
    exact decRowStep_eq hn (by simp [and_assoc]) fun hb => by rw [idxSub_of_busy hb one_le_two]; rfl

/-- Settles O14: each row is a `decRowStep` under the rule's condition. -/
theorem decoderSilenceRows : Obligations.DecoderSilenceRows := by
  intro s hn
  refine ⟨?complete, ?silence, ?noise⟩
  case complete =>
    show execDecSsComplete s = _
    exact decRowStep_eq hn (by simp) fun _ => rfl
  case silence =>
    show execDecSsSilence s = _
    exact decRowStep_eq hn (by simp [and_assoc]) fun hb => by rw [idxSub_of_busy hb one_le_two]; rfl
  case noise =>
    show execDecSsNoise s = _
    exact decRowStep_eq hn (by simp [and_assoc]) fun _ => rfl

/-- Settles O15: each row is a `decRowStep` under the rule's condition, and the shifted code is the number twice as large, plus the bit. -/
theorem decoderPulseRows : Obligations.DecoderPulseRows := by
  intro s hn
  rw [← shiftLeft_one_eq, ← shiftLeft_one_or_one_eq]
  refine ⟨?bit0, ?bit1, ?noise⟩
  case bit0 =>
    show execDecSpBit0 s = _
    exact decRowStep_eq hn (by simp) fun hb => by rw [idxSub_of_busy hb one_le_two]; rfl
  case bit1 =>
    show execDecSpBit1 s = _
    exact decRowStep_eq hn (by simp [and_assoc]) fun hb => by rw [idxSub_of_busy hb one_le_two]; rfl
  case noise =>
    show execDecSpNoise s = _
    exact decRowStep_eq hn (by simp [and_assoc]) fun hb => by rw [idxSub_of_busy hb one_le_two]; rfl

/-! ## A decoder that is not busy -/

section NotBusy

variable {s : State}

theorem decBusy_eq_false : decBusy s = false ↔ s.dec.rem < 2 := by simp [decBusy, Dec.busy]

theorem decBusy_eq_true : decBusy s = true ↔ 2 ≤ s.dec.rem := decide_eq_true_iff

theorem execDecHalt_of_check (hn : decCheck s = none) : execDecHalt s = .next s := by
  simp only [execDecHalt, hn]

/-- A refused strobe of block 0 ends the edge. -/
theorem hostEdge_of_refusal {x : Inputs} {r : Refusal} (hr : x.rst = false) (hx : edgeRefusal x s = some r) :
    hostEdge x s = .refused r := by
  rw [hostEdge, clockEdge, blockEdge_eq, if_neg (by simp [hr]), hx]
  rfl

theorem faulted_of_not_stuck {d : Dec} (hk : decStuck d = false) : d.faulted = false := by
  rw [decStuck, Bool.or_eq_false_iff] at hk
  exact hk.1

theorem edgeRefusal_start (hb : decBusy s = false) {n : Nat} (hn : n ≤ s.cfg.edgeCap) :
    edgeRefusal { Inputs.idle with start := true, countIn := n } s = none := by
  simp [edgeRefusal, Inputs.idle, hb, hn]

/-- The registers at the start of a parse of `n` edges (R170). -/
def Dec.started (n : Nat) : Dec := { Dec.reset with rem := n }

/-- A parse that is not refused loads the decoder; the units it does not name keep their registers. -/
theorem exec_decParse (hs : unitsOk s) (hb : decBusy s = false) {n : Nat} (hn : n ≤ s.cfg.edgeCap) :
    exec (.decParse n) s = .next
      { s with
        inp := { Inputs.idle with start := true, countIn := n }
        dec := Dec.started n
        act := 0
        peers := peersTick s } := by
  have hkd : decStuck s.dec = false := (decCheck_eq_none.mp hs.1).1
  have hke : encStuck s.enc = false := encStuck_of_unitsOk hs
  have hload : s.dec.load s.cfg n = Dec.started n := by
    rw [Dec.load, faulted_of_not_stuck hkd, toIdx_of_le hn]
    rfl
  rw [exec_ports (i := .decParse n) rfl, hostEdge_of_unitsOk hs rfl (edgeRefusal_start hb hn), blockNext, if_neg nofun,
    decAdvance_of_not_busy hkd hb, encAdvance_of_no_strobe hke rfl rfl, hload]
  rfl

theorem exec_decReadResult (hb : decBusy s = false) :
    exec .decReadResult s = .next { s with reply := .result (codeOut s) (repOut s) (doneOut s) } := if_neg (by simp [hb])

end NotBusy

/-- Settles O16: with `run` = 0 the selector names `DEC_HALT` whatever its other fields. -/
theorem decoderHaltsWhenNotBusy : Obligations.DecoderHaltsWhenNotBusy := by
  intro s hn
  refine ⟨execDecHalt_of_check hn, fun hrem => ?_⟩
  have hb : decBusy s = false := decBusy_eq_false.mpr hrem
  refine ⟨?_, fun t ht => ?_⟩
  · rw [decodeDec_decSelector, hb]
    rfl
  · obtain ⟨-, -, rfl⟩ := clockEdge_next.mp ht
    exact (blockNext_dec_of_no_start rfl rfl).trans (decAdvance_of_not_busy (decCheck_eq_none.mp hn).1 hb)

/-- Settles O20: the two refusals are those of the edge's `start` strobe, in their order. -/
theorem parseLoadsTheDecoder : Obligations.ParseLoadsTheDecoder := by
  intro s n
  refine ⟨fun hrem => ?_, fun hrem hn => ?_, fun hrem hn hs => ?_⟩
  · have hb : decBusy s = true := decBusy_eq_true.mpr hrem
    exact hostEdge_of_refusal rfl (by simp [edgeRefusal, hb])
  · have hb : decBusy s = false := decBusy_eq_false.mpr hrem
    exact hostEdge_of_refusal rfl (by simp [edgeRefusal, hb, hn])
  · exact ⟨_, exec_decParse hs (decBusy_eq_false.mpr hrem) hn, rfl, rfl⟩

/-- Settles O21: the three outputs are what the reply holds. -/
theorem readResultReturnsTheResult : Obligations.ReadResultReturnsTheResult := by
  intro s
  exact ⟨fun hrem => if_pos (decBusy_eq_true.mpr hrem), fun hrem => exec_decReadResult (decBusy_eq_false.mpr hrem)⟩

end Sys2Proof.Machine
end

section
/-! PROOFS. A parse as a sequence of decoder steps (42_nec_decoder.md R171, R179): the registers after each `CLOCK`, and the end of the parse. -/

namespace Sys2Proof.Machine

/-! ## The registers after one `CLOCK` -/

/-- The decoder's registers after one `CLOCK`, from the registers `d`, with the configuration and the edge buffer of `s`. -/
def decNext (s : State) (d : Dec) : Dec := decAdvance { s with dec := d }

section OneClock

variable {s t u : State} {d : Dec} {n : Nat}

theorem decAdvance_of_busy (hk : decStuck s.dec = false) (hb : decBusy s = true) : decAdvance s = decEngineStep s := by
  rw [decAdvance, if_neg (by simp [hk]), if_pos hb]

theorem decNext_eq_decAdvance (hc : t.cfg = s.cfg) (he : t.edge = s.edge) (hd : t.dec = d) : decAdvance t = decNext s d :=
  decAdvance_congr hc hd he

theorem decInv_decNext (h : DecInv s.cfg.edgeCap d) : DecInv s.cfg.edgeCap (decNext s d) :=
  decInv_advance (s := { s with dec := d }) h

theorem decNext_of_not_busy (h : DecInv s.cfg.edgeCap d) (hb : d.busy = false) : decNext s d = d :=
  decAdvance_of_not_busy (s := { s with dec := d }) (decStuck_of_inv h) hb

/-- A busy decoder by the windows of the delta at its cursor (42_nec_decoder.md R150). -/
theorem decNext_of_busy (h : DecInv s.cfg.edgeCap d) (hb : d.busy = true) :
    decNext s d =
      match d.state with
      | .idle =>
        if inWindow s.cfg .ps (deltaAt s d.p) then { d with p := d.p + 1, rem := d.rem - 1, state := .init }
        else { d with p := d.p + 2, rem := d.rem - 2, state := .idle }
      | .init =>
        if inWindow s.cfg .pp (deltaAt s d.p) then { d with bits := 32#6, p := d.p + 1, rem := d.rem - 1, state := .ss }
        else if inWindow s.cfg .rp (deltaAt s d.p) then
          { d with rep := true, bits := 0#6, p := d.p + 1, rem := d.rem - 1, state := .ss }
        else { d with code := 0#32, bits := 0#6, rep := false, p := d.p + 1, rem := d.rem - 1, state := .idle }
      | .ss =>
        if d.bits == 0#6 then { d with done := true, rem := 0, state := .idle }
        else if inWindow s.cfg .sil (deltaAt s d.p) then { d with p := d.p + 1, rem := d.rem - 1, state := .sp }
        else { d with code := 0#32, bits := 0#6, rep := false, state := .idle }
      | .sp =>
        if inWindow s.cfg .b0 (deltaAt s d.p) then
          { d with code := d.code <<< 1, bits := d.bits - 1#6, p := d.p + 1, rem := d.rem - 1, state := .ss }
        else if inWindow s.cfg .b1 (deltaAt s d.p) then
          { d with code := (d.code <<< 1) ||| 1#32, bits := d.bits - 1#6, p := d.p + 1, rem := d.rem - 1, state := .ss }
        else { d with code := 0#32, bits := 0#6, rep := false, p := d.p + 1, rem := d.rem - 1, state := .idle } := by
  have hstep : decNext s d = decEngineStep { s with dec := d } :=
    decAdvance_of_busy (s := { s with dec := d }) (decStuck_of_inv h) hb
  rw [hstep, decEngineStep_nat (s := { s with dec := d }) hb h.view]
  rfl

end OneClock

/-! ## The states of a parse -/

/-- `t` has the decoder registers `d`, and what a parse reads beside them as in `s`. -/
structure Parsing (s : State) (d : Dec) (t : State) : Prop where
  inv : t.Inv
  cfg : t.cfg = s.cfg
  edge : t.edge = s.edge
  dec : t.dec = d

section Parsing

variable {s t : State} {d : Dec} {n : Nat}

theorem Parsing.decInv (h : Parsing s d t) : DecInv s.cfg.edgeCap d := by
  rw [← h.cfg, ← h.dec]
  exact h.inv.decoder

theorem Parsing.clock (h : Parsing s d t) : ∃ u, exec .clock t = .next u ∧ Parsing s (decNext s d) u := by
  have he := exec_clock h.inv.unitsOk
  exact ⟨_, he, inv_exec rfl h.inv he, h.cfg, h.edge, decNext_eq_decAdvance h.cfg h.edge h.dec⟩

theorem Parsing.clocks (h : Parsing s d t) (k : Nat) :
    ∃ u, execTimes .clock k t = .next u ∧ Parsing s ((decNext s)^[k] d) u := by
  induction k generalizing d t with
  | zero => exact ⟨t, rfl, h⟩
  | succ k ih =>
    obtain ⟨u, hu, hpu⟩ := h.clock
    obtain ⟨v, hv, hpv⟩ := ih hpu
    exact ⟨v, by rw [execTimes, hu, andThen_next, hv], hpv⟩

/-- `CLOCK*` stops at a decoder that is not busy, whose registers further clocks would leave. -/
theorem Parsing.clockStar (h : Parsing s d t) (k : Nat) :
    ∃ u, clockStar k t = .next u ∧ Parsing s ((decNext s)^[k] d) u := by
  induction k generalizing d t with
  | zero => exact ⟨t, rfl, h⟩
  | succ k ih =>
    rw [Machine.clockStar]
    cases hb : decBusy t with
    | false =>
      have hd : d.busy = false := by rw [← h.dec]; exact hb
      rw [Function.iterate_fixed (decNext_of_not_busy h.decInv hd)]
      exact ⟨t, rfl, h⟩
    | true =>
      obtain ⟨u, hu, hpu⟩ := h.clock
      rw [if_pos rfl, hu, andThen_next]
      exact ih hpu

theorem decInv_started {cap : Nat} (hn : n ≤ cap) : DecInv cap (Dec.started n) :=
  (decInv_reset cap).skipped (p := 0) rfl rfl (by omega) rfl

/-- `DEC_PARSE` starts the sequence. -/
theorem parsing_started (h : s.Inv) (hb : decBusy s = false) (hn : n ≤ s.cfg.edgeCap) :
    ∃ t, exec (.decParse n) s = .next t ∧ Parsing s (Dec.started n) t := by
  have he := exec_decParse h.unitsOk hb hn
  exact ⟨_, he, inv_exec rfl h he, rfl, rfl, rfl⟩

end Parsing

/-! ## The end of a parse (42_nec_decoder.md R171) -/

/-- SYMBOL_SILENCE has a step that takes no edge (R161). -/
def DecState.freeSteps : DecState → Nat
  | .ss => 1
  | .idle | .init | .sp => 0

/-- A bound on the steps a decoder takes until it is not busy. -/
def Dec.stepsLeft (d : Dec) : Nat := if d.busy then 2 * (d.rem - 1) + d.state.freeSteps else 0

section EndOfParse

variable {s t : State} {d : Dec} {n k : Nat}

theorem stepsLeft_le (d : Dec) : d.stepsLeft ≤ 2 * (d.rem - 1) + d.state.freeSteps := by
  rw [Dec.stepsLeft]
  split
  · exact le_rfl
  · exact Nat.zero_le _

theorem stepsLeft_le_twice_rem (d : Dec) : d.stepsLeft ≤ 2 * d.rem := by
  cases hb : d.busy with
  | false => simp [Dec.stepsLeft, hb]
  | true =>
    have hrem : 2 ≤ d.rem := of_decide_eq_true hb
    have hfree : d.state.freeSteps ≤ 1 := by cases d.state <;> decide
    have hleft := stepsLeft_le d
    omega

theorem not_busy_of_stepsLeft (h : d.stepsLeft = 0) : d.busy = false := by
  rw [← Bool.not_eq_true]
  intro hb
  have hrem : 2 ≤ d.rem := of_decide_eq_true hb
  rw [Dec.stepsLeft, if_pos hb] at h
  omega

theorem stepsLeft_decNext (h : DecInv s.cfg.edgeCap d) : (decNext s d).stepsLeft ≤ d.stepsLeft - 1 := by
  cases hb : d.busy
  case false => simp [decNext_of_not_busy h hb, Dec.stepsLeft, hb]
  have hrem : 2 ≤ d.rem := of_decide_eq_true hb
  have hleft : d.stepsLeft = 2 * (d.rem - 1) + d.state.freeSteps := if_pos hb
  rw [hleft, decNext_of_busy h hb]
  cases d.state
  all_goals
    dsimp only
    repeat' split
    all_goals
      refine (stepsLeft_le _).trans ?_
      dsimp only [DecState.freeSteps]
      omega

theorem stepsLeft_iterate (h : DecInv s.cfg.edgeCap d) (k : Nat) : ((decNext s)^[k] d).stepsLeft ≤ d.stepsLeft - k := by
  induction k generalizing d with
  | zero => exact le_rfl
  | succ k ih =>
    have := stepsLeft_decNext h
    exact (ih (decInv_decNext h)).trans (by omega)

theorem not_busy_after (h : DecInv s.cfg.edgeCap d) (hk : 2 * d.rem ≤ k) : ((decNext s)^[k] d).busy = false := by
  have hleft := stepsLeft_le_twice_rem d
  have hiter := stepsLeft_iterate h k
  exact not_busy_of_stepsLeft (by omega)

/-- `DECODE n` reads the result of the sequence. -/
theorem pseudoDecode_eq (h : s.Inv) (hb : decBusy s = false) (hn : n ≤ s.cfg.edgeCap) :
    ∃ u, Parsing s ((decNext s)^[2 * n] (Dec.started n)) u ∧
      pseudoDecode n s = .next { u with reply := .result (codeOut u) (repOut u) (doneOut u) } := by
  obtain ⟨t, ht, hpt⟩ := parsing_started h hb hn
  obtain ⟨u, hu, hpu⟩ := hpt.clockStar (2 * n)
  have hidle : decBusy u = false := by
    rw [decBusy, hpu.dec]
    exact not_busy_after hpt.decInv le_rfl
  refine ⟨u, hpu, ?_⟩
  rw [pseudoDecode, ht, andThen_next, hu, andThen_next, exec_decReadResult hidle]

/-- A sequence of registers in which each is the next one's step is the sequence of a parse. -/
theorem iterate_eq_of_steps {f : Nat → Dec} (h0 : DecInv s.cfg.edgeCap (f 0))
    (hstep : ∀ j, j < k → DecInv s.cfg.edgeCap (f j) → decNext s (f j) = f (j + 1)) :
    (decNext s)^[k] (f 0) = f k ∧ DecInv s.cfg.edgeCap (f k) := by
  induction k with
  | zero => exact ⟨rfl, h0⟩
  | succ k ih =>
    obtain ⟨hiter, hinv⟩ := ih fun j hj => hstep j (by omega)
    have hk : decNext s (f k) = f (k + 1) := hstep k (Nat.lt_succ_self k) hinv
    rw [Function.iterate_succ_apply', hiter, ← hk]
    exact ⟨rfl, decInv_decNext hinv⟩

/-- The parse ends after the step that leaves the decoder not busy, where every one before it leaves it busy. -/
theorem parseEndsAfter_of_steps {f : Nat → Dec} (h : s.Inv) (hb : decBusy s = false) (hn : n ≤ s.cfg.edgeCap)
    (h0 : f 0 = Dec.started n) (hbusy : ∀ j, j ≤ k → (f j).busy = true)
    (hstep : ∀ j, j < k → DecInv s.cfg.edgeCap (f j) → decNext s (f j) = f (j + 1))
    (hlast : DecInv s.cfg.edgeCap (f k) → decNext s (f k) = d) (hend : d.busy = false) :
    ∃ u, parseEndsAfter s n (k + 1) u ∧ u.dec = d := by
  obtain ⟨t, ht, hpt⟩ := parsing_started h hb hn
  rw [← h0] at hpt
  have hiter (j : Nat) (hj : j ≤ k) : (decNext s)^[j] (f 0) = f j ∧ DecInv s.cfg.edgeCap (f j) :=
    iterate_eq_of_steps hpt.decInv fun i hi => hstep i (by omega)
  obtain ⟨u, hu, hpu⟩ := hpt.clocks (k + 1)
  have hdu : u.dec = d := by
    obtain ⟨hk, hinv⟩ := hiter k le_rfl
    rw [hpu.dec, Function.iterate_succ_apply', hk, hlast hinv]
  refine ⟨u, ⟨t, ht, hu, by rw [decBusy, hdu, hend], fun j hj => ?_⟩, hdu⟩
  obtain ⟨v, hv, hpv⟩ := hpt.clocks j
  have hj : j ≤ k := Nat.le_of_lt_succ hj
  exact ⟨v, hv, by rw [decBusy, hpv.dec, (hiter j hj).1, hbusy j hj]⟩

/-- `CLOCK*` runs exactly to the first state in which the decoder is not busy. -/
theorem clockStar_eq_execTimes {u : State} {m : Nat} (hu : execTimes .clock k t = .next u) (hend : decBusy u = false)
    (hbusy : ∀ j, j < k → ∃ v, execTimes .clock j t = .next v ∧ decBusy v = true) (hk : k ≤ m) : clockStar m t = .next u := by
  induction k generalizing t m with
  | zero =>
    cases hu
    cases m with
    | zero => rfl
    | succ m => exact if_neg (by simp [hend])
  | succ k ih =>
    obtain ⟨v, hv, hbv⟩ := hbusy 0 (Nat.succ_pos k)
    cases hv
    obtain ⟨w, hw, hwu⟩ := andThen_eq_next.mp hu
    obtain ⟨m, rfl⟩ : ∃ l, m = l + 1 := ⟨m - 1, by omega⟩
    rw [clockStar, if_pos hbv, hw, andThen_next]
    refine ih hwu (fun j hj => ?_) (by omega)
    obtain ⟨v, hv, hbv⟩ := hbusy (j + 1) (by omega)
    rw [execTimes, hw, andThen_next] at hv
    exact ⟨v, hv, hbv⟩

theorem pseudoDecode_of_parseEndsAfter {u : State} (h : parseEndsAfter s n k u) (hk : k ≤ 2 * n) :
    pseudoDecode n s = .next { u with reply := .result (codeOut u) (repOut u) (doneOut u) } := by
  obtain ⟨t, ht, hu, hend, hbusy⟩ := h
  rw [pseudoDecode, ht, andThen_next, clockStar_eq_execTimes hu hend hbusy hk, andThen_next, exec_decReadResult hend]

end EndOfParse

/-- Settles O23: every step lowers the bound on the steps left, which begins at no more than twice the count. -/
theorem parseEndsWithinTwiceTheCount : Obligations.ParseEndsWithinTwiceTheCount := by
  intro s h
  have hp : Parsing s s.dec s := ⟨h, rfl, rfl, rfl⟩
  obtain ⟨u, hu, hpu⟩ := hp.clocks (2 * s.dec.rem)
  exact ⟨u, hu, by rw [decBusy, hpu.dec, not_busy_after h.decoder le_rfl]⟩

end Sys2Proof.Machine
end

section
/-! PROOFS. The frames that decode (42_nec_decoder.md R178, R179): the registers at each delta of a repetition frame and of a command
frame. -/

namespace Sys2Proof.Machine

theorem busy_of_rem {d : Dec} (h : 2 ≤ d.rem) : d.busy = true := decide_eq_true h

/-! ## A repetition frame (R179) -/

section Repetition

variable {s : State} {n j : Nat}

/-- The registers of a parse of `n` edges of a repetition frame, before each of its steps and after the last. -/
def repetitionDec (n : Nat) : Nat → Dec
  | 0 => Dec.started n
  | 1 => { Dec.started (n - 1) with p := 1, state := .init }
  | 2 => { Dec.started (n - 2) with p := 2, state := .ss, rep := true }
  | _ => { Dec.reset with p := 2, rep := true, done := true }

theorem busy_repetitionDec (hj : j ≤ 2) (hn : j + 2 ≤ n) : (repetitionDec n j).busy = true := by
  match j with
  | 0 => exact busy_of_rem hn
  | 1 => exact busy_of_rem (show 2 ≤ n - 1 by omega)
  | 2 => exact busy_of_rem (show 2 ≤ n - 2 by omega)

/-- Prologue, repetition pulse, and the end where no bits are to come. -/
theorem decNext_repetitionDec (hw : windowsDisjoint s.cfg) (h0 : inWindow s.cfg .ps (deltaAt s 0) = true)
    (h1 : inWindow s.cfg .rp (deltaAt s 1) = true) (hj : j ≤ 2) (hn : j + 2 ≤ n)
    (hinv : DecInv s.cfg.edgeCap (repetitionDec n j)) : decNext s (repetitionDec n j) = repetitionDec n (j + 1) := by
  rw [decNext_of_busy hinv (busy_repetitionDec hj hn)]
  match j with
  | 0 => exact if_pos h0
  | 1 =>
    have hpp : ¬ inWindow s.cfg .pp (deltaAt s 1) = true := fun hpp => (hw _).1 ⟨hpp, h1⟩
    exact (if_neg hpp).trans (if_pos h1)
  | 2 => rfl

/-- A parse of a repetition frame ends after the first step that leaves the decoder not busy. -/
theorem repetition_parseEndsAfter {k : Nat} (hinv : s.Inv) (hb : decBusy s = false) (hw : windowsDisjoint s.cfg)
    (h0 : inWindow s.cfg .ps (deltaAt s 0) = true) (h1 : inWindow s.cfg .rp (deltaAt s 1) = true)
    (hn : n ≤ s.cfg.edgeCap) (hk : k ≤ 2) (hkn : k + 2 ≤ n) (hend : (repetitionDec n (k + 1)).busy = false) :
    ∃ u, parseEndsAfter s n (k + 1) u ∧ u.dec = repetitionDec n (k + 1) :=
  parseEndsAfter_of_steps (f := repetitionDec n) hinv hb hn rfl (fun _ hj => busy_repetitionDec (by omega) (by omega))
    (fun _ hj => decNext_repetitionDec hw h0 h1 (by omega) (by omega)) (decNext_repetitionDec hw h0 h1 hk hkn) hend

end Repetition

/-- Settles O25: the three steps one after another; 3 edges are too few for the last. -/
theorem repetitionFrameDecodes : Obligations.RepetitionFrameDecodes := by
  intro s hinv hb hw h0 h1
  refine ⟨fun n h4 hn => ?_, fun hn => ?_⟩
  · obtain ⟨u, hu, hd⟩ := repetition_parseEndsAfter (k := 2) hinv hb hw h0 h1 hn le_rfl h4 rfl
    refine ⟨u, hu, ?_⟩
    rw [pseudoDecode_of_parseEndsAfter hu (by omega), codeOut, repOut, doneOut, hd]
    rfl
  · obtain ⟨u, hu, hd⟩ := repetition_parseEndsAfter (k := 1) hinv hb hw h0 h1 hn one_le_two le_rfl rfl
    refine ⟨u, hu, ?_⟩
    rw [pseudoDecode_of_parseEndsAfter hu (by omega), codeOut, repOut, doneOut, hd]
    rfl

/-! ## A command frame (R178) -/

section Command

variable {s : State} {c : W32} {j m : Nat}

/-- The deltas of a command frame: the two of the prologue, and a silence and a pulse for each symbol. -/
theorem delta_cases (j : Nat) : j = 0 ∨ j = 1 ∨ (∃ m, j = 2 * m + 2) ∨ ∃ m, j = 2 * m + 3 := by
  by_cases h0 : j = 0
  · exact .inl h0
  by_cases h1 : j = 1
  · exact .inr (.inl h1)
  obtain h | h := Nat.mod_two_eq_zero_or_one j
  · exact .inr (.inr (.inl ⟨j / 2 - 1, by omega⟩))
  · exact .inr (.inr (.inr ⟨j / 2 - 1, by omega⟩))

theorem frameWindow_silence (c : W32) (m : Nat) : frameWindow c (2 * m + 2) = .sil := by
  simp [frameWindow]

theorem frameWindow_pulse (c : W32) (m : Nat) : frameWindow c (2 * m + 3) = if codeBit c m then .b1 else .b0 := by
  simp [frameWindow, Nat.add_mod]

/-- Before the silence of symbol `m`: the first `m` bits are received. -/
def silenceDec (c : W32) (m : Nat) : Dec :=
  { Dec.started (66 - 2 * m) with p := 2 * m + 2, state := .ss, bits := BitVec.ofNat 6 (32 - m), code := c >>> (32 - m) }

/-- Before the pulse of symbol `m`. -/
def pulseDec (c : W32) (m : Nat) : Dec :=
  { Dec.started (65 - 2 * m) with p := 2 * m + 3, state := .sp, bits := BitVec.ofNat 6 (32 - m), code := c >>> (32 - m) }

/-- The registers of a parse of 68 edges at delta `j` of a command frame for `c`. -/
def commandDec (c : W32) : Nat → Dec
  | 0 => Dec.started 68
  | 1 => { Dec.started 67 with p := 1, state := .init }
  | j + 2 => if j % 2 = 0 then silenceDec c (j / 2) else pulseDec c (j / 2)

theorem commandDec_silence (c : W32) (m : Nat) : commandDec c (2 * m + 2) = silenceDec c m := by
  simp [commandDec]

theorem commandDec_pulse (c : W32) (m : Nat) : commandDec c (2 * m + 3) = pulseDec c m := by
  have hdiv : (2 * m + 1) / 2 = m := by omega
  simp [commandDec, hdiv]

theorem busy_commandDec (hj : j ≤ 66) : (commandDec c j).busy = true := by
  obtain rfl | rfl | ⟨m, rfl⟩ | ⟨m, rfl⟩ := delta_cases j
  · rfl
  · rfl
  · exact commandDec_silence c m ▸ busy_of_rem (show 2 ≤ 66 - 2 * m by omega)
  · exact commandDec_pulse c m ▸ busy_of_rem (show 2 ≤ 65 - 2 * m by omega)

/-- The bits received are the first ones of the code, and a pulse brings in the next one. -/
theorem shift_in_bit (c : W32) (n : Nat) :
    (c >>> (n + 1)) <<< 1 ||| (if c.getLsbD n then 1#32 else 0#32) = c >>> n := by
  ext i hi
  rcases i with _ | i
  · cases h : c.getLsbD n <;> simp [h]
  · have hodd : n + 1 + i = n + (i + 1) := by omega
    cases h : c.getLsbD n <;> simp [hodd]

theorem code_after_pulse (c : W32) (hm : m < 32) :
    c >>> (32 - m) <<< 1 ||| (if codeBit c m then 1#32 else 0#32) = c >>> (32 - (m + 1)) := by
  have hn : 32 - m = 31 - m + 1 := by omega
  have hn' : 32 - (m + 1) = 31 - m := by omega
  rw [hn, hn']
  exact shift_in_bit c (31 - m)

theorem bits_left (hm : m < 32) :
    BitVec.ofNat 6 (32 - m) ≠ 0#6 ∧ BitVec.ofNat 6 (32 - m) - 1#6 = BitVec.ofNat 6 (32 - (m + 1)) := by
  have hn : (BitVec.ofNat 6 (32 - m)).toNat = 32 - m := Nat.mod_eq_of_lt (by omega)
  have hn' : (BitVec.ofNat 6 (32 - (m + 1))).toNat = 32 - (m + 1) := Nat.mod_eq_of_lt (by omega)
  constructor <;> bv_omega

theorem decNext_silenceDec (hm : m < 32) (hx : inWindow s.cfg .sil (deltaAt s (2 * m + 2)) = true)
    (hinv : DecInv s.cfg.edgeCap (silenceDec c m)) : decNext s (silenceDec c m) = pulseDec c m := by
  have hbits : ¬ (BitVec.ofNat 6 (32 - m) == 0#6) = true := by simpa using (bits_left hm).1
  rw [decNext_of_busy hinv (busy_of_rem (show 2 ≤ 66 - 2 * m by omega))]
  refine (if_neg hbits).trans ((if_pos hx).trans ?_)
  simp only [silenceDec, pulseDec, Dec.started, Dec.mk.injEq, true_and, and_true]
  omega

theorem decNext_pulseDec (hw : windowsDisjoint s.cfg) (hm : m < 32)
    (hx : inWindow s.cfg (if codeBit c m then .b1 else .b0) (deltaAt s (2 * m + 3)) = true)
    (hinv : DecInv s.cfg.edgeCap (pulseDec c m)) : decNext s (pulseDec c m) = silenceDec c (m + 1) := by
  have hbits := (bits_left hm).2
  have hcode := code_after_pulse c hm
  rw [decNext_of_busy hinv (busy_of_rem (show 2 ≤ 65 - 2 * m by omega))]
  cases hb : codeBit c m with
  | false =>
    rw [hb] at hx hcode
    refine (if_pos hx).trans ?_
    have hcode : c >>> (32 - m) <<< 1 = c >>> (32 - (m + 1)) := by simpa using hcode
    simp only [pulseDec, silenceDec, Dec.started, Dec.mk.injEq, true_and, and_true, hbits, hcode]
    omega
  | true =>
    rw [hb] at hx hcode
    have hb0 : ¬ inWindow s.cfg .b0 (deltaAt s (2 * m + 3)) = true := fun hb0 => (hw _).2 ⟨hb0, hx⟩
    refine (if_neg hb0).trans ((if_pos hx).trans ?_)
    have hcode : c >>> (32 - m) <<< 1 ||| 1#32 = c >>> (32 - (m + 1)) := hcode
    simp only [pulseDec, silenceDec, Dec.started, Dec.mk.injEq, true_and, and_true, hbits, hcode]
    omega

theorem decNext_commandDec (hw : windowsDisjoint s.cfg) (hj : j < 66)
    (hx : inWindow s.cfg (frameWindow c j) (deltaAt s j) = true)
    (hinv : DecInv s.cfg.edgeCap (commandDec c j)) : decNext s (commandDec c j) = commandDec c (j + 1) := by
  obtain rfl | rfl | ⟨m, rfl⟩ | ⟨m, rfl⟩ := delta_cases j
  · rw [decNext_of_busy hinv (busy_commandDec hj.le)]
    exact if_pos hx
  · rw [decNext_of_busy hinv (busy_commandDec hj.le)]
    refine (if_pos hx).trans ?_
    have hcode : c >>> 32 = 0#32 := by ext i hi; simp
    simp [commandDec, silenceDec, Dec.started, Dec.reset, hcode]
  · rw [frameWindow_silence] at hx
    rw [commandDec_silence] at hinv ⊢
    exact (decNext_silenceDec (by omega) hx hinv).trans (commandDec_pulse c m).symm
  · rw [frameWindow_pulse] at hx
    rw [commandDec_pulse] at hinv ⊢
    exact (decNext_pulseDec hw (by omega) hx hinv).trans (commandDec_silence c (m + 1)).symm

/-- No bit is left before the last delta, which is not classified (R159). -/
theorem decNext_commandDec_last (hinv : DecInv s.cfg.edgeCap (commandDec c 66)) :
    decNext s (commandDec c 66) = { Dec.reset with p := 66, code := c, done := true } := by
  have hlast : commandDec c 66 = { Dec.started 2 with p := 66, state := .ss, code := c } := by
    rw [commandDec_silence c 32]
    simp [silenceDec, Dec.started, Dec.reset]
  rw [hlast] at hinv ⊢
  rw [decNext_of_busy hinv rfl]
  rfl

theorem inWindow_of_commandFrame (h : CommandFrame s c) (hj : j < 66) :
    inWindow s.cfg (frameWindow c j) (deltaAt s j) = true := by
  obtain rfl | rfl | ⟨m, rfl⟩ | ⟨m, rfl⟩ := delta_cases j
  · exact h.prologueSilence
  · exact h.prologuePulse
  · rw [frameWindow_silence, Nat.add_comm]
    exact h.silence m (by omega)
  · rw [frameWindow_pulse, Nat.add_comm]
    exact h.pulse m (by omega)

end Command

/-- Settles O24: 66 steps, one for each classified delta, and the step that completes the parse. -/
theorem commandFrameDecodesToItsCode : Obligations.CommandFrameDecodesToItsCode := by
  intro s c hinv hb hcap hw hframe
  obtain ⟨u, hu, hd⟩ := parseEndsAfter_of_steps (f := commandDec c) (k := 66) hinv hb hcap rfl
    (fun j hj => busy_commandDec hj) (fun j hj => decNext_commandDec hw hj (inWindow_of_commandFrame hframe hj))
    decNext_commandDec_last rfl
  have hidle : decBusy u = false := by
    rw [decBusy, hd]
    rfl
  have hresult : codeOut u = c ∧ repOut u = false ∧ doneOut u = true := by
    rw [codeOut, repOut, doneOut, hd]
    exact ⟨rfl, rfl, rfl⟩
  obtain ⟨hcode, hrep, hdone⟩ := hresult
  rw [← hcode, ← hrep, ← hdone]
  exact ⟨u, hu, exec_decReadResult hidle, pseudoDecode_of_parseEndsAfter hu (by decide)⟩

end Sys2Proof.Machine
end

section
/-! PROOFS. A command frame with one delta in no window of its state (42_nec_decoder.md R180): the parse is lost, and the rest of the frame has no
prologue to begin another. -/

namespace Sys2Proof.Machine

/-! ## A lost parse -/

/-- The decoder waits for a prologue in an aligned view of 68 edges, or is not busy, and has no result. -/
structure Lost (d : Dec) : Prop where
  code : d.code = 0#32
  rep : d.rep = false
  done : d.done = false
  waiting : d.busy = true → d.state = .idle ∧ 2 ≤ d.p ∧ d.p + d.rem = 68

section Lost

variable {s : State} {d : Dec} {c : W32} {j m : Nat}

/-- Where no silence of a symbol is a prologue's, only the last delta, which leaves one edge, can move a lost parse on. -/
theorem lost_decNext (hps : ∀ m, m < 32 → inWindow s.cfg .ps (deltaAt s (2 * m + 2)) = false)
    (hinv : DecInv s.cfg.edgeCap d) (h : Lost d) : Lost (decNext s d) := by
  cases hb : d.busy with
  | false => rwa [decNext_of_not_busy hinv hb]
  | true =>
    have hrem : 2 ≤ d.rem := of_decide_eq_true hb
    obtain ⟨hidle, hp, hsum⟩ := h.waiting hb
    have heven : d.p % 2 = 0 := hinv.evenAtFalling (.inl hidle)
    rw [decNext_of_busy hinv hb, hidle]
    dsimp only
    split
    · next hx =>
      have hlast : d.p = 66 := by
        by_contra hne
        have hx' := hps (d.p / 2 - 1) (by omega)
        rw [show 2 * (d.p / 2 - 1) + 2 = d.p by omega, hx] at hx'
        cases hx'
      refine ⟨h.code, h.rep, h.done, fun hbusy => ?_⟩
      have : 2 ≤ d.rem - 1 := of_decide_eq_true hbusy
      omega
    · exact ⟨h.code, h.rep, h.done, fun hbusy => ⟨rfl, by dsimp only; omega, by dsimp only; omega⟩⟩

theorem lost_iterate (hps : ∀ m, m < 32 → inWindow s.cfg .ps (deltaAt s (2 * m + 2)) = false)
    (hinv : DecInv s.cfg.edgeCap d) (h : Lost d) (k : Nat) : Lost ((decNext s)^[k] d) := by
  induction k generalizing d with
  | zero => exact h
  | succ k ih => exact ih (decInv_decNext hinv) (lost_decNext hps hinv h)

/-- What noise leaves of a command frame. -/
theorem lost_of_noise {p rem : Nat} (hp : 2 ≤ p) (hsum : p + rem = 68) : Lost { Dec.started rem with p := p } :=
  ⟨rfl, rfl, rfl, fun _ => ⟨rfl, hp, hsum⟩⟩

/-! ## The delta that loses it -/

/-- The windows tested at delta `j` of a command frame (42_nec_decoder.md R150). -/
def testedWindows (j : Nat) : List Window :=
  if j = 0 then [.ps] else if j = 1 then [.pp, .rp] else if j % 2 = 0 then [.sil] else [.b0, .b1]

/-- A delta in none of the windows tested is noise to each state. -/
theorem lost_of_missed (hj : j < 66) (hx : ∀ x ∈ testedWindows j, inWindow s.cfg x (deltaAt s j) = false)
    (hinv : DecInv s.cfg.edgeCap (commandDec c j)) : Lost (decNext s (commandDec c j)) := by
  have hbusy : (commandDec c j).busy = true := busy_commandDec hj.le
  have hmiss {x : Window} (hmem : x ∈ testedWindows j) : ¬ inWindow s.cfg x (deltaAt s j) = true := by simp [hx x hmem]
  obtain rfl | rfl | ⟨m, rfl⟩ | ⟨m, rfl⟩ := delta_cases j
  · have hps := hmiss (x := .ps) (by decide)
    have hnext : decNext s (commandDec c 0) = { Dec.started 66 with p := 2 } := by
      rw [decNext_of_busy hinv hbusy]
      exact if_neg hps
    exact hnext ▸ lost_of_noise le_rfl rfl
  · have hpp := hmiss (x := .pp) (by decide)
    have hrp := hmiss (x := .rp) (by decide)
    have hnext : decNext s (commandDec c 1) = { Dec.started 66 with p := 2 } := by
      rw [decNext_of_busy hinv hbusy]
      exact (if_neg hpp).trans (if_neg hrp)
    exact hnext ▸ lost_of_noise le_rfl rfl
  · have hsil := hmiss (x := .sil) (by simp [testedWindows])
    have hbits : ¬ (BitVec.ofNat 6 (32 - m) == 0#6) = true := by simpa using (bits_left (m := m) (by omega)).1
    have hnext : decNext s (commandDec c (2 * m + 2)) = { Dec.started (66 - 2 * m) with p := 2 * m + 2 } := by
      rw [commandDec_silence] at hinv hbusy ⊢
      rw [decNext_of_busy hinv hbusy]
      exact (if_neg hbits).trans (if_neg hsil)
    exact hnext ▸ lost_of_noise (by omega) (by omega)
  · have hb0 := hmiss (x := .b0) (by simp [testedWindows, Nat.add_mod])
    have hb1 := hmiss (x := .b1) (by simp [testedWindows, Nat.add_mod])
    have hnext : decNext s (commandDec c (2 * m + 3)) = { Dec.started (65 - 2 * m - 1) with p := 2 * m + 4 } := by
      rw [commandDec_pulse] at hinv hbusy ⊢
      rw [decNext_of_busy hinv hbusy]
      exact (if_neg hb0).trans (if_neg hb1)
    exact hnext ▸ lost_of_noise (by omega) (by omega)

end Lost

/-! ## One tick outside a window (95_test_vectors.md section 1, W4) -/

section JustOutside

variable {x y : Window} {d c : W32} {i : Nat}

/-- The delta is one tick outside the default window `x`. -/
def JustOutside (x : Window) (d : W32) : Prop :=
  d.toNat + 1 = windowLo Config.default x ∨ d.toNat = windowHi Config.default x + 1

theorem not_inWindow_of_justOutside (h : JustOutside x d) : inWindow Config.default x d = false := by
  rw [← Bool.not_eq_true, inWindow_eq_true]
  obtain h | h := h <;> omega

/-- A window more than one tick away holds no delta just outside. -/
theorem not_inWindow_of_apart (h : JustOutside x d)
    (hy : windowHi Config.default x + 1 < windowLo Config.default y ∨ windowHi Config.default y + 1 < windowLo Config.default x) :
    inWindow Config.default y d = false := by
  have hx : windowLo Config.default x ≤ windowHi Config.default x := by cases x <;> decide
  rw [← Bool.not_eq_true, inWindow_eq_true]
  obtain h | h := h <;> omega

/-- Any other window tested with the one a delta is just outside of is more than one tick away. -/
theorem missed_of_justOutside (h : JustOutside (frameWindow c i) d) (hy : y ∈ testedWindows i) :
    inWindow Config.default y d = false := by
  have hsame (hx : y = frameWindow c i) : inWindow Config.default y d = false := hx ▸ not_inWindow_of_justOutside h
  obtain rfl | rfl | ⟨m, rfl⟩ | ⟨m, rfl⟩ := delta_cases i
  · obtain rfl : y = .ps := List.mem_singleton.mp hy
    exact hsame rfl
  · obtain rfl | rfl : y = .pp ∨ y = .rp := by simpa [testedWindows] using hy
    · exact hsame rfl
    · exact not_inWindow_of_apart (x := .pp) h (by decide)
  · obtain rfl : y = .sil := by simpa [testedWindows] using hy
    exact hsame (frameWindow_silence c m).symm
  · rw [frameWindow_pulse] at h hsame
    obtain rfl | rfl : y = .b0 ∨ y = .b1 := by simpa [testedWindows, Nat.add_mod] using hy
    all_goals cases hb : codeBit c m <;> rw [hb] at h hsame
    · exact hsame rfl
    · exact not_inWindow_of_apart h (by decide)
    · exact not_inWindow_of_apart h (by decide)
    · exact hsame rfl

theorem inWindow_mid (x : Window) : inWindow Config.default x (windowMid Config.default x) = true := by
  cases x <;> decide

end JustOutside

/-! ## The default windows, whatever the OPEN parameters (log entry 1) -/

section DefaultWindows

variable {cfg : Config} {cap : Nat} {off : W16} (h : cfg = { Config.default with edgeCap := cap, epiOffT := off })
include h

theorem windowLo_of_default (x : Window) : windowLo cfg x = windowLo Config.default x := by
  subst h; cases x <;> rfl

theorem windowHi_of_default (x : Window) : windowHi cfg x = windowHi Config.default x := by
  subst h; cases x <;> rfl

theorem inWindow_of_default (x : Window) (d : W32) : inWindow cfg x d = inWindow Config.default x d := by
  rw [inWindow, inWindow, windowLo_of_default h, windowHi_of_default h]

theorem windowMid_of_default (x : Window) : windowMid cfg x = windowMid Config.default x := by
  rw [windowMid, windowMid, windowLo_of_default h, windowHi_of_default h]

theorem windowsDisjoint_of_default : windowsDisjoint cfg := fun d => by
  simpa only [inWindow_of_default h] using windowsDisjoint_default d

end DefaultWindows

/-- Settles O27: the deltas before the moved one are classified as in a command frame, the moved one loses the parse, and after it no delta is a
prologue's. -/
theorem perturbedFrameYieldsNoCode : Obligations.PerturbedFrameYieldsNoCode := by
  intro s c i cap off hcfg hinv hb hcap hi hmid hout
  have hcap : 68 ≤ s.cfg.edgeCap := by rw [hcfg]; exact hcap
  replace hout : JustOutside (frameWindow c i) (deltaAt s i) := by
    rwa [windowLo_of_default hcfg, windowHi_of_default hcfg] at hout
  have hhit (j : Nat) (hj : j < i) : inWindow s.cfg (frameWindow c j) (deltaAt s j) = true := by
    rw [inWindow_of_default hcfg, hmid j (by omega) (by omega), windowMid_of_default hcfg]
    exact inWindow_mid _
  have hmiss (x : Window) (hx : x ∈ testedWindows i) : inWindow s.cfg x (deltaAt s i) = false := by
    rw [inWindow_of_default hcfg]
    exact missed_of_justOutside hout hx
  have hps (m : Nat) (hm : m < 32) : inWindow s.cfg .ps (deltaAt s (2 * m + 2)) = false := by
    rw [inWindow_of_default hcfg]
    by_cases hmi : 2 * m + 2 = i
    · rw [← hmi, frameWindow_silence] at hout
      exact not_inWindow_of_apart hout (by decide)
    · rw [hmid _ (by omega) hmi, frameWindow_silence, windowMid_of_default hcfg]
      decide
  obtain ⟨hiter, hinvi⟩ := iterate_eq_of_steps (f := commandDec c) (k := i) (decInv_started hcap)
    fun j hj => decNext_commandDec (windowsDisjoint_of_default hcfg) (by omega) (hhit j hj)
  have hlost : Lost ((decNext s)^[2 * 68] (Dec.started 68)) := by
    have hsteps : 2 * 68 = 135 - i + 1 + i := by omega
    have hstart : (decNext s)^[i] (Dec.started 68) = commandDec c i := hiter
    rw [hsteps, Function.iterate_add_apply, hstart]
    exact lost_iterate hps (decInv_decNext hinvi) (lost_of_missed hi hmiss hinvi) (135 - i)
  obtain ⟨u, hpu, hu⟩ := pseudoDecode_eq hinv hb hcap
  rw [← hpu.dec] at hlost
  refine ⟨_, hu, ?_⟩
  simp [codeOut, repOut, doneOut, hlost.rep, hlost.done]

end Sys2Proof.Machine
end

section
/-! PROOFS. The encoder's rows (43_nec_encoder.md R193 to R204) and `ENC_SET_CODE` (R191). -/

namespace Sys2Proof.Machine

/-! ## The rows -/

section EncoderRows

variable {s : State}

/-- A row's step, with its condition as a proposition and the registers it writes as a value. -/
theorem encRowStep_eq {cond : Bool} {w : Enc → Enc} {p : Prop} [Decidable p] {e : Enc} (hn : encCheck s = none)
    (hp : cond = true ↔ p) (he : w s.enc = e) : encRowStep cond w s = .next (if p then { s with enc := e } else s) := by
  rw [encRowStep_ok hn, he]
  exact congrArg _ (if_congr hp rfl rfl)

/-- A row whose condition never holds. -/
theorem encRowStep_false (hn : encCheck s = none) : encRowStep false id s = .next s := encRowStep_ok hn

theorem encBusy_eq_true : encBusy s = true ↔ s.enc.phase ≠ .idle := bne_iff_ne

theorem encBusy_eq_false : encBusy s = false ↔ s.enc.phase = .idle := bne_eq_false_iff_eq

theorem lastTick_eq_true {ph : EncPhase} :
    lastTick s ph = true ↔ s.enc.phase = ph ∧ s.inp.tick = true ∧ s.enc.cnt = 1#16 := by
  simp [lastTick, and_assoc]

end EncoderRows

/-- Settles O37: `ENC_SEND` and `ENC_COUNT` are each an `encRowStep` under the rule's condition; the others have no condition that holds. -/
theorem encoderEngineAndCountRows : Obligations.EncoderEngineAndCountRows := by
  intro s hn
  refine ⟨?send, encRowStep_false hn, encRowStep_false hn, encRowStep_false hn, ?count⟩
  case send =>
    show execEncSend s = _
    exact encRowStep_eq hn (by simp [encBusy, and_assoc]) rfl
  case count =>
    show execEncCount s = _
    exact encRowStep_eq hn (by simp [encBusy, and_assoc]) rfl

/-- Settles O38: each row is an `encRowStep` at the last tick of its phase. -/
theorem encoderPrologueAndBitOnRows : Obligations.EncoderPrologueAndBitOnRows := by
  intro s hn
  refine ⟨?proOnEnd, ?proOffEnd, ?bitOnEnd⟩
  case proOnEnd =>
    show execEncProOnEnd s = _
    exact encRowStep_eq hn lastTick_eq_true rfl
  case proOffEnd =>
    show execEncProOffEnd s = _
    exact encRowStep_eq hn lastTick_eq_true rfl
  case bitOnEnd =>
    show execEncBitOnEnd s = _
    exact encRowStep_eq hn lastTick_eq_true rfl

/-- Settles O39: each row is an `encRowStep` at the last tick of its phase; the next bit is the one below the bit sent. -/
theorem encoderBitOffAndEpilogueRows : Obligations.EncoderBitOffAndEpilogueRows := by
  intro s hn
  refine ⟨?bitOffNext, ?bitOffLast, ?epiOnEnd, ?epiOffEnd⟩
  case bitOffNext =>
    have hk : s.enc.k + 1#5 = BitVec.ofNat 5 (s.enc.k.toNat + 1) := rfl
    have hbit : 31 - (s.enc.k.toNat + 1) = 30 - s.enc.k.toNat := by omega
    show execEncBitOffNext s = _
    exact encRowStep_eq hn (by simp [lastTick_eq_true, and_assoc]) (by simp only [hk, onT, codeBit, hbit])
  case bitOffLast =>
    show execEncBitOffLast s = _
    exact encRowStep_eq hn (by simp [lastTick_eq_true, and_assoc]) rfl
  case epiOnEnd =>
    show execEncEpiOnEnd s = _
    exact encRowStep_eq hn lastTick_eq_true rfl
  case epiOffEnd =>
    show execEncEpiOffEnd s = _
    exact encRowStep_eq hn lastTick_eq_true rfl

/-- Settles O36: a busy encoder refuses the strobe; an idle one takes its engine's step on the old pending code before it loads the new one. -/
theorem setCodeLoadsThePendingCode : Obligations.SetCodeLoadsThePendingCode := by
  intro s v
  refine ⟨fun hbusy => ?_, fun hidle hs => ⟨⟨_, exec_encSetCode hs hidle v, rfl, fun hb => ?_, rfl⟩, fun xs hp => ?_⟩⟩
  · exact hostEdge_of_refusal rfl (by simp [edgeRefusal, Inputs.idle, encBusy_eq_true.mpr hbusy])
  · exact decAdvance_of_not_busy (decCheck_eq_none.mp hs.1).1 hb
  · have hb : encBusy s = false := encBusy_eq_false.mpr hidle
    have hx : edgeRefusal { Inputs.idle with setCode := true, codeIn := v, encPoll := true } s = none := by
      simp [edgeRefusal, Inputs.idle, hb]
    refine ⟨_, clockEdge_ok hx (decCheck_eq_none.mp hs.1).2 hp, ?_⟩
    refine (blockNext_enc rfl).trans ?_
    rw [if_pos rfl, encAdvance_of_poll (encStuck_of_unitsOk hs) rfl rfl, if_neg (by simp [hb])]

end Sys2Proof.Machine
end

section
/-! PROOFS. The encoder at a clock edge (43_nec_encoder.md R192, R206, R209): which strobe it heeds, what it latches, and what an edge and an
instruction keep. -/

namespace Sys2Proof.Machine

section EncoderEdge

variable {c : Config} {e : Enc} {x : Inputs} {xs : List Inputs} {s t : State}

/-! ## The encoder's step by what it heeds -/

/-- A busy encoder heeds the tick alone (43_nec_encoder.md R192). -/
theorem encAdvance_of_busy (hk : encStuck s.enc = false) (hb : encBusy s = true) :
    encAdvance { s with inp := x } = if x.tick then encTickStep s.cfg s.enc else s.enc :=
  (if_neg (by simp [hk])).trans (if_pos hb)

/-- An idle encoder heeds the poll alone (43_nec_encoder.md R192). -/
theorem encAdvance_of_idle (hk : encStuck s.enc = false) (hb : encBusy s = false) :
    encAdvance { s with inp := x } = if x.encPoll then encEngineStep s else s.enc :=
  (if_neg (by simp [hk])).trans (if_neg (show ¬ encBusy s = true by simp [hb]))

theorem enc_of_clockEdge (hr : x.rst = false) (hv : x.setCode = false) (h : clockEdge x xs s = .next t) :
    t.enc = encAdvance { s with inp := x } := by
  obtain ⟨-, -, rfl⟩ := clockEdge_next.mp h
  exact blockNext_enc_of_no_setCode hr hv

/-- A burst tick keeps both codes, but that the end of the frame clears the pending one. -/
theorem encTickStep_codes (c : Config) (h : e.phase ≠ .idle) :
    (encTickStep c e).shreg = e.shreg ∧
      ((encTickStep c e).phase ≠ .idle ∧ (encTickStep c e).pending = e.pending ∨
        (encTickStep c e).phase = .idle ∧ (encTickStep c e).pending = 0#32) := by
  unfold encTickStep
  split
  · exact ⟨rfl, .inl ⟨h, rfl⟩⟩
  · split
    case h_1 | h_2 | h_3 | h_5 => exact ⟨rfl, .inl ⟨nofun, rfl⟩⟩
    case h_4 => split <;> exact ⟨rfl, .inl ⟨nofun, rfl⟩⟩
    case h_6 => exact ⟨rfl, .inr ⟨rfl, rfl⟩⟩
    case h_7 | h_8 => exact ⟨rfl, .inl ⟨h, rfl⟩⟩

/-- A step that makes the encoder busy was polled, found a code pending, and latched it. -/
theorem sent_of_busy_after (hb : encBusy s = false) (h : (encAdvance { s with inp := x }).phase ≠ .idle) :
    x.encPoll = true ∧ s.enc.pending ≠ 0#32 ∧ (encAdvance { s with inp := x }).shreg = s.enc.pending := by
  have hi : s.enc.phase = .idle := encBusy_eq_false.mp hb
  cases hk : encStuck s.enc
  case true =>
    rw [encAdvance_of_stuck (s := { s with inp := x }) hk] at h
    exact absurd hi h
  case false =>
    rw [encAdvance_of_idle hk hb] at h ⊢
    split at h
    · next hpoll =>
      rw [encEngineStep_eq] at h ⊢
      split at h
      · next hp =>
        rw [if_pos hpoll, if_pos hp]
        exact ⟨hpoll, by simpa using hp, rfl⟩
      · exact absurd hi h
    · exact absurd hi h

/-- A load that is not refused is one of an idle encoder (43_nec_encoder.md R191). -/
theorem idle_of_setCode (hx : edgeRefusal x s = none) (hv : x.setCode = true) : encBusy s = false := by
  unfold edgeRefusal at hx
  split_ifs at hx with _ _ h
  simpa [hv] using h

/-- A load changes the pending code alone. -/
theorem blockNext_enc_sent (hr : x.rst = false) :
    (blockNext x s).enc.phase = (encAdvance { s with inp := x }).phase ∧
      (blockNext x s).enc.shreg = (encAdvance { s with inp := x }).shreg := by
  rw [blockNext_enc hr]
  split <;> exact ⟨rfl, rfl⟩

/-! ## What an edge keeps (43_nec_encoder.md R206) -/

theorem encInv_blockNext (hc : s.cfg.wf = true) (h : EncInv s.cfg s.enc) : EncInv s.cfg (blockNext x s).enc := by
  cases hr : x.rst
  case true =>
    rw [blockNext, if_pos hr]
    exact encInv_reset _
  case false =>
    have hadv : EncInv s.cfg (encAdvance { s with inp := x }) := encInv_advance (s := { s with inp := x }) hc h
    rw [blockNext_enc hr]
    split
    · exact encInv_load hadv _
    · exact hadv

theorem sendsPending_of_idle (h : e.phase = .idle) : sendsPending e := absurd h

/-- A step keeps the clause: a tick keeps both codes or ends the frame, and `TRANSMIT` latches the pending code. -/
theorem sendsPending_advance (hk : encStuck s.enc = false) (h : sendsPending s.enc) :
    sendsPending (encAdvance { s with inp := x }) := by
  cases hb : encBusy s
  case true =>
    rw [encAdvance_of_busy hk hb]
    split
    · intro hbusy
      have hsent : s.enc.phase ≠ .idle := encBusy_eq_true.mp hb
      obtain ⟨hsh, ⟨-, hp⟩ | ⟨hi, -⟩⟩ := encTickStep_codes s.cfg hsent
      · rw [hsh, hp, h hsent]
      · exact absurd hi hbusy
    · exact h
  case false =>
    rw [encAdvance_of_idle hk hb, encEngineStep_eq]
    split
    · split
      · exact fun _ => rfl
      · exact h
    · exact h

/-- The edge of log entry 16: it sends the pending code and loads another one. -/
def replacesCodeSent (x : Inputs) (s : State) : Prop :=
  x.rst = false ∧ x.encPoll = true ∧ x.setCode = true ∧ s.enc.pending ≠ 0#32 ∧ x.codeIn ≠ s.enc.pending

/-- A load keeps the clause where the edge does not send, or sends the code loaded (log entry 16). -/
theorem sendsPending_blockNext (hk : encStuck s.enc = false) (h : sendsPending s.enc) (hx : edgeRuns x s)
    (hne : ¬ replacesCodeSent x s) : sendsPending (blockNext x s).enc := by
  cases hr : x.rst
  case true =>
    rw [blockNext, if_pos hr]
    exact sendsPending_of_idle rfl
  case false =>
    rw [blockNext_enc hr]
    split
    · next hv =>
      have hx : edgeRefusal x s = none := (hx.resolve_left (by simp [hr])).1
      intro hbusy
      obtain ⟨hpoll, hp, hsh⟩ := sent_of_busy_after (idle_of_setCode hx hv) hbusy
      have hsame : x.codeIn = s.enc.pending := not_not.mp fun hn => hne ⟨hr, hpoll, hv, hp, hn⟩
      exact hsh.trans hsame.symm
    · exact sendsPending_advance hk h

theorem encInv_clockEdge (hc : s.cfg.wf = true) (h : EncInv s.cfg s.enc) (he : clockEdge x xs s = .next t) :
    EncInv t.cfg t.enc := by
  obtain ⟨-, -, rfl⟩ := clockEdge_next.mp he
  rw [(blockNext_frame x s).1]
  exact encInv_blockNext hc h

theorem sendsPending_clockEdge (h : EncInv s.cfg s.enc) (hp : sendsPending s.enc) (he : clockEdge x xs s = .next t)
    (hne : ¬ replacesCodeSent x s) : sendsPending t.enc := by
  obtain ⟨hx, -, rfl⟩ := clockEdge_next.mp he
  exact sendsPending_blockNext (encStuck_of_inv h) hp hx hne

end EncoderEdge

/-- Settles O41: at an edge without a load the encoder is left as its step leaves it, which reads the tick or the poll alone. -/
theorem encoderIgnoresPollWhileBusyAndTickWhileIdle : Obligations.EncoderIgnoresPollWhileBusyAndTickWhileIdle := by
  intro x y xs ys s t u hrx hry hvx hvy hn hx hy
  have hk : encStuck s.enc = false := encCheck_eq_none.mp hn
  rw [enc_of_clockEdge hrx hvx hx, enc_of_clockEdge hry hvy hy]
  refine ⟨fun hb => ?_, fun hb => ?_⟩
  · rw [encAdvance_of_busy hk hb, encAdvance_of_busy hk hb]
    exact ⟨fun htick => by rw [htick], fun htick => by simp [htick], fun htick => if_pos htick⟩
  · rw [encAdvance_of_idle hk hb, encAdvance_of_idle hk hb]
    exact ⟨fun hpoll => by rw [hpoll], fun hpoll => by simp [hpoll], fun hpoll => if_pos hpoll⟩

/-- Settles O42: an edge is read through `encInv_clockEdge` and `sendsPending_clockEdge`; no instruction asserts both strobes of the edge left
out, and a row of the encoder is its step. -/
theorem encoderInvariants : Obligations.EncoderInvariants := by
  refine ⟨⟨encInv_reset _, sendsPending_of_idle rfl⟩, fun i s t hc h hp he => ?_, fun x xs s t hc h hp he =>
    ⟨encInv_clockEdge hc h he, sendsPending_clockEdge h hp he⟩⟩
  obtain ⟨x, hx, he⟩ | ⟨r, -, hr⟩ | ⟨r, -, hr⟩ | ⟨r, -, hr⟩ | ⟨r, -, hr⟩ | ⟨z, ws, s0, -, -, rfl⟩ | ⟨-, r, rfl⟩ :=
    exec_cases he
  · have hi : StrobesOf i x := strobesOf_portsOf hx
    refine ⟨encInv_clockEdge hc h he, sendsPending_clockEdge h hp he fun ⟨_, hpoll, hv, _⟩ => ?_⟩
    obtain ⟨v, rfl⟩ := hi.setCode hv
    cases hi.encPoll hpoll
  · obtain ⟨d, rfl⟩ := runDecRow_frame hr
    exact ⟨h, hp⟩
  · obtain ⟨d, rfl⟩ := runDbnRow_frame hr
    exact ⟨h, hp⟩
  · obtain ⟨-, rfl | rfl⟩ := runEncRow_next hr
    · exact ⟨h, hp⟩
    · exact ⟨encInv_advance hc h, sendsPending_advance (x := s.inp) (encStuck_of_inv h) hp⟩
  · obtain ⟨st, a, rfl⟩ := runEngRow_frame hr
    exact ⟨h, hp⟩
  · exact ⟨h, hp⟩
  · exact ⟨h, hp⟩

/-- Settles O43: a reset leaves the encoder idle, and a load changes neither its phase nor what it latched. -/
theorem codeZeroIsNeverSent : Obligations.CodeZeroIsNeverSent := by
  intro x xs s t he hs ht
  obtain ⟨-, -, rfl⟩ := clockEdge_next.mp he
  have hbusy : (blockNext x s).enc.phase ≠ .idle := encBusy_eq_true.mp ht
  show s.enc.pending ≠ 0#32 ∧ (blockNext x s).enc.shreg = s.enc.pending
  cases hr : x.rst
  case true =>
    rw [blockNext, if_pos hr] at hbusy
    exact absurd rfl hbusy
  case false =>
    obtain ⟨hphase, hlatch⟩ := blockNext_enc_sent (s := s) hr
    obtain ⟨-, hp, hsh⟩ := sent_of_busy_after hs (hphase ▸ hbusy)
    exact ⟨hp, hlatch.trans hsh⟩

end Sys2Proof.Machine
end

section
/-! PROOFS. A frame (43_nec_encoder.md R207): the carrier's level at each tick that is still to come, one element a tick. -/

namespace Sys2Proof.Machine

/-! ## Segments as levels, one a tick -/

/-- The level at each tick of a list of segments. -/
def levels (l : List (Bool × Nat)) : List Bool := l.flatMap fun x => List.replicate x.2 x.1

section Levels

variable {c : Config} {code : W32}

@[simp] theorem levels_nil : levels [] = [] := rfl

@[simp] theorem levels_cons (b : Bool) (n : Nat) (l : List (Bool × Nat)) :
    levels ((b, n) :: l) = List.replicate n b ++ levels l := rfl

theorem levels_append (l m : List (Bool × Nat)) : levels (l ++ m) = levels l ++ levels m := List.flatMap_append

theorem levelAt_eq (l : List (Bool × Nat)) (k : Nat) : levelAt l k = (levels l).getD k false := by
  induction l generalizing k with
  | nil => rfl
  | cons x l ih =>
    obtain ⟨b, n⟩ := x
    rw [levelAt, levels_cons]
    split
    · next h => rw [List.getD_append _ _ _ _ (by simpa using h), List.getD_replicate _ h]
    · next h => rw [List.getD_append_right _ _ _ _ (by simpa using h), List.length_replicate, ih]

theorem length_levels_bitSegments (n k : Nat) : (levels (bitSegments c code n k)).length = bitTicks c code n k := by
  induction n generalizing k with
  | zero => rfl
  | succ n ih => simp [bitSegments, bitTicks, ih, Nat.add_assoc]

theorem length_levels_frameSegments : (levels (frameSegments c code)).length = frameTicks c code := by
  simp [frameSegments, frameTicks, levels_append, length_levels_bitSegments, Nat.add_assoc]

/-- The segments of the bits from `k` on begin with those of bit `k`. -/
theorem bitSegments_of_bit (k : BitVec 5) :
    bitSegments c code (32 - k.toNat) k.toNat =
      (true, (onT c (codeBit code k.toNat)).toNat) :: (false, (offT c (codeBit code k.toNat)).toNat) ::
        bitSegments c code (31 - k.toNat) (k.toNat + 1) := by
  have hleft : 32 - k.toNat = 31 - k.toNat + 1 := by omega
  rw [hleft]
  rfl

end Levels

/-! ## The segments still to come -/

/-- The segments of the epilogue. -/
def epilogueSegments (c : Config) : List (Bool × Nat) := [(true, c.epiOnT.toNat), (false, c.epiOffT.toNat)]

/-- The segments after the one the encoder is in. -/
def laterSegments (c : Config) (e : Enc) : List (Bool × Nat) :=
  match e.phase with
  | .proOn => (false, c.proOffT.toNat) :: (bitSegments c e.shreg (32 - e.k.toNat) e.k.toNat ++ epilogueSegments c)
  | .proOff => bitSegments c e.shreg (32 - e.k.toNat) e.k.toNat ++ epilogueSegments c
  | .bitOn =>
    (false, (offT c (codeBit e.shreg e.k.toNat)).toNat) ::
      (bitSegments c e.shreg (31 - e.k.toNat) (e.k.toNat + 1) ++ epilogueSegments c)
  | .bitOff => bitSegments c e.shreg (31 - e.k.toNat) (e.k.toNat + 1) ++ epilogueSegments c
  | .epiOn => [(false, c.epiOffT.toNat)]
  | .epiOff | .idle | .reserved => []

/-- The segments the encoder has still to send, what is left of the one it is in among them. -/
def segmentsLeft (c : Config) (e : Enc) : List (Bool × Nat) :=
  if e.phase = .idle then [] else (phaseOn e.phase, e.cnt.toNat) :: laterSegments c e

section Frame

variable {c : Config} {e : Enc} {s t : State}

theorem segmentsLeft_of_idle (h : e.phase = .idle) : segmentsLeft c e = [] := if_pos h

theorem segmentsLeft_of_busy (h : e.phase ≠ .idle) :
    segmentsLeft c e = (phaseOn e.phase, e.cnt.toNat) :: laterSegments c e := if_neg h

theorem segmentsLeft_transmit (c : Config) (e : Enc) : segmentsLeft c (e.transmit c) = frameSegments c e.pending := rfl

theorem encTickStep_of_count (h : e.cnt ≠ 1#16) : encTickStep c e = { e with cnt := e.cnt - 1#16 } := if_pos (by simpa using h)

/-- At the last tick of a segment the encoder goes to the next one. -/
theorem segmentsLeft_lastTick (hr : e.phase ≠ .reserved) (hi : e.phase ≠ .idle) (h : e.cnt = 1#16) :
    segmentsLeft c (encTickStep c e) = laterSegments c e := by
  unfold encTickStep laterSegments
  rw [if_neg (by simp [h])]
  cases hp : e.phase
  case idle => exact absurd hp hi
  case reserved => exact absurd hp hr
  case proOn | bitOn | epiOn | epiOff => rfl
  case proOff =>
    dsimp only
    rw [bitSegments_of_bit e.k]
    rfl
  case bitOff =>
    dsimp only
    split
    · next hk =>
      rw [eq_of_beq hk]
      rfl
    · next hk =>
      have hne : e.k ≠ 31#5 := by simpa using hk
      have hnext : (e.k + 1#5).toNat = e.k.toNat + 1 := by bv_omega
      have hleft : 31 - e.k.toNat = 32 - (e.k + 1#5).toNat := by bv_omega
      rw [hleft, ← hnext, bitSegments_of_bit]
      rfl

/-- A tick takes the first level of those still to come, which is the one the carrier has. -/
theorem levels_tickStep (h : EncInv c e) (hb : e.phase ≠ .idle) :
    levels (segmentsLeft c e) = e.irOn :: levels (segmentsLeft c (encTickStep c e)) := by
  have hcnt := (h.counting hb).1
  rw [h.envelope, segmentsLeft_of_busy hb, levels_cons]
  by_cases h1 : e.cnt = 1#16
  · rw [segmentsLeft_lastTick h.phaseLegal hb h1, h1]
    rfl
  · have hless : e.cnt.toNat = (e.cnt - 1#16).toNat + 1 := by bv_omega
    have hleft : segmentsLeft c { e with cnt := e.cnt - 1#16 } = (phaseOn e.phase, (e.cnt - 1#16).toNat) :: laterSegments c e :=
      segmentsLeft_of_busy hb
    rw [encTickStep_of_count h1, hleft, levels_cons, hless, List.replicate_succ, List.cons_append]

/-! ## The ticks of a frame -/

theorem encTick_of_busy (h : s.Inv) (hb : encBusy s = true) :
    ∃ t, exec .encTick s = .next t ∧ t.Inv ∧ t.cfg = s.cfg ∧ t.enc = encTickStep s.cfg s.enc :=
  ⟨_, exec_encTick h.unitsOk, inv_exec rfl h (exec_encTick h.unitsOk), rfl, if_pos hb⟩

/-- An idle encoder has no code pending: what the end of a frame leaves. -/
def clearedWhenIdle (e : Enc) : Prop := e.phase = .idle → e.pending = 0#32

theorem clearedWhenIdle_tickStep (hb : e.phase ≠ .idle) : clearedWhenIdle (encTickStep c e) := by
  intro hi
  obtain ⟨-, ⟨hbusy, -⟩ | ⟨-, hp⟩⟩ := encTickStep_codes c hb
  · exact absurd hi hbusy
  · exact hp

/-- As many ticks as levels are still to come end the frame, and before each the carrier has the next of them. -/
theorem ticks_of_levels (h : s.Inv) (hclear : clearedWhenIdle s.enc) {l : List Bool}
    (hl : levels (segmentsLeft s.cfg s.enc) = l) :
    ∃ u, execTimes .encTick l.length s = .next u ∧ encBusy u = false ∧ u.enc.pending = 0#32 ∧ u.enc.irOn = false ∧
      ∀ k, k < l.length → ∃ v, execTimes .encTick k s = .next v ∧ encBusy v = true ∧ v.enc.irOn = l.getD k false := by
  induction l generalizing s with
  | nil =>
    have hb : encBusy s = false := by
      rw [← Bool.not_eq_true]
      intro hb
      rw [levels_tickStep h.encoder (encBusy_eq_true.mp hb)] at hl
      cases hl
    have hi : s.enc.phase = .idle := encBusy_eq_false.mp hb
    exact ⟨s, rfl, hb, hclear hi, (h.encoder.resting hi).2, nofun⟩
  | cons b l ih =>
    have hbusy : s.enc.phase ≠ .idle := by
      intro hi
      rw [segmentsLeft_of_idle hi] at hl
      cases hl
    obtain ⟨t, ht, hinv, hcfg, henc⟩ := encTick_of_busy h (encBusy_eq_true.mpr hbusy)
    rw [levels_tickStep h.encoder hbusy] at hl
    obtain ⟨hirOn, hl⟩ := List.cons_eq_cons.mp hl
    rw [← henc, ← hcfg] at hl
    have hclear' : clearedWhenIdle t.enc := henc ▸ clearedWhenIdle_tickStep hbusy
    obtain ⟨u, hu, hidle, hpending, hoff, hlevel⟩ := ih hinv hclear' hl
    refine ⟨u, ?_, hidle, hpending, hoff, fun k hk => ?_⟩
    · rw [List.length_cons, execTimes, ht, andThen_next, hu]
    · cases k with
      | zero => exact ⟨s, rfl, encBusy_eq_true.mpr hbusy, hirOn⟩
      | succ k =>
        rw [execTimes, ht, andThen_next, List.getD_cons_succ]
        exact hlevel k (Nat.lt_of_succ_lt_succ hk)

end Frame

/-- Settles O44: `TRANSMIT` leaves the whole frame to send, and each tick takes one level of it. -/
theorem frameIsItsSegments : Obligations.FrameIsItsSegments := by
  intro s h hb hp
  have ht := exec_fsmStep_enc h.unitsOk
  rw [if_neg (by simp [hb]), encEngineStep_eq, if_pos (by simpa using hp)] at ht
  obtain ⟨u, hu, hidle, hpending, hoff, hlevel⟩ := ticks_of_levels (inv_exec rfl h ht) nofun rfl
  rw [segmentsLeft_transmit, length_levels_frameSegments] at hu hlevel
  refine ⟨_, u, ht, hu, hidle, hpending, hoff, fun k hk => ?_⟩
  rw [levelAt_eq]
  exact hlevel k hk

end Sys2Proof.Machine
end

section
/-! PROOFS. A capture of an encoded frame is a command frame (43_nec_encoder.md R210, 95_test_vectors.md section 2.4): each segment, rounded to
decoder ticks, lies in the window that classifies it. -/

namespace Sys2Proof.Machine

/-! ## The ticks of a segment -/

section SegmentTicks

variable {c : Config} {code : W32}

/-- Bit `k + m` has the places `2 * m` and `2 * m + 1` among the segments of the bits from `k` on. -/
theorem getElem?_bitSegments {n m : Nat} (h : m < n) (k : Nat) :
    (bitSegments c code n k)[2 * m]? = some (true, (onT c (codeBit code (k + m))).toNat) ∧
      (bitSegments c code n k)[2 * m + 1]? = some (false, (offT c (codeBit code (k + m))).toNat) := by
  induction m generalizing n k with
  | zero =>
    obtain ⟨n, rfl⟩ : ∃ l, n = l + 1 := ⟨n - 1, by omega⟩
    exact ⟨rfl, rfl⟩
  | succ m ih =>
    obtain ⟨n, rfl⟩ : ∃ l, n = l + 1 := ⟨n - 1, by omega⟩
    have hbit : k + (m + 1) = k + 1 + m := by omega
    rw [hbit]
    exact ih (by omega) (k + 1)

theorem length_bitSegments (n k : Nat) : (bitSegments c code n k).length = 2 * n := by
  induction n generalizing k with
  | zero => rfl
  | succ n ih => simp only [bitSegments, List.length_cons, ih]; omega

/-- The bits' segments stand after the two of the prologue. -/
theorem getElem?_frameSegments {i : Nat} (h : i < 64) :
    (frameSegments c code)[i + 2]? = (bitSegments c code 32 0)[i]? := by
  have hlen : i < (bitSegments c code 32 0).length := by rw [length_bitSegments]; exact h
  rw [frameSegments, List.append_assoc]
  exact List.getElem?_append_left hlen

theorem segmentTicks_prologue :
    segmentTicks c code 0 = c.proOnT.toNat ∧ segmentTicks c code 1 = c.proOffT.toNat := ⟨rfl, rfl⟩

theorem segmentTicks_on {m : Nat} (h : m < 32) : segmentTicks c code (2 * m + 2) = (onT c (codeBit code m)).toNat := by
  rw [segmentTicks, getElem?_frameSegments (by omega), (getElem?_bitSegments h 0).1, Nat.zero_add]
  rfl

theorem segmentTicks_off {m : Nat} (h : m < 32) : segmentTicks c code (2 * m + 3) = (offT c (codeBit code m)).toNat := by
  rw [segmentTicks, getElem?_frameSegments (i := 2 * m + 1) (by omega), (getElem?_bitSegments h 0).2, Nat.zero_add]
  rfl

end SegmentTicks

/-! ## A segment to within half a decoder tick -/

section Capture

variable {s : State} {c : W32} {cap j : Nat} {off : W16}

/-- `n` encoder ticks, give or take half a decoder tick, are inside the window `x`. -/
def segmentFits (cfg : Config) (x : Window) (n : Nat) : Prop :=
  2 * ((microWindow cfg x).loUs * 1000) + cfg.tickDecNs ≤ 2 * (n * cfg.tickEncNs) ∧
    2 * (n * cfg.tickEncNs) + cfg.tickDecNs ≤ 2 * ((microWindow cfg x).hiUs * 1000)

theorem inWindow_of_captures (ht : 1 ≤ s.cfg.tickDecNs) (h : captures s c) (hj : j < 67) {x : Window}
    (hx : segmentFits s.cfg x (segmentTicks s.cfg c j)) : inWindow s.cfg x (deltaAt s j) = true := by
  obtain ⟨hhi, hlo⟩ := h j hj
  obtain ⟨hxlo, hxhi⟩ := hx
  rw [inWindow_eq_true, windowLo_le_iff ht, le_windowHi_iff ht]
  omega

section DefaultTicks

variable (hcfg : s.cfg = { Config.default with edgeCap := cap, epiOffT := off })
include hcfg

theorem segmentFits_of_default {x : Window} {n : Nat} (h : segmentFits Config.default x n) : segmentFits s.cfg x n := by
  rw [hcfg]
  cases x <;> exact h

/-- Every classified segment of a frame with the default ticks fits its default window. -/
theorem commandFrame_of_captures (h : captures s c) : CommandFrame s c := by
  have ht : 1 ≤ s.cfg.tickDecNs := by rw [hcfg]; exact show 1 ≤ Config.default.tickDecNs by decide
  have hpro : s.cfg.proOnT = Config.default.proOnT ∧ s.cfg.proOffT = Config.default.proOffT := by rw [hcfg]; exact ⟨rfl, rfl⟩
  have hbit (b : Bool) : onT s.cfg b = onT Config.default b ∧ offT s.cfg b = offT Config.default b := by
    rw [hcfg]
    exact ⟨rfl, rfl⟩
  have hwindow {j : Nat} (hj : j < 67) {x : Window} (hx : segmentFits Config.default x (segmentTicks s.cfg c j)) :
      inWindow s.cfg x (deltaAt s j) = true := inWindow_of_captures ht h hj (segmentFits_of_default hcfg hx)
  refine ⟨?prologueSilence, ?prologuePulse, fun m hm => ?silence, fun m hm => ?pulse⟩
  case prologueSilence =>
    refine hwindow (by decide) ?_
    rw [segmentTicks_prologue.1, hpro.1]
    exact ⟨by decide, by decide⟩
  case prologuePulse =>
    refine hwindow (by decide) ?_
    rw [segmentTicks_prologue.2, hpro.2]
    exact ⟨by decide, by decide⟩
  case silence =>
    rw [Nat.add_comm]
    refine hwindow (by omega) ?_
    rw [segmentTicks_on hm, (hbit _).1]
    cases codeBit c m <;> exact ⟨by decide, by decide⟩
  case pulse =>
    rw [Nat.add_comm]
    refine hwindow (by omega) ?_
    rw [segmentTicks_off hm, (hbit _).2]
    cases codeBit c m <;> exact ⟨by decide, by decide⟩

end DefaultTicks

end Capture

/-- Settles O26: a capture of an encoded frame is a command frame, which decodes to its code. -/
theorem decodingAnEncodedFrameGivesTheCode : Obligations.DecodingAnEncodedFrameGivesTheCode := by
  intro s c cap off hcfg hinv hb hcap h
  have hcap : 68 ≤ s.cfg.edgeCap := by rw [hcfg]; exact hcap
  obtain ⟨u, -, -, hu⟩ := commandFrameDecodesToItsCode s c hinv hb hcap (windowsDisjoint_of_default hcfg)
    (commandFrame_of_captures hcfg h)
  exact ⟨_, hu, rfl⟩

end Sys2Proof.Machine
end

section
/-! PROOFS. A clock edge as the rows its selectors select (30_encoding.md R91 to R95, 60_exceptions.md R226): each unit's row is an instruction, and
running it gives that unit's registers. -/

namespace Sys2Proof.Machine

section SelectedRow

variable {s : State}

theorem exec_selected_decRow (hk : decStuck s.dec = false) (ho : decOut s = false) :
    ∃ r, decodeDec (decSelector s) = some r ∧ exec r.instr s = .next { s with dec := decAdvance s } :=
  ⟨_, decodeDec_decSelector s, by rw [exec_decRow, ← decEdge_eq hk, decEdge_ok ho]⟩

/-- The selector does not read the duration, so the strobe that clears it before the row leaves the row selected. -/
theorem dbnSelector_dbnConsume (s : State) : dbnSelector (dbnConsume s) = dbnSelector s := by
  unfold dbnConsume
  split <;> rfl

theorem exec_selected_dbnRow (s : State) :
    ∃ r, decodeDbn (dbnSelector s) = some r ∧ exec r.instr s = .next { s with dbn := dbnAdvance s } :=
  ⟨_, decodeDbn_dbnSelector s, by rw [exec_dbnRow, ← dbnEdge_eq, dbnEdge_ok]⟩

theorem exec_selected_encRow (hk : encStuck s.enc = false) :
    ∃ r, decodeEnc (encSelector s) = some r ∧ exec r.instr s = .next { s with enc := encAdvance s } := by
  have hphase : s.enc.phase ≠ .reserved := fun h => by simp [encStuck_iff.mpr (.inr (.inl h))] at hk
  obtain ⟨-, -, -, hrow⟩ := everyComputedSelectorHasARow s
  obtain ⟨r, hr⟩ := hrow hphase
  refine ⟨r, hr, ?_⟩
  rw [exec_encRow, ← encEdge_ok, encEdge, if_neg (by simp [hk]), hr]

theorem exec_selected_engRow (s : State) :
    ∃ r, decodeEng (engSelector s) = some r ∧
      exec r.instr s = .next { s with eng := (engAdvance s).1, act := (engAdvance s).2 } :=
  ⟨_, decodeEng_engSelector s, by rw [exec_engRow, ← engEdge_eq, engEdge_ok]⟩

end SelectedRow

/-- Settles O8: an edge that completes is the step of each unit's table with the loads, and each such step is the selected row's. -/
theorem clockEdgeRunsTheSelectedRows : Obligations.ClockEdgeRunsTheSelectedRows := by
  intro x xs s t hr hdec henc h
  obtain ⟨hruns, hpeers, -⟩ := clockEdge_next.mp h
  obtain ⟨hx, ho⟩ := hruns.resolve_left (by simp [hr])
  obtain ⟨rd, hrd, hud⟩ := exec_selected_decRow (s := { s with inp := x }) hdec ho
  obtain ⟨rb, hrb, hub⟩ := exec_selected_dbnRow (dbnConsume { s with inp := x })
  obtain ⟨re, hre, hue⟩ := exec_selected_encRow (s := { s with inp := x }) henc
  obtain ⟨rg, hrg, hug⟩ := exec_selected_engRow { s with inp := x }
  rw [dbnSelector_dbnConsume] at hrb
  refine ⟨rd, rb, re, rg, _, _, _, _, hrd, hud, hrb, hub, hre, hue, hrg, hug, ?_⟩
  rw [clockEdgeRefinesTheTransitionTables x xs s hr hx ho hpeers] at h
  cases h
  rfl

end Sys2Proof.Machine
end

section
/-! PROOFS. How an instruction can stop (60_exceptions.md R220, R224): the meaning of each as a clock edge, a row behind its unit's check, an
operation that always completes, or one of the three that refuse by themselves. -/

namespace Sys2Proof.Machine

/-- The forms a meaning has, by how it can stop. -/
inductive ExecForm (s : State) (i : Instr) : Prop
  | edge (x : Inputs) (hx : portsOf i = some x)
  | decRow (cond : Bool) (w : Dec → Dec) (h : exec i s = decRowStep cond w s)
  | encRow (cond : Bool) (w : Enc → Enc) (h : exec i s = encRowStep cond w s)
  | completes (t : State) (h : exec i s = .next t)
  | construct (z : EngSizes) (ws : List Nat) (s0 : Nat) (hi : i = .fsmConstruct z ws s0)
  | readResult (hi : i = .decReadResult)
  | reserved (hi : i = .reserved0 ∨ i = .reservedC ∨ i = .reservedD ∨ i = .reservedE)

/-- Every instruction has one of the forms. -/
theorem execForm (s : State) (i : Instr) : ExecForm s i := by
  cases i
  case decHalt => exact .decRow _ _ (execDecHalt_eq s)
  case decIdlePrologue | decIdleNoise | decInitCommand | decInitRepetition | decInitNoise | decSsComplete | decSsSilence
      | decSsNoise | decSpBit0 | decSpBit1 | decSpNoise =>
    exact .decRow _ _ (by
      dsimp only [exec, execDecIdlePrologue, execDecIdleNoise, execDecInitCommand, execDecInitRepetition, execDecInitNoise,
        execDecSsComplete, execDecSsSilence, execDecSsNoise, execDecSpBit0, execDecSpBit1, execDecSpNoise])
  case encNoPoll | encSend | encNothing | encWait | encCount | encProOnEnd | encProOffEnd | encBitOnEnd | encBitOffNext
      | encBitOffLast | encEpiOnEnd | encEpiOffEnd =>
    exact .encRow _ _ (by
      dsimp only [exec, execEncNoPoll, execEncSend, execEncNothing, execEncWait, execEncCount, execEncProOnEnd,
        execEncProOffEnd, execEncBitOnEnd, execEncBitOffNext, execEncBitOffLast, execEncEpiOnEnd, execEncEpiOffEnd])
  case dbNoPoll | dbPress | dbReleasedHold | dbPwElapsed | dbPwHold | dbRelease | dbPressedHold | dbRwElapsed | dbRwHold
      | engNoPoll | engNoMatch | dbGetDuration | dbIsActive | encIsBusy => exact .completes _ rfl
  case engFire =>
    cases hp : s.inp.engPoll
    case false => exact .completes s (by simp [exec, execEngFire, hp])
    cases hf : engFired s with
    | none => exact .completes s (by simp [exec, execEngFire, hf])
    | some e => exact .completes _ (execEngFire_of_fired hp hf)
  case fsmConstruct z ws s0 => exact .construct z ws s0 rfl
  case decReadResult => exact .readResult rfl
  case reserved0 => exact .reserved (.inl rfl)
  case reservedC => exact .reserved (.inr (.inl rfl))
  case reservedD => exact .reserved (.inr (.inr (.inl rfl)))
  case reservedE => exact .reserved (.inr (.inr (.inr rfl)))
  case fsmStep | dbResetDuration | decParse | encSetCode | encTick | clock | reset => exact .edge _ rfl

section Stops

variable {s : State}

theorem decRowStep_ne_refused (cond : Bool) (w : Dec → Dec) (r : Refusal) : decRowStep cond w s ≠ .refused r := by
  unfold decRowStep
  split <;> nofun

theorem encRowStep_ne_refused (cond : Bool) (w : Enc → Enc) (r : Refusal) : encRowStep cond w s ≠ .refused r := by
  unfold encRowStep
  split <;> nofun

theorem exec_reserved {i : Instr} (hi : i = .reserved0 ∨ i = .reservedC ∨ i = .reservedD ∨ i = .reservedE) :
    exec i s = .refused .reservedHostOp := by
  obtain rfl | rfl | rfl | rfl := hi <;> rfl

theorem exec_fsmConstruct_refused {z : EngSizes} {ws : List Nat} {s0 : Nat} {r : Refusal}
    (h : exec (.fsmConstruct z ws s0) s = .refused r) : r = .badTable ∧ tableOk z ws = false := by
  simp only [exec, execFsmConstruct] at h
  split at h
  · cases h
  · next hok => cases h; exact ⟨rfl, by simpa using hok⟩

theorem exec_decReadResult_refused {r : Refusal} (h : exec .decReadResult s = .refused r) :
    r = .readWhileBusy ∧ decBusy s = true := by
  simp only [exec, execDecReadResult] at h
  split at h
  · next hb => cases h; exact ⟨rfl, hb⟩
  · cases h

/-- An instruction faults at a clock edge that does, or by the check of its own unit. -/
theorem exec_fault {i : Instr} {f : Fault} (h : exec i s = .fault f) :
    (∃ x, portsOf i = some x ∧ hostEdge x s = .fault f) ∨ decCheck s ≠ none ∨ encCheck s ≠ none := by
  cases execForm s i with
  | edge x hx => exact .inl ⟨x, hx, exec_ports hx s ▸ h⟩
  | decRow cond w he => exact .inr (.inl fun hn => by rw [he, decRowStep_ok hn] at h; cases h)
  | encRow cond w he => exact .inr (.inr fun hn => by rw [he, encRowStep_ok hn] at h; cases h)
  | completes t he => rw [he] at h; cases h
  | construct z ws s0 hi =>
    subst hi
    simp only [exec, execFsmConstruct] at h
    split at h <;> cases h
  | readResult hi =>
    subst hi
    simp only [exec, execDecReadResult] at h
    split at h <;> cases h
  | reserved hi => rw [exec_reserved hi] at h; cases h

/-- Under the invariant every decoder's next entry exists, so no edge faults. -/
theorem clockEdge_ne_fault (hinv : s.Inv) (x : Inputs) (xs : List Inputs) (f : Fault) : clockEdge x xs s ≠ .fault f := by
  intro h
  obtain ⟨hdec, -, hpeers⟩ := hinv.unitsOk
  obtain ho | ⟨b, hb, ho⟩ := clockEdge_fault h
  · simp [(decCheck_eq_none.mp hdec).2] at ho
  · simp [hpeers b hb] at ho

/-- The strobe behind a refused edge, and the condition it is refused in (42_nec_decoder.md R170, 43_nec_encoder.md R191). -/
theorem edgeRefusal_cases {x : Inputs} {r : Refusal} (h : edgeRefusal x s = some r) :
    (r = .parseWhileBusy ∧ decBusy s = true ∧ x.start = true) ∨
    (r = .countTooLarge ∧ decBusy s = false ∧ x.start = true ∧ s.cfg.edgeCap < x.countIn) ∨
    (r = .setCodeWhileBusy ∧ encBusy s = true ∧ x.setCode = true) := by
  unfold edgeRefusal at h
  split at h
  · next hp => cases h; simp_all
  split at h
  · next hp hc => cases h; simp_all
  split at h
  · next hv => cases h; simp_all
  · cases h

/-- What makes a table malformed. -/
theorem tableOk_eq_false {z : EngSizes} {ws : List Nat} (h : tableOk z ws = false) :
    ws.length ≠ z.nEntries ∨ ∃ w ∈ ws, 2 ^ z.entryW ≤ w ∨ z.nGuards ≤ (entryOfWord z w).guard ∨
      z.nActions ≤ (entryOfWord z w).action := by
  by_contra hc
  simp only [not_or, not_exists, not_and, Nat.not_le, ne_eq, not_not] at hc
  exact absurd (tableOk_iff.mpr hc) (by simp [h])

end Stops

/-- Settles O55: a fault is an edge's or a unit's check's, and the invariant passes both. -/
theorem nothingFaultsUnderTheInvariant : Obligations.NothingFaultsUnderTheInvariant := by
  intro s hinv
  refine ⟨fun i f h => ?_, clockEdge_ne_fault hinv⟩
  obtain ⟨hdec, henc, -⟩ := hinv.unitsOk
  obtain ⟨x, -, he⟩ | hn | hn := exec_fault h
  · exact clockEdge_ne_fault hinv _ _ _ he
  · exact hn hdec
  · exact hn henc

/-- Settles O56: a refused edge has the strobe of its instruction refused, no row refuses, and the others refuse in one condition each. -/
theorem refusalsComeFromTheirOperations : Obligations.RefusalsComeFromTheirOperations := by
  intro i s r h
  cases execForm s i with
  | edge x hx =>
    have hs : StrobesOf i x := strobesOf_portsOf hx
    obtain ⟨-, hrefused⟩ := hostEdge_refused (exec_ports hx s ▸ h)
    obtain ⟨hr, hb, hstart⟩ | ⟨hr, hb, hstart, hcount⟩ | ⟨hr, hb, hset⟩ := edgeRefusal_cases hrefused
    · exact .inr (.inl ⟨hr, hb, hs.start hstart⟩)
    · obtain ⟨n, rfl⟩ := hs.start hstart
      cases hx
      exact .inr (.inr (.inl ⟨hr, hb, n, rfl, hcount⟩))
    · exact .inr (.inr (.inr (.inr (.inl ⟨hr, hb, hs.setCode hset⟩))))
  | decRow cond w he => exact absurd (he ▸ h) (decRowStep_ne_refused cond w r)
  | encRow cond w he => exact absurd (he ▸ h) (encRowStep_ne_refused cond w r)
  | completes t he => rw [he] at h; cases h
  | construct z ws s0 hi =>
    subst hi
    obtain ⟨hr, hbad⟩ := exec_fsmConstruct_refused h
    exact .inl ⟨hr, z, ws, s0, rfl, tableOk_eq_false hbad⟩
  | readResult hi =>
    subst hi
    obtain ⟨hr, hb⟩ := exec_decReadResult_refused h
    exact .inr (.inr (.inr (.inl ⟨hr, hb, rfl⟩)))
  | reserved hi =>
    rw [exec_reserved hi] at h
    cases h
    exact .inr (.inr (.inr (.inr (.inr ⟨rfl, hi⟩))))

end Sys2Proof.Machine
end

section
/-! PROOFS. The independence of blocks and of units (60_exceptions.md R235, R236): a block's edge reads the configuration, its own registers and its own
buffer, and a unit's step at a poll of another reads and writes nothing the poll does. -/

namespace Sys2Proof.Machine

/-! ## Blocks (R236) -/

/-- An edge leaves at each place what it leaves of the block that stands there, alone in the place of block 0. -/
theorem blocks_getElem?_of_clockEdge {x : Inputs} {xs : List Inputs} {s t : State} (h : clockEdge x xs s = .next t) (i : Nat) :
    t.blocks[i]? = s.blocks[i]?.map fun b => (blockNext ((x :: xs)[i]?.getD Inputs.idle) (s.withBlock b)).block := by
  obtain ⟨-, -, rfl⟩ := clockEdge_next.mp h
  cases i with
  | zero => rfl
  | succ i => simp [State.blocks, peersNext, List.getElem?_mapIdx]

/-- Settles O59: the block ends the edge as `blockNext` of it, in which the configuration, the block, its buffer and its port values are all that
is read. -/
theorem blocksDoNotInteract : Obligations.BlocksDoNotInteract := by
  intro x y xs ys s u s' u' i j b hs hu hcfg hi hj hbuf hin
  refine ⟨_, (blocks_getElem?_of_clockEdge hs i).trans (by rw [hi]; rfl), ?_⟩
  rw [blocks_getElem?_of_clockEdge hu j, hj, ← hin]
  exact congrArg some (blockNext_congr (s := u.withBlock b) (t := s.withBlock b) hcfg.symm hbuf.symm rfl)

/-! ## Units (R235) -/

/-- What a poll that completes leaves. -/
def pollNext (p : PollInputs) (s : State) : State :=
  { blockNext (pollPorts p) s with peers := peersTick s }

section Polls

variable (p q : PollInputs) {s t : State}

theorem eq_pollNext_of_exec (h : exec (.fsmStep p) s = .next t) : t = pollNext p s := by
  rw [exec_ports (i := .fsmStep p) rfl] at h
  obtain ⟨hr, -⟩ | ⟨-, -, -, -, ht⟩ := hostEdge_next.mp h
  · exact absurd hr (by simp)
  · exact ht

@[simp] theorem pollNext_cfg : (pollNext p s).cfg = s.cfg := by simp [pollNext, blockNext_pollPorts]

@[simp] theorem pollNext_bufs : (pollNext p s).bufs = s.bufs := by simp [pollNext, blockNext_pollPorts]

@[simp] theorem pollNext_edge : (pollNext p s).edge = s.edge := edge_congr (by simp [pollNext, blockNext_pollPorts]) (by simp)

@[simp] theorem pollNext_dec : (pollNext p s).dec = decAdvance s := by simp [pollNext, blockNext_pollPorts]

theorem pollNext_dbn : (pollNext p s).dbn = dbnAdvance { s with inp := pollPorts p } := by
  simp [pollNext, blockNext_pollPorts]

theorem pollNext_enc : (pollNext p s).enc = encAdvance { s with inp := pollPorts p } := by
  simp [pollNext, blockNext_pollPorts]

theorem pollNext_eng : (pollNext p s).eng = (engAdvance { s with inp := pollPorts p }).1 := by
  simp [pollNext, blockNext_pollPorts]

@[simp] theorem pollNext_peers : (pollNext p s).peers = peersTick s := rfl

/-! What a poll leaves of a unit depends on that unit. -/

theorem pollNext_dbn_congr (h : s.dbn = t.dbn) : (pollNext p s).dbn = (pollNext p t).dbn := by
  rw [pollNext_dbn, pollNext_dbn]
  exact dbnAdvance_congr h rfl

theorem pollNext_enc_congr (hc : s.cfg = t.cfg) (h : s.enc = t.enc) : (pollNext p s).enc = (pollNext p t).enc := by
  rw [pollNext_enc, pollNext_enc]
  exact encAdvance_congr hc h rfl

theorem pollNext_eng_congr (h : s.eng = t.eng) : (pollNext p s).eng = (pollNext p t).eng := by
  rw [pollNext_eng, pollNext_eng]
  exact congrArg Prod.fst (engAdvance_congr h rfl)

/-- The other blocks' edge reads the configuration, the edge buffers and those blocks. -/
theorem peersTick_congr (hc : s.cfg = t.cfg) (hb : s.bufs = t.bufs) (hp : s.peers = t.peers) : peersTick s = peersTick t := by
  have hdec : ∀ b, decAdvance (s.withBlock b) = decAdvance (t.withBlock b) := fun b =>
    decAdvance_congr hc rfl (edge_congr rfl hb)
  simp only [peersTick, hdec, hp]

/-! A unit that is not polled, and the two orders of its polls. -/

/-- A poll asserts the strobe of its own unit alone. -/
theorem pollPorts_engPoll : (pollPorts p).engPoll = (polledUnit p == .eng) := by cases p <;> rfl
theorem pollPorts_dbnPoll : (pollPorts p).dbnPoll = (polledUnit p == .dbn) := by cases p <;> rfl
theorem pollPorts_encPoll : (pollPorts p).encPoll = (polledUnit p == .enc) := by cases p <;> rfl
theorem pollPorts_tick : (pollPorts p).tick = false := by cases p <;> rfl

theorem pollNext_dbn_of_other (h : polledUnit p ≠ .dbn) : (pollNext p s).dbn = s.dbn := by
  have hp : (pollPorts p).dbnPoll = false := by simp [pollPorts_dbnPoll, h]
  rw [pollNext_dbn, dbnAdvance_of_no_poll hp]

theorem pollNext_eng_of_other (h : polledUnit p ≠ .eng) : (pollNext p s).eng = s.eng := by
  have hp : (pollPorts p).engPoll = false := by simp [pollPorts_engPoll, h]
  rw [pollNext_eng, engAdvance_of_no_poll hp]

theorem pollNext_enc_of_other (h : polledUnit p ≠ .enc) (hk : encStuck s.enc = false) : (pollNext p s).enc = s.enc := by
  have hp : (pollPorts p).encPoll = false := by simp [pollPorts_encPoll, h]
  rw [pollNext_enc, encAdvance_of_no_strobe hk hp (pollPorts_tick p)]

/-- A stuck encoder records its fault at every poll, whichever unit the poll is for. -/
theorem pollNext_enc_of_stuck (hk : encStuck s.enc = true) : (pollNext p s).enc = s.enc.recordFault := by
  rw [pollNext_enc]
  exact encAdvance_of_stuck hk

/-- A frame starts with a count that is not 0, so a poll does not bring the encoder into a combination of 30_encoding.md R98. -/
theorem encStuck_pollNext (hc : s.cfg.wf = true) (hk : encStuck s.enc = false) : encStuck (pollNext p s).enc = false := by
  have hcount : s.cfg.proOnT ≠ 0#16 := loadedCount_ne_zero (e := s.enc.transmit s.cfg) hc nofun nofun
  obtain ⟨hfaulted, -⟩ := Bool.or_eq_false_iff.mp hk
  have hsend : encStuck (s.enc.transmit s.cfg) = false := by
    simp [encStuck, encUnreachable, Enc.transmit, hfaulted, hcount]
  cases hp : (pollPorts p).encPoll
  · rw [pollNext_enc, encAdvance_of_no_strobe hk hp (pollPorts_tick p)]
    exact hk
  · rw [pollNext_enc, encAdvance_of_poll hk hp (pollPorts_tick p), encEngineStep_eq]
    split
    · exact hk
    · split
      · exact hsend
      · exact hk

theorem pollNext_dbn_comm (h : polledUnit p ≠ .dbn) : (pollNext q (pollNext p s)).dbn = (pollNext p (pollNext q s)).dbn := by
  rw [pollNext_dbn_of_other p h]
  exact pollNext_dbn_congr q (pollNext_dbn_of_other p h)

theorem pollNext_eng_comm (h : polledUnit p ≠ .eng) : (pollNext q (pollNext p s)).eng = (pollNext p (pollNext q s)).eng := by
  rw [pollNext_eng_of_other p h]
  exact pollNext_eng_congr q (pollNext_eng_of_other p h)

theorem pollNext_enc_comm (hc : s.cfg.wf = true) (h : polledUnit p ≠ .enc) :
    (pollNext q (pollNext p s)).enc = (pollNext p (pollNext q s)).enc := by
  cases hk : encStuck s.enc
  case false =>
    rw [pollNext_enc_of_other p h (encStuck_pollNext q hc hk)]
    exact pollNext_enc_congr q (pollNext_cfg p) (pollNext_enc_of_other p h hk)
  have hstuck : ∀ r, encStuck (pollNext r s).enc = true := fun r => by rw [pollNext_enc_of_stuck r hk]; rfl
  rw [pollNext_enc_of_stuck q (hstuck p), pollNext_enc_of_stuck p (hstuck q), pollNext_enc_of_stuck p hk,
    pollNext_enc_of_stuck q hk]

/-- No unit is the one polled by both of two polls of different units. -/
theorem polledUnit_ne_or (h : polledUnit p ≠ polledUnit q) (u : UnitTag) : polledUnit p ≠ u ∨ polledUnit q ≠ u := by
  by_contra hc
  simp only [not_or, not_not] at hc
  exact h (hc.1.trans hc.2.symm)

end Polls

/-- Settles O60: of two polls of different units one is not for the unit looked at, and that one leaves it as it is, or stuck; the decoder and the other
blocks step at both polls alike. -/
theorem pollOrderChangesNoRegister : Obligations.PollOrderChangesNoRegister := by
  intro p q s a b c d hc hpq ha hb hc' hd
  obtain rfl := eq_pollNext_of_exec p ha
  obtain rfl := eq_pollNext_of_exec q hb
  obtain rfl := eq_pollNext_of_exec q hc'
  obtain rfl := eq_pollNext_of_exec p hd
  refine ⟨?_, ?_, ?_, ?_, by simp, ?_⟩
  · simp only [pollNext_dec]
    exact decAdvance_congr (by simp) (by simp) (by simp)
  · obtain h | h := polledUnit_ne_or p q hpq .dbn
    · exact pollNext_dbn_comm p q h
    · exact (pollNext_dbn_comm q p h).symm
  · obtain h | h := polledUnit_ne_or p q hpq .enc
    · exact pollNext_enc_comm p q hc h
    · exact (pollNext_enc_comm q p hc h).symm
  · obtain h | h := polledUnit_ne_or p q hpq .eng
    · exact pollNext_eng_comm p q h
    · exact (pollNext_eng_comm q p h).symm
  · simp only [pollNext_peers]
    exact peersTick_congr (by simp) (by simp) (by simp)

end Sys2Proof.Machine
end

section
/-! PROOFS. Hazard (a) of 70_reset_and_hazards.md R262: the deadline of a press within the debounce time of the wrap of the clock. -/

namespace Sys2Proof.Machine

/-- A sum that passes 2^32 comes out below either summand. -/
theorem toNat_add_lt_of_wrap {a b : W32} (h : 2 ^ 32 ≤ a.toNat + b.toNat) : (a + b).toNat < a.toNat := by
  rw [BitVec.toNat_add]
  have hb : b.toNat < 2 ^ 32 := b.isLt
  omega

/-- Settles O35: the wrapped deadline lies below the time of the press, so any later time before the wrap has passed it. -/
theorem wrappedDeadlineElapsesAtOnce : Obligations.WrappedDeadlineElapsesAtOnce := by
  intro s now now' lvl hinv hs hwrap hle
  obtain ⟨a, ha, hva, hda⟩ := exec_dbnPoll hinv.viewsInside now true
  obtain ⟨b, hb, -, hdb⟩ := exec_dbnPoll hva now' lvl
  have hpast : (now + s.dbn.debounceTime).toNat ≤ now'.toNat := ((toNat_add_lt_of_wrap hwrap).trans_le hle).le
  rw [hda, poll_of_press hs, poll_of_elapsed rfl hpast] at hdb
  exact ⟨a, b, ha, hb, by rw [hdb]⟩

end Sys2Proof.Machine
end

section
/-! PROOFS. Reset (70_reset_and_hazards.md R250): `rst` at a block's edge comes before its other inputs, and `RESET` is that edge for every block. -/

namespace Sys2Proof.Machine

section Reset

variable {x : Inputs} {xs : List Inputs} {s t : State}

theorem blockNext_of_rst (hr : x.rst = true) : blockNext x s = resetUnits { s with inp := x } := if_pos hr

theorem blockAfterReset_blockNext (hr : x.rst = true) : BlockAfterReset s.block (blockNext x s).block := by
  rw [blockNext_of_rst hr]
  exact ⟨rfl, rfl, rfl, rfl⟩

/-- The block with `rst` may stand in any place, block 0 first, and the inputs of the other blocks are any. -/
theorem blockAfterReset_of_clockEdge {i : Nat} {b : Block} (h : clockEdge x xs s = .next t) (hb : s.blocks[i]? = some b)
    (hr : ((x :: xs)[i]?.getD Inputs.idle).rst = true) : ∃ b', t.blocks[i]? = some b' ∧ BlockAfterReset b b' := by
  refine ⟨_, (blocks_getElem?_of_clockEdge h i).trans (by rw [hb]; rfl), ?_⟩
  exact blockAfterReset_blockNext (s := s.withBlock b) hr

theorem clockEdge_of_rst (hr : x.rst = true) (hp : peersRun xs s) :
    clockEdge x xs s = .next { blockNext x s with peers := peersNext xs s } :=
  clockEdge_next.mpr ⟨.inl hr, hp, rfl⟩

/-- What `RESET` leaves of the block in place `k + 1`. -/
theorem peersReset_getElem? {k : Nat} {b : Block} (hb : s.peers[k]? = some b) :
    ∃ b', (peersReset s)[k]? = some b' ∧ BlockAfterReset b b' := by
  refine ⟨_, by rw [peersReset, List.getElem?_map, hb]; rfl, ?_⟩
  exact blockAfterReset_blockNext (x := { Inputs.idle with rst := true }) (s := s.withBlock b) rfl

end Reset

/-- Settles O10: `RESET` completes whatever the state; an edge with `rst` at block 0 completes where it does for the others, and one that completes
leaves the reset values at each place that has `rst`. -/
theorem resetGivesEveryRegisterItsValue : Obligations.ResetGivesEveryRegisterItsValue := by
  intro s
  refine ⟨⟨_, exec_reset s, rfl, blockAfterReset_blockNext rfl, List.length_map _, fun k b => peersReset_getElem?⟩,
    fun x xs hr hp => ?_, fun x xs t k b h hb hr => ?_⟩
  · obtain ⟨hcfg, -⟩ := blockNext_frame x s
    exact ⟨_, clockEdge_of_rst hr hp, hcfg, blockAfterReset_blockNext hr⟩
  · exact blockAfterReset_of_clockEdge (i := k + 1) h hb hr

end Sys2Proof.Machine
end

section
/-! PROOFS. The capture agent's clear and enable (20_memory.md R71, R72, 70_reset_and_hazards.md R263): when a clear is taken, and what the two
leave. -/

namespace Sys2Proof.Machine

section Clear

variable {s : State} {j : Nat}

theorem bufferInUse_eq_true : bufferInUse s j = true ↔ ∃ b ∈ s.blocks, b.buf = j ∧ b.dec.busy = true := by
  simp [bufferInUse]

theorem bufferInUse_eq_false : bufferInUse s j = false ↔ ∀ b ∈ s.blocks, b.buf = j → b.dec.busy = false := by
  simp [bufferInUse]

theorem agentClear_unquiesced (h : (bufferAt s j).capEnabled = true ∨ bufferInUse s j = true) :
    agentClear j s = .refused .bufferClearedUnquiesced := if_pos (by simpa using h)

theorem agentClear_quiesced (he : (bufferAt s j).capEnabled = false) (hu : bufferInUse s j = false) :
    agentClear j s = .next (setBuffer s j { bufferAt s j with cells := [], count := 0 }) := if_neg (by simp [he, hu])

end Clear

/-- Settles O51: the two outcomes of a clear by whether the buffer is quiesced; a clear and an enable set their own buffer alone. -/
theorem clearNeedsQuiescence : Obligations.ClearNeedsQuiescence := by
  intro s j hj
  have hclear : runEvent (.clear j) s = agentClear j s := onBuffer_ok hj _
  rw [hclear]
  refine ⟨fun h => agentClear_unquiesced (h.imp_right bufferInUse_eq_true.mpr), fun he hidle => ?_, fun b => ?_⟩
  · refine ⟨_, agentClear_quiesced he (bufferInUse_eq_false.mpr hidle), ?_⟩
    rw [bufferAt_setBuffer_same hj]
    exact ⟨rfl, he, fun k hk => bufferAt_setBuffer_ne hj _ hk, rfl⟩
  · exact ⟨_, onBuffer_ok hj _, bufferAt_setBuffer_same hj _, fun k hk => bufferAt_setBuffer_ne hj _ hk, rfl⟩

end Sys2Proof.Machine
end
